-- ==== Sys2Proof/Word.lean ====
section
/-! DEFINITION. The machine words of the block: the glyph byte and bus chunk (8 bits), the window row (32 bits) and
the row frame (40 bits). Bits are numbered LSB-0 (rule R10); all values are unsigned (rule R11). -/

namespace Sys2Proof

/-- An 8-bit value: a glyph row byte (rule R42), a chunk (rule R62), a row-select byte (rule R64). -/
abbrev Byte := BitVec 8

/-- A 32-bit window row (rule R21): window column `c` is bit `31 - c`. -/
abbrev Word := BitVec 32

/-- A 40-bit row frame (rule R65), the first bit sent as bit 39. -/
abbrev Frame40 := BitVec 40

end Sys2Proof
end

