-- ==== Sys2Proof/Config.lean ====
section
/-! DEFINITION. What is fixed for the block: the build-time constants that have a value (rule R5), the open parameters
(rule R6), and the free values, constants without a body about which nothing can be proved. -/

namespace Sys2Proof

/-- `H`: rows of a glyph, of the window, of the display (rule R5). -/
abbrev Config.displayHeight : Nat := 8

/-- `W_GLYPH`: columns of a glyph (rule R5). -/
abbrev Config.glyphWidth : Nat := 8

/-- `W_DISPLAY`: columns of the window (rule R5). -/
abbrev Config.displayWidth : Nat := 32

/-- `CHUNK_BITS`: the widest value one physical write accepts (rule R5). -/
abbrev Config.chunkBits : Nat := 8

/-- `ROW_FRAME_BITS`: bits shifted for one row before its latch (rule R5). -/
abbrev Config.rowFrameBits : Nat := 40

/-- What a byte of glyph memory that nothing has written reads as. DESIGN CHOICE (log entry 7), unsafe: the spec says
such bytes "may hold anything" (rule R44); no statement rests on this value. -/
def Config.unlistedByte : Byte := 0

/-- The open parameters of rule R6, as a model "may carry" them: configuration fields, never changed by an operation. -/
structure Params where
  /-- `MAX_GLYPHS`, the capacity of the glyph buffer, a natural number >= 1. -/
  maxGlyphs : Nat
  /-- `FRAMES_PER_TICK`, the number of whole frames scanned in one tick, a natural number >= 1. -/
  framesPerTick : Nat
deriving DecidableEq, Repr

/-- Rule R6: both open parameters are natural numbers >= 1. -/
abbrev Params.wf (p : Params) : Prop := 1 ≤ p.maxGlyphs ∧ 1 ≤ p.framesPerTick

/-- Free value: `MAX_GLYPHS - 1` of the machine at reset (rule R6: OPEN; log entry 6). -/
opaque Config.freeCapacity : Nat

/-- Free value: `FRAMES_PER_TICK - 1` of the machine at reset (rule R6: OPEN; log entry 6). -/
opaque Config.freeFrames : Nat

/-- Free value: the answer to the `n`-th poll where no answer is scripted (rule R15: "treats each `Poll()` as a free
input"; log entry 5). -/
opaque Config.freePoll : Nat → Bool

/-- Free value: what `startGlyph` holds after an increment whose result its register cannot hold (log entry 9;
rule R137 says this never happens in a pass). -/
opaque Config.freeGlyphIndex : Nat → Nat

end Sys2Proof
end

