-- ==== Sys2Proof/Syntax.lean ====
section
/-! DEFINITION. The instructions: one constructor for each row of spec/opcode_table.json. An instruction of this block
is an operation of one of its four components (rule R9); a row that is a wire format, a code or a word held in state
stands for the event sequence or the pseudocode primitive that produces it (log entries 11 to 16). Indexes and counts
are natural numbers, so that a call outside an operand range can be written and refused (rule R159). -/

namespace Sys2Proof

/-- The five output lines (rule R28). -/
inductive Line
  | data
  | sck
  | lck
  | clrN
  | oeN
deriving DecidableEq, Repr

/-- The operations, codes and formats of spec/opcode_table.json, in its order. -/
inductive Instr
  /-- 0x01 PIN_WRITE line, level (R81) -/
  | pinWrite (line : Line) (level : Bool)
  /-- 0x02 EMIT_BIT b (R82) -/
  | emitBit (b : Bool)
  /-- 0x03 SHIFT_OUT8 v (R83) -/
  | shiftOut8 (v : Byte)
  /-- 0x04 EMIT_COLUMNS p, bitWidth: an unsigned pattern of any width (R84) -/
  | emitColumns (p bitWidth : Nat)
  /-- 0x05 EMIT_ROWSCAN v (R85) -/
  | emitRowscan (v : Byte)
  /-- 0x06 LATCH (R86) -/
  | latch
  /-- 0x07 SET_OE level (R87) -/
  | setOe (level : Bool)
  /-- 0x08 CLEAR_REGS (R88) -/
  | clearRegs
  /-- 0x09 WIN_CLEAR (R101) -/
  | winClear
  /-- 0x0A WIN_SET_PIXEL row, col, value (R102) -/
  | winSetPixel (row col : Nat) (value : Bool)
  /-- 0x0B WIN_SHIFT_LEFT n (R103) -/
  | winShiftLeft (n : Nat)
  /-- 0x0C WIN_READ_ROW row (R104) -/
  | winReadRow (row : Nat)
  /-- 0x0D SCAN_ROW row (R111) -/
  | scanRow (row : Nat)
  /-- 0x0E SCAN_FRAME (R112) -/
  | scanFrame
  /-- 0x0F GLYPH_BIT i, r, c (R124) -/
  | glyphBit (i r c : Nat)
  /-- 0x10 RESET (R181) -/
  | reset
  /-- 0x11 START glyph_len (R121) -/
  | start (glyphLen : Nat)
  /-- 0x12 TICK (R122) -/
  | tick
  /-- 0x13 POLL (R123) -/
  | poll
  /-- 0x14 FILL_WINDOW (R125) -/
  | fillWindow
  /-- 0x15 TICK_FILL (R126) -/
  | tickFill
  /-- 0x16 TICK_DRAIN (R127) -/
  | tickDrain
  /-- 0x17 DWELL_SCAN (R129) -/
  | dwellScan
  /-- 0x18 ADVANCE_CURSOR (R130) -/
  | advanceCursor
  /-- 0x19 ABORT (R131) -/
  | abort
  /-- 0x1A RUN_PASS glyph_len (R132) -/
  | runPass (glyphLen : Nat)
  /-- WIN_GET_PIXEL row, col (R105), no id of its own -/
  | winGetPixel (row col : Nat)
  /-- ROWSEL_0, the byte 0x80 on the wire (R64) -/
  | rowsel0
  /-- ROWSEL_1, the byte 0x40 on the wire (R64) -/
  | rowsel1
  /-- ROWSEL_2, the byte 0x20 on the wire (R64) -/
  | rowsel2
  /-- ROWSEL_3, the byte 0x10 on the wire (R64) -/
  | rowsel3
  /-- ROWSEL_4, the byte 0x08 on the wire (R64) -/
  | rowsel4
  /-- ROWSEL_5, the byte 0x04 on the wire (R64) -/
  | rowsel5
  /-- ROWSEL_6, the byte 0x02 on the wire (R64) -/
  | rowsel6
  /-- ROWSEL_7, the byte 0x01 on the wire (R64) -/
  | rowsel7
  /-- CHUNK v (R62) -/
  | chunk (v : Byte)
  /-- COLFIELD c (R63) -/
  | colfield (c : Word)
  /-- ROWFRAME c, r (R65): column pattern and row-select byte -/
  | rowframe (c : Word) (r : Byte)
  /-- BITCELL b (R61) -/
  | bitcell (b : Bool)
  /-- LATCHPULSE (R66) -/
  | latchpulse
  /-- FRAME (R67) -/
  | frame
  /-- CLEARSEQ (R68) -/
  | clearseq
  /-- PHASE_FILLING, code 0b00 (R70): `phase <- FILLING` (R12) -/
  | phaseFilling
  /-- PHASE_DRAINING, code 0b01 (R70): `phase <- DRAINING` (R12) -/
  | phaseDraining
  /-- PHASE_DONE, code 0b10 (R70): `phase <- DONE` (R12) -/
  | phaseDone
  /-- GLYPH_ROW_BYTE (R42): the host writes byte `v` as row `r` of glyph `i` (R13, R74) -/
  | glyphRowByte (i r : Nat) (v : Byte)
  /-- WINDOW_ROW_WORD (R21): `W[row] <- c` (R12) -/
  | windowRowWord (row : Nat) (c : Word)
  /-- CAUSE_BUFFER_OVERFLOW, cause code 1 (R151): `raise BufferOverflow` (R15) -/
  | causeBufferOverflow
deriving DecidableEq, Repr

end Sys2Proof
end

