-- ==== Sys2Proof/WellFormed.lean ====
section
/-! DEFINITION. Which instructions are well formed: the operand ranges of the spec's operation rules. -/

namespace Sys2Proof

/-- The operand ranges of rules R84, R102, R104, R105, R111, R124 and of the row operands of R21 and R41. Shift amounts,
widths from 1 on, glyph indexes and lengths are any natural number (rules R84, R103, R121, R124). -/
def Instr.wf : Instr → Bool
  | .pinWrite _ _ => true
  | .emitBit _ => true
  | .shiftOut8 _ => true
  | .emitColumns _ bitWidth => decide (1 ≤ bitWidth)
  | .emitRowscan _ => true
  | .latch => true
  | .setOe _ => true
  | .clearRegs => true
  | .winClear => true
  | .winSetPixel row col _ => decide (row < Config.displayHeight) && decide (col < Config.displayWidth)
  | .winShiftLeft _ => true
  | .winReadRow row => decide (row < Config.displayHeight)
  | .scanRow row => decide (row < Config.displayHeight)
  | .scanFrame => true
  | .glyphBit _ r c => decide (r < Config.displayHeight) && decide (c < Config.glyphWidth)
  | .reset => true
  | .start _ => true
  | .tick => true
  | .poll => true
  | .fillWindow => true
  | .tickFill => true
  | .tickDrain => true
  | .dwellScan => true
  | .advanceCursor => true
  | .abort => true
  | .runPass _ => true
  | .winGetPixel row col => decide (row < Config.displayHeight) && decide (col < Config.displayWidth)
  | .rowsel0 => true
  | .rowsel1 => true
  | .rowsel2 => true
  | .rowsel3 => true
  | .rowsel4 => true
  | .rowsel5 => true
  | .rowsel6 => true
  | .rowsel7 => true
  | .chunk _ => true
  | .colfield _ => true
  | .rowframe _ _ => true
  | .bitcell _ => true
  | .latchpulse => true
  | .frame => true
  | .clearseq => true
  | .phaseFilling => true
  | .phaseDraining => true
  | .phaseDone => true
  | .glyphRowByte _ r _ => decide (r < Config.displayHeight)
  | .windowRowWord row _ => decide (row < Config.displayHeight)
  | .causeBufferOverflow => true

end Sys2Proof
end

