-- ==== Sys2Proof/Decode.lean ====
section
/-! DEFINITION. Request records: how an operation the host asks for is written as bytes, the decoder of a record (total on
any bytes, rejecting by name) and the encoder.

The spec gives each operation a 5-bit id (rule R71) and no carrier for its operands: "no line and no register ever
carries it". The record is therefore the model's own form (DESIGN CHOICE, log entry 2): byte 0 holds the id in its low
five bits with the high three bits zero, the operands follow byte by byte, window words in four bytes with the least
significant first, single bits as a byte 0 or 1, and an operand that is any natural number comes last and takes all the
bytes that are left, least significant first, so that it has no bound. The two such operands of EMIT_COLUMNS take the
bytes that are left in turn. The rows of spec/opcode_table.json that have no
id of their own follow the byte 0x00, whose id is unassigned (rule R72 a), and a byte that names their table format
(log entry 3). -/

namespace Sys2Proof

/-- Why a record is no operation. -/
inductive Reject
  /-- The record is empty or ends inside an operand. -/
  | truncated
  /-- The id is 0x1B to 0x1F, or the high bits of byte 0 are set and it is no row-select byte (rule R72 a). -/
  | unassignedId
  /-- The byte after 0x00 names no table format. -/
  | unassignedFormat
  /-- A line operand that is none of the five lines (rule R81). -/
  | notALine
  /-- An operand byte that stands for one bit and is neither 0 nor 1 (U5: "`level` not a bit"). -/
  | notABit
  /-- The phase code 0b11, "never produced" (rule R72 b, U7), or a wider value. -/
  | notAPhaseCode
  /-- A ROWSEL byte that is none of the eight values of rule R64 (rule R72 c). -/
  | notARowSelect
  /-- A cause code other than 1, "the only code" (rule R151). -/
  | notACause
  /-- An operand outside its range (rule R159, U5). -/
  | operandRange
  /-- A byte after the last operand is not zero. -/
  | trailing
deriving DecidableEq, Repr

/-- The natural number of some bytes, least significant first. -/
def natOfBytes : List Byte → Nat
  | [] => 0
  | b :: bs => b.toNat + 256 * natOfBytes bs

/-- The low `count` bytes of a natural number, least significant first. -/
def bytesOfNat : (count : Nat) → Nat → List Byte
  | 0, _ => []
  | count + 1, n => BitVec.ofNat 8 n :: bytesOfNat count (n / 256)

/-- The bytes of a natural number, at least one. -/
def natBytes (n : Nat) : List Byte := bytesOfNat (Nat.log2 n / 8 + 1) n

/-- The low `count` bytes of two natural numbers in turn, first and second, least significant first. -/
def pairBytes : (count : Nat) → Nat → Nat → List Byte
  | 0, _, _ => []
  | count + 1, m, n => BitVec.ofNat 8 m :: BitVec.ofNat 8 n :: pairBytes count (m / 256) (n / 256)

/-- The bytes in odd and in even places of a list, the first byte being in an odd place. -/
def unpairBytes : List Byte → List Byte × List Byte
  | [] => ([], [])
  | b :: bs => (b :: (unpairBytes bs).2, (unpairBytes bs).1)

/-- The window word of four bytes, least significant first. -/
def wordOfBytes (a b c d : Byte) : Word := BitVec.ofNat 32 (natOfBytes [a, b, c, d])

/-- The four bytes of a window word, least significant first. -/
def wordBytes (w : Word) : List Byte := bytesOfNat 4 w.toNat

/-- A record is accepted when what follows its operands is zero and its operands are in range. -/
def acceptRecord (i : Instr) (rest : List Byte) : Except Reject Instr :=
  if rest.all (fun b => b == 0#8) then
    if i.wf then .ok i else .error .operandRange
  else .error .trailing

/-- One bit, carried as the byte 0 or 1. -/
def acceptBit (v : Byte) (rest : List Byte) (mk : Bool → Instr) : Except Reject Instr :=
  if v = 0#8 then acceptRecord (mk false) rest
  else if v = 1#8 then acceptRecord (mk true) rest
  else .error .notABit

/-- A natural-number operand: every byte that is left, at least one. -/
def acceptNat (bytes : List Byte) (mk : Nat → Instr) : Except Reject Instr :=
  match bytes with
  | [] => .error .truncated
  | b :: bs => acceptRecord (mk (natOfBytes (b :: bs))) []

/-- Two natural-number operands: every byte that is left, in turn for the first and the second, at least one each. -/
def acceptNats (bytes : List Byte) (mk : Nat → Nat → Instr) : Except Reject Instr :=
  match bytes with
  | b :: c :: bs =>
    let operands := unpairBytes (b :: c :: bs)
    acceptRecord (mk (natOfBytes operands.1) (natOfBytes operands.2)) []
  | _ => .error .truncated

/-- The line codes of a record, in the order in which rule R28 lists the lines. -/
def lineOfByte (l : Byte) : Option Line :=
  match l.toNat with
  | 0 => some .data
  | 1 => some .sck
  | 2 => some .lck
  | 3 => some .clrN
  | 4 => some .oeN
  | _ => none

/-- The byte of a record that names a line. -/
def byteOfLine : Line → Byte
  | .data => 0
  | .sck => 1
  | .lck => 2
  | .clrN => 3
  | .oeN => 4

/-- The row-select codes of rule R64. -/
def rowselOfByte (v : Byte) : Option Instr :=
  match v.toNat with
  | 0x80 => some .rowsel0
  | 0x40 => some .rowsel1
  | 0x20 => some .rowsel2
  | 0x10 => some .rowsel3
  | 0x08 => some .rowsel4
  | 0x04 => some .rowsel5
  | 0x02 => some .rowsel6
  | 0x01 => some .rowsel7
  | _ => none

/-- The width operand of EMIT_COLUMNS: 0 stands for 32, the width of this hardware (log entry 2). -/
def bitWidthOf (n : Nat) : Nat := if n = 0 then 32 else n

/-- The operations with an id of rule R71: the id and the operand bytes that follow it. -/
def decodeOperation (id : Nat) (operands : List Byte) : Except Reject Instr :=
  match id with
  | 0x01 =>
    match operands with
    | l :: v :: rest =>
      match lineOfByte l with
      | some line => acceptBit v rest (Instr.pinWrite line)
      | none => .error .notALine
    | _ => .error .truncated
  | 0x02 =>
    match operands with
    | b :: rest => acceptBit b rest Instr.emitBit
    | _ => .error .truncated
  | 0x03 =>
    match operands with
    | v :: rest => acceptRecord (.shiftOut8 v) rest
    | _ => .error .truncated
  | 0x04 =>
    acceptNats operands fun p n => Instr.emitColumns p (bitWidthOf n)
  | 0x05 =>
    match operands with
    | v :: rest => acceptRecord (.emitRowscan v) rest
    | _ => .error .truncated
  | 0x06 => acceptRecord .latch operands
  | 0x07 =>
    match operands with
    | v :: rest => acceptBit v rest Instr.setOe
    | _ => .error .truncated
  | 0x08 => acceptRecord .clearRegs operands
  | 0x09 => acceptRecord .winClear operands
  | 0x0A =>
    match operands with
    | row :: col :: v :: rest => acceptBit v rest (Instr.winSetPixel row.toNat col.toNat)
    | _ => .error .truncated
  | 0x0B => acceptNat operands Instr.winShiftLeft
  | 0x0C =>
    match operands with
    | row :: rest => acceptRecord (.winReadRow row.toNat) rest
    | _ => .error .truncated
  | 0x0D =>
    match operands with
    | row :: rest => acceptRecord (.scanRow row.toNat) rest
    | _ => .error .truncated
  | 0x0E => acceptRecord .scanFrame operands
  | 0x0F =>
    match operands with
    | row :: col :: i => acceptNat i fun n => Instr.glyphBit n row.toNat col.toNat
    | _ => .error .truncated
  | 0x10 => acceptRecord .reset operands
  | 0x11 => acceptNat operands Instr.start
  | 0x12 => acceptRecord .tick operands
  | 0x13 => acceptRecord .poll operands
  | 0x14 => acceptRecord .fillWindow operands
  | 0x15 => acceptRecord .tickFill operands
  | 0x16 => acceptRecord .tickDrain operands
  | 0x17 => acceptRecord .dwellScan operands
  | 0x18 => acceptRecord .advanceCursor operands
  | 0x19 => acceptRecord .abort operands
  | 0x1A => acceptNat operands Instr.runPass
  | _ => .error .unassignedId

/-- The rows without an id of their own: the byte that names the table format (log entry 3) and the bytes of the
row's own code. -/
def decodeFormat (format : Nat) (code : List Byte) : Except Reject Instr :=
  match format with
  | 0 => -- PHASE2 (rule R70)
    match code with
    | v :: rest =>
      match v.toNat with
      | 0 => acceptRecord .phaseFilling rest
      | 1 => acceptRecord .phaseDraining rest
      | 2 => acceptRecord .phaseDone rest
      | _ => .error .notAPhaseCode
    | _ => .error .truncated
  | 1 => -- ROWSEL8 (rule R64)
    match code with
    | v :: rest =>
      match rowselOfByte v with
      | some i => acceptRecord i rest
      | none => .error .notARowSelect
    | _ => .error .truncated
  | 2 => -- CHUNK8 (rule R62)
    match code with
    | v :: rest => acceptRecord (.chunk v) rest
    | _ => .error .truncated
  | 3 => -- COLFIELD32 (rule R63)
    match code with
    | a :: b :: c :: d :: rest => acceptRecord (.colfield (wordOfBytes a b c d)) rest
    | _ => .error .truncated
  | 4 => -- ROWFRAME40 (rule R65): row-select byte at bits 7:0, column pattern at bits 39:8
    match code with
    | r :: a :: b :: c :: d :: rest => acceptRecord (.rowframe (wordOfBytes a b c d) r) rest
    | _ => .error .truncated
  | 5 => -- BITCELL (rule R61)
    match code with
    | b :: rest => acceptBit b rest Instr.bitcell
    | _ => .error .truncated
  | 6 => acceptRecord .latchpulse code -- rule R66
  | 7 => acceptRecord .frame code -- rule R67
  | 8 => acceptRecord .clearseq code -- rule R68
  | 9 => -- GLYPHROW8 (rule R42) with its address operands (rule R41)
    match code with
    | row :: v :: i => acceptNat i fun n => Instr.glyphRowByte n row.toNat v
    | _ => .error .truncated
  | 10 => -- WINROW32 (rule R21) with its row operand
    match code with
    | row :: a :: b :: c :: d :: rest => acceptRecord (.windowRowWord row.toNat (wordOfBytes a b c d)) rest
    | _ => .error .truncated
  | 11 => -- CAUSE (rule R151)
    match code with
    | v :: rest => if v = 1#8 then acceptRecord .causeBufferOverflow rest else .error .notACause
    | _ => .error .truncated
  | 12 => -- DERIVED: WIN_GET_PIXEL (rule R105)
    match code with
    | row :: col :: rest => acceptRecord (.winGetPixel row.toNat col.toNat) rest
    | _ => .error .truncated
  | _ => .error .unassignedFormat

/-- The operation a record asks for. Bytes 0x20, 0x40 and 0x80 in first place are no operation id and stand for the
row-select codes they are in the table (log entry 3). -/
def decode : List Byte → Except Reject Instr
  | [] => .error .truncated
  | b :: rest =>
    if b = 0#8 then
      match rest with
      | [] => .error .truncated
      | format :: code => decodeFormat format.toNat code
    else if b.toNat < 32 then decodeOperation b.toNat rest
    else
      match rowselOfByte b with
      | some i => acceptRecord i rest
      | none => .error .unassignedId

/-- The byte that carries one bit. -/
def byteOfBool (b : Bool) : Byte := if b then 1 else 0

/-- The record of an instruction, without trailing zeros. -/
def encode : Instr → List Byte
  | .pinWrite line level => [0x01, byteOfLine line, byteOfBool level]
  | .emitBit b => [0x02, byteOfBool b]
  | .shiftOut8 v => [0x03, v]
  | .emitColumns p bitWidth => 0x04 :: pairBytes (Nat.log2 (max p bitWidth) / 8 + 1) p bitWidth
  | .emitRowscan v => [0x05, v]
  | .latch => [0x06]
  | .setOe level => [0x07, byteOfBool level]
  | .clearRegs => [0x08]
  | .winClear => [0x09]
  | .winSetPixel row col value => [0x0A, BitVec.ofNat 8 row, BitVec.ofNat 8 col, byteOfBool value]
  | .winShiftLeft n => 0x0B :: natBytes n
  | .winReadRow row => [0x0C, BitVec.ofNat 8 row]
  | .scanRow row => [0x0D, BitVec.ofNat 8 row]
  | .scanFrame => [0x0E]
  | .glyphBit i r c => 0x0F :: BitVec.ofNat 8 r :: BitVec.ofNat 8 c :: natBytes i
  | .reset => [0x10]
  | .start n => 0x11 :: natBytes n
  | .tick => [0x12]
  | .poll => [0x13]
  | .fillWindow => [0x14]
  | .tickFill => [0x15]
  | .tickDrain => [0x16]
  | .dwellScan => [0x17]
  | .advanceCursor => [0x18]
  | .abort => [0x19]
  | .runPass n => 0x1A :: natBytes n
  | .winGetPixel row col => [0x00, 12, BitVec.ofNat 8 row, BitVec.ofNat 8 col]
  | .rowsel0 => [0x00, 1, 0x80]
  | .rowsel1 => [0x00, 1, 0x40]
  | .rowsel2 => [0x00, 1, 0x20]
  | .rowsel3 => [0x00, 1, 0x10]
  | .rowsel4 => [0x00, 1, 0x08]
  | .rowsel5 => [0x00, 1, 0x04]
  | .rowsel6 => [0x00, 1, 0x02]
  | .rowsel7 => [0x00, 1, 0x01]
  | .chunk v => [0x00, 2, v]
  | .colfield c => 0x00 :: 3 :: wordBytes c
  | .rowframe c r => 0x00 :: 4 :: r :: wordBytes c
  | .bitcell b => [0x00, 5, byteOfBool b]
  | .latchpulse => [0x00, 6]
  | .frame => [0x00, 7]
  | .clearseq => [0x00, 8]
  | .phaseFilling => [0x00, 0, 0]
  | .phaseDraining => [0x00, 0, 1]
  | .phaseDone => [0x00, 0, 2]
  | .glyphRowByte i r v => 0x00 :: 9 :: BitVec.ofNat 8 r :: v :: natBytes i
  | .windowRowWord row c => 0x00 :: 10 :: BitVec.ofNat 8 row :: wordBytes c
  | .causeBufferOverflow => [0x00, 11, 1]

/-- How many bytes of zero-extended record a word of the table is laid out on: enough for every operand to be there. -/
def recordLength : Nat := 8

/-- The record of a word of spec/opcode_table.json, bit 0 the least significant bit of byte 0 (log entry 3). The two
formats whose width alone names them, ROWFRAME40 and COLFIELD32, are laid under their format byte; every other word is
laid out from byte 0, with zeros above. -/
def tableRecord (nbits w : Nat) : List Byte :=
  if nbits = 40 then 0x00 :: 4 :: bytesOfNat 5 w
  else if nbits = 32 then 0x00 :: 3 :: bytesOfNat 4 w
  else bytesOfNat recordLength (w % 2 ^ nbits)

/-- The instruction the decoder reads from a word of the opcode table. -/
def decodeTableWord (nbits w : Nat) : Option Instr :=
  (decode (tableRecord nbits w)).toOption

end Sys2Proof
end

