-- ==== Sys2Proof/Machine/State.lean ====
section
/-! DEFINITION. The state of the machine as plain data: the core's registers (rule R20), the output lines (rule R28), the
glyph memory (rule R41), the panel's two registers (rules R33, R165), the trace (rule R14), the open parameters
(rule R6) and the inputs (rule R31); the reasons a step can stop; the state after RESET (rule R34). -/

namespace Sys2Proof.Machine

/-- The window rows `W[0]` .. `W[7]` (rule R21). -/
structure Window where
  w0 : Word
  w1 : Word
  w2 : Word
  w3 : Word
  w4 : Word
  w5 : Word
  w6 : Word
  w7 : Word
deriving DecidableEq, Repr

/-- The three phases of the scroll engine (rules R22, R70). The fourth code is never produced and has no constructor
(rule R72 b). -/
inductive Phase
  | filling
  | draining
  | done
deriving DecidableEq, Repr

/-- The five pin registers (rule R28). -/
structure Pins where
  data : Bool
  sck : Bool
  lck : Bool
  clrN : Bool
  oeN : Bool
deriving DecidableEq, Repr

/-- The panel's registers in the observer of rule R165. -/
structure Panel where
  /-- `SR`, the shift register. -/
  sr : Frame40
  /-- `OUT`, the output register. -/
  out : Frame40
deriving DecidableEq, Repr

/-- The events of a trace (rule R14). -/
inductive Event
  /-- `Pin(line, level)` -/
  | pin (line : Line) (level : Bool)
  /-- `Dwell(ROW)` -/
  | dwellRow
  /-- `Poll(b)` -/
  | poll (b : Bool)
deriving DecidableEq, Repr

/-- How DWELL_SCAN ends (rule R129). -/
inductive Dwell
  | completed
  | aborted
deriving DecidableEq, Repr

/-- What the last value-returning operation returned. The model's own field (log entry 17). -/
inductive Result
  | none
  /-- POLL, GLYPH_BIT, WIN_GET_PIXEL return one bit (rules R123, R124, R105). -/
  | bit (b : Bool)
  /-- WIN_READ_ROW returns 32 bits (rule R104). -/
  | row (w : Word)
  /-- DWELL_SCAN returns `completed` or `aborted` (rule R129). -/
  | dwell (d : Dwell)
deriving DecidableEq, Repr

/-- Glyph memory (rule R41): address and byte pairs, addresses strictly rising, no byte equal to what an unlisted
address reads as. -/
abbrev Memory := List Host.Cell

/-- The machine. -/
structure State where
  /-- `W[0..7]` (rule R21) -/
  window : Window
  /-- `phase` (rule R22) -/
  phase : Phase
  /-- `startGlyph` (rule R23) -/
  startGlyph : Nat
  /-- `startOffset` (rule R24) -/
  startOffset : BitVec 3
  /-- `shiftCount` (rule R25) -/
  shiftCount : BitVec 6
  /-- `bufLen` (rule R26) -/
  bufLen : Nat
  /-- `overflow` (rule R27) -/
  overflow : Bool
  /-- `pin.DATA`, `pin.SCK`, `pin.LCK`, `pin.CLR_n`, `pin.OE_n` (rule R28) -/
  pins : Pins
  /-- the glyph memory (rule R41) -/
  glyphMem : Memory
  /-- the panel's registers (rules R33, R165) -/
  panel : Panel
  /-- the trace, oldest event first (rules R14, R35) -/
  trace : List Event
  /-- the open parameters (rule R6) -/
  params : Params
  /-- the answers the environment gives to the coming polls (rules R15, R31) -/
  pollAnswers : List Bool
  /-- how many polls were made: the argument of the free answers (log entry 5) -/
  pollCount : Nat
  /-- the host's `rst`: after how many more events it takes effect (rules R31, R183; log entries 20, 30, 31) -/
  rst : Option Nat
  /-- the operations asked for and not yet performed, one record each (rules R31, R74; log entries 2, 4) -/
  requests : List (List Byte)
  /-- what the last value-returning operation returned (log entry 17) -/
  result : Result
deriving DecidableEq, Repr

/-- Why the machine stops. -/
inductive Fault
  /-- Raised by GLYPH_BIT, FILL_WINDOW, TICK_FILL, TICK, RUN_PASS and GLYPH_ROW_BYTE for a glyph outside the glyph memory,
  whose addresses are 0 .. 8*MAX_GLYPHS - 1 (rule R40). Safe: the spec has no such byte, and no accepted START leads to
  a read of one (rule R44). -/
  | glyphAddress
  /-- Raised by RUN_PASS called in a state, reached by no run of the engine, that is FILLING with the start cursor at or
  beyond a non-empty buffer, where no scripted answer ends the pass: FILL_WINDOW's precondition fails in every tick and
  `startGlyph = bufLen` need never come true (rules R125, R130; log entry 23). Safe. -/
  | passNeverEnds
deriving DecidableEq, Repr

/-- Why an instruction is given no meaning. -/
inductive Refusal
  /-- Raised by an arm of `exec` for an instruction without a meaning yet. Safe. -/
  | notModelled (mnemonic : String)
  /-- Raised by a call outside the operand ranges of its rule (rules R102, R104, R124, R159, U5: "a model refuses").
  Safe. -/
  | operandRange
  /-- Raised by GLYPH_BIT with `i >= bufLen` (rule R124, U5). Safe. -/
  | glyphBeyondLength
  /-- Raised by GLYPH_ROW_BYTE for a byte below `8*bufLen` while a pass runs: the host's duty of rule R45 (U4: `refuse`).
  Safe. -/
  | hostWriteDuringPass
  /-- Raised by a step whose next request record is no operation (rule R72 a). Safe. -/
  | badRecord (why : Reject)
deriving DecidableEq, Repr

/-- The window of rule R34: every row 0. -/
def Window.zero : Window := ⟨0, 0, 0, 0, 0, 0, 0, 0⟩

/-- The lines after RESET (rules R28, R34). -/
def Pins.afterReset : Pins := { data := false, sck := false, lck := true, clrN := true, oeN := false }

/-- The machine right after RESET: the core's registers and lines as rule R34 tabulates them, the panel cleared (rule
R181, Example), nothing in glyph memory, no event recorded, no input waiting. The open parameters are free values
(log entry 6). -/
def State.reset : State where
  window := Window.zero
  phase := .done
  startGlyph := 0
  startOffset := 0
  shiftCount := 1
  bufLen := 0
  overflow := false
  pins := Pins.afterReset
  glyphMem := []
  panel := { sr := 0, out := 0 }
  trace := []
  params := { maxGlyphs := Config.freeCapacity + 1, framesPerTick := Config.freeFrames + 1 }
  pollAnswers := []
  pollCount := 0
  rst := none
  requests := []
  result := .none

end Sys2Proof.Machine
end

