-- ==== Sys2Proof/Machine/Flags.lean ====
section
/-! DEFINITION. The block's one status flag, `overflow` (rule R27), and the comparison that decides it: "set to 1 by a
START that is refused because `glyph_len > MAX_GLYPHS`", "cleared to 0 by an accepted START and by RESET". -/

namespace Sys2Proof.Machine

/-- START's bound (rules R121, R151): the buffer cannot hold this many glyphs. -/
def exceedsCapacity (p : Params) (glyphLen : Nat) : Bool := decide (p.maxGlyphs < glyphLen)

/-- `overflow <- v`. -/
def State.setOverflow (s : State) (v : Bool) : State := { s with overflow := v }

/-- The drain's end, tested on the amount just shifted (rule R128): `shiftCount >= W_DISPLAY`. -/
def drainEnds (shiftCount : BitVec 6) : Bool := decide (Config.displayWidth ≤ shiftCount.toNat)

end Sys2Proof.Machine
end

