-- ==== Sys2Proof/Machine/Operands.lean ====
section
/-! DEFINITION. How operands and the values on the wire are assembled (rule R69): rows and columns, window bits, glyph
addresses, chunks of a pattern, the row-select byte; and the wire formats of rules R61 to R68 as lists of events. -/

namespace Sys2Proof.Machine

/-- The rows of the window, in the order every loop over rows takes them. -/
def rows : List (Fin 8) := [0, 1, 2, 3, 4, 5, 6, 7]

/-- A row operand, 0 .. 7. -/
def rowOperand (row : Nat) : Option (Fin 8) := if h : row < 8 then some ⟨row, h⟩ else none

/-- A window column operand, 0 .. 31. -/
def colOperand (col : Nat) : Option (Fin 32) := if h : col < 32 then some ⟨col, h⟩ else none

/-- A glyph column operand, 0 .. 7. -/
def glyphColOperand (c : Nat) : Option (Fin 8) := if h : c < 8 then some ⟨c, h⟩ else none

/-- `W[row]` (rule R12). -/
def Window.get (w : Window) (row : Fin 8) : Word :=
  match row with
  | 0 => w.w0
  | 1 => w.w1
  | 2 => w.w2
  | 3 => w.w3
  | 4 => w.w4
  | 5 => w.w5
  | 6 => w.w6
  | 7 => w.w7

/-- `W[row] <- v` (rule R12). -/
def Window.set (w : Window) (row : Fin 8) (v : Word) : Window :=
  match row with
  | 0 => { w with w0 := v }
  | 1 => { w with w1 := v }
  | 2 => { w with w2 := v }
  | 3 => { w with w3 := v }
  | 4 => { w with w4 := v }
  | 5 => { w with w5 := v }
  | 6 => { w with w6 := v }
  | 7 => { w with w7 := v }

/-- Window column `c` is bit `31 - c` of its row (rule R21). -/
def pixelOf (v : Word) (col : Fin 32) : Bool := v.getLsbD (31 - col.val)

/-- `pixel(r, c) = W[r][31 - c]` (rule R21). -/
def Window.pixel (w : Window) (row : Fin 8) (col : Fin 32) : Bool := pixelOf (w.get row) col

/-- One bit of a row replaced, the other 31 kept: `(W and not (1 << (31-col))) or (value << (31-col))` (rule R102). -/
def withPixel (v : Word) (col : Fin 32) (value : Bool) : Word :=
  (v &&& ~~~((1#32) <<< (31 - col.val))) ||| ((BitVec.ofBool value).setWidth 32 <<< (31 - col.val))

/-- `(W << n) mod 2^32`, which is 0 for `n >= 32` (rules R11, R103). -/
def shiftedLeft (v : Word) (n : Nat) : Word := v <<< n

/-- `addr(i, r) = 8*i + r` (rule R41). -/
def glyphAddress (i : Nat) (row : Fin 8) : Nat := 8 * i + row.val

/-- The dot of column `c` in a glyph row byte is the bit of weight `2^c` (rule R42, decision D2). Everything the model
says about glyphs goes through this one function. -/
def glyphPixelOf (g : Byte) (c : Fin 8) : Bool := g.getLsbD c.val

/-- Chunk `k` of a pattern: `(p >> (8*k)) mod 256` (rule R69 a). -/
def chunkOf (p k : Nat) : Byte := BitVec.ofNat 8 (p >>> (8 * k))

/-- `ceil(bitWidth / 8)` (rule R84). -/
def chunkCount (bitWidth : Nat) : Nat := (bitWidth + 7) / 8

/-- The chunks of a pattern, most significant first: `k = n-1` down to 0 (rule R69 a). -/
def chunksOf (p : Nat) : (n : Nat) → List Byte
  | 0 => []
  | n + 1 => chunkOf p n :: chunksOf p n

/-- `rowsel(r) = 0x80 >> r` (rule R64). -/
def rowsel (row : Fin 8) : Byte := 0x80#8 >>> row.val

/-- BITCELL: `Pin(SCK, 0) ; Pin(DATA, b) ; Pin(SCK, 1)` (rule R61). -/
def bitcellEvents (b : Bool) : List Event := [.pin .sck false, .pin .data b, .pin .sck true]

/-- The bits of a chunk in the order they are sent: `v[7]` first, `v[0]` last (rule R62). -/
def chunkBits (v : Byte) : List Bool :=
  [v.getLsbD 7, v.getLsbD 6, v.getLsbD 5, v.getLsbD 4, v.getLsbD 3, v.getLsbD 2, v.getLsbD 1, v.getLsbD 0]

/-- CHUNK: eight BITCELLs (rule R62). -/
def chunkEvents (v : Byte) : List Event := (chunkBits v).flatMap bitcellEvents

/-- COLFIELD: four CHUNKs carrying `p[31:24]`, `p[23:16]`, `p[15:8]`, `p[7:0]` (rule R63). -/
def colfieldEvents (p : Word) : List Event :=
  chunkEvents (p.extractLsb' 24 8) ++ chunkEvents (p.extractLsb' 16 8) ++ chunkEvents (p.extractLsb' 8 8) ++
    chunkEvents (p.extractLsb' 0 8)

/-- LATCHPULSE: `Pin(LCK, 0) ; Pin(LCK, 1)` (rule R66). -/
def latchpulseEvents : List Event := [.pin .lck false, .pin .lck true]

/-- ROWFRAME: COLFIELD, the row-select CHUNK, LATCHPULSE, `Dwell(ROW)` (rule R65). -/
def rowframeEvents (p : Word) (sel : Byte) : List Event :=
  colfieldEvents p ++ chunkEvents sel ++ latchpulseEvents ++ [.dwellRow]

/-- FRAME: the ROWFRAMEs of rows 0 to 7 (rule R67). -/
def frameEvents (w : Window) : List Event := rows.flatMap fun r => rowframeEvents (w.get r) (rowsel r)

/-- CLEARSEQ: the six events of rule R68. -/
def clearseqEvents : List Event :=
  [.pin .oeN true, .pin .clrN false, .pin .clrN true, .pin .lck false, .pin .lck true, .pin .oeN false]

end Sys2Proof.Machine
end

