-- ==== Sys2Proof/Machine/Ops.lean ====
section
/-! DEFINITION. The named operations over registers, lines, memory and inputs that every meaning is written with: the
register writes of rule R12, `PinWrite` and the trace (rule R14) with the panel observer (rule R165), `MemRead` and
`MemWrite` (rule R13), `Poll` (rule R15), taking the exception `BufferOverflow` (rule R151) and the abort (rule R131).
There is no return from either (rule R158). -/

namespace Sys2Proof.Machine

/-! Register writes (rule R12). -/

/-- The window replaced. -/
def State.setWindow (s : State) (w : Window) : State := { s with window := w }

/-- `phase <- p`. -/
def State.setPhase (s : State) (p : Phase) : State := { s with phase := p }

/-- `startGlyph <- g ; startOffset <- o`. -/
def State.setCursor (s : State) (g : Nat) (o : BitVec 3) : State := { s with startGlyph := g, startOffset := o }

/-- `shiftCount <- n`. -/
def State.setShiftCount (s : State) (n : BitVec 6) : State := { s with shiftCount := n }

/-- `bufLen <- n`. -/
def State.setBufLen (s : State) (n : Nat) : State := { s with bufLen := n }

/-- The returned value of a value-returning operation (log entry 17). -/
def State.setResult (s : State) (r : Result) : State := { s with result := r }

/-- The glyph memory replaced. -/
def State.setGlyphMem (s : State) (m : Memory) : State := { s with glyphMem := m }

/-! Lines, the panel that watches them, and the trace. -/

/-- The level driven on a line. -/
def Pins.level (p : Pins) : Line → Bool
  | .data => p.data
  | .sck => p.sck
  | .lck => p.lck
  | .clrN => p.clrN
  | .oeN => p.oeN

/-- The pin registers after an event (rule R14: `pin.line` takes the value; the other events change no state). -/
def Pins.after (p : Pins) : Event → Pins
  | .pin .data v => { p with data := v }
  | .pin .sck v => { p with sck := v }
  | .pin .lck v => { p with lck := v }
  | .pin .clrN v => { p with clrN := v }
  | .pin .oeN v => { p with oeN := v }
  | .dwellRow => p
  | .poll _ => p

/-- What the panel does at an event, `p` the levels before it (rule R165): a rising edge of `SCK` with `CLR_n` high
shifts `DATA` in, `CLR_n` low clears the shift register, a rising edge of `LCK` copies it to the outputs. -/
def Panel.after (q : Panel) (p : Pins) : Event → Panel
  | .pin .sck true => if !p.sck && p.clrN then { q with sr := (q.sr <<< 1) ||| (BitVec.ofBool p.data).setWidth 40 } else q
  | .pin .clrN false => { q with sr := 0 }
  | .pin .lck true => if !p.lck then { q with out := q.sr } else q
  | _ => q

/-- One event: the lines and the panel follow it and the trace records it (rule R14). -/
def State.record (s : State) (e : Event) : State :=
  { s with pins := s.pins.after e, panel := s.panel.after s.pins e, trace := s.trace ++ [e] }

/-- A sequence of events, in order. -/
def State.emit (s : State) : List Event → State
  | [] => s
  | e :: es => (s.record e).emit es

/-- `PinWrite(line, level)` (rule R14, R81), the only primitive that touches a line. -/
def pinWrite (line : Line) (level : Bool) (s : State) : State := s.record (.pin line level)

/-- `RowDwell()` (rule R14): the event `Dwell(ROW)`; no state changes. -/
def rowDwell (s : State) : State := s.record .dwellRow

/-- `lit(r, c)` of rule R165: what the panel shows. -/
def State.lit (s : State) (row : Fin 8) (col : Fin 32) : Bool :=
  !s.pins.oeN && s.panel.out.getLsbD (7 - row.val) && s.panel.out.getLsbD (8 + (31 - col.val))

/-! The polled input. -/

/-- The answer the environment gives to the next poll: the scripted one, or a free value (rule R15; log entry 5). -/
def State.nextAnswer (s : State) : Bool :=
  match s.pollAnswers with
  | b :: _ => b
  | [] => Config.freePoll s.pollCount

/-- `Poll()` (rule R15): the sampled bit, with its event. -/
def State.takePoll (s : State) : State :=
  let t := s.record (.poll s.nextAnswer)
  { t with pollAnswers := s.pollAnswers.tail, pollCount := s.pollCount + 1 }

/-! Glyph memory. -/

/-- `MemRead(addr, 1)` (rule R13): the byte listed at an address, or what an unlisted address reads as. -/
def Memory.read : Memory → Nat → Byte
  | [], _ => Config.unlistedByte
  | (a, v) :: rest, addr => if a = addr then v else Memory.read rest addr

/-- The cells with an address removed. -/
def Memory.erase : Memory → Nat → Memory
  | [], _ => []
  | (a, v) :: rest, addr => if a = addr then rest else (a, v) :: Memory.erase rest addr

/-- The cells with a byte put at an address, in address order. -/
def Memory.insert : Memory → Nat → Byte → Memory
  | [], addr, b => [(addr, b)]
  | (a, v) :: rest, addr, b =>
    if addr < a then (addr, b) :: (a, v) :: rest
    else if a = addr then (addr, b) :: rest
    else (a, v) :: Memory.insert rest addr b

/-- `MemWrite(addr, 1, b)` (rule R13), which only the host performs: the canonical form is kept. -/
def Memory.write (m : Memory) (addr : Nat) (b : Byte) : Memory :=
  if b = Config.unlistedByte then m.erase addr else m.insert addr b

/-- Every address of a memory is above a bound and rising, and every byte differs from the unlisted one. -/
def Memory.wfAbove : Memory → (low : Nat) → Bool
  | [], _ => true
  | (a, v) :: rest, low => decide (low ≤ a) && decide (v ≠ Config.unlistedByte) && Memory.wfAbove rest (a + 1)

/-- The canonical form of glyph memory. -/
def Memory.wf (m : Memory) : Bool := m.wfAbove 0

/-- `GlyphRead(i, r) = MemRead(8*i + r, 1)` (rules R13, R41). -/
def State.glyphRead (s : State) (i : Nat) (row : Fin 8) : Byte := s.glyphMem.read (glyphAddress i row)

/-- `glyphPixel(i, r, c)` (rule R42). -/
def State.glyphPixel (s : State) (i : Nat) (row c : Fin 8) : Bool := glyphPixelOf (s.glyphRead i row) c

/-- The glyphs a pass may read lie inside the glyph memory (rules R26, R40): `bufLen <= MAX_GLYPHS`. -/
def State.glyphsExist (s : State) : Bool := decide (s.bufLen ≤ s.params.maxGlyphs)

/-! Exceptions: the only two, and there is no return from either (rule R158). -/

/-- `raise BufferOverflow` (rules R15, R151): `overflow <- 1` and nothing else. -/
def raiseBufferOverflow (s : State) : State := s.setOverflow true

/-- `abort` (rules R15, R131, R156): `Pin(OE_n, 1)`, then `phase <- DONE`. -/
def abortPass (s : State) : State := (pinWrite .oeN true s).setPhase .done

end Sys2Proof.Machine
end

