-- ==== Sys2Proof/Machine/Bus.lean ====
section
/-! DEFINITION. The bus driver (spec 40_bus_driver.md): PIN_WRITE, EMIT_BIT, SHIFT_OUT8, EMIT_COLUMNS, EMIT_ROWSCAN,
LATCH, SET_OE, CLEAR_REGS, each written from its rule's pseudocode over `PinWrite`, and its meaning as an instruction.
None of them polls, none can be abandoned, none raises an exception (rules R80, R90). -/

namespace Sys2Proof.Machine

/-- EMIT_BIT (rule R82). -/
def emitBit (b : Bool) (s : State) : State :=
  pinWrite .sck true (pinWrite .data b (pinWrite .sck false s))

/-- The EMIT_BITs of a list of bits, first bit first. -/
def emitBits : List Bool → State → State
  | [], s => s
  | b :: bs, s => emitBits bs (emitBit b s)

/-- SHIFT_OUT8 (rule R83): EMIT_BIT of `v[i]` for `i = 7 down to 0`. -/
def shiftOut8 (v : Byte) (s : State) : State := emitBits (chunkBits v) s

/-- The SHIFT_OUT8s of a list of chunks, first chunk first. -/
def shiftOutAll : List Byte → State → State
  | [], s => s
  | v :: vs, s => shiftOutAll vs (shiftOut8 v s)

/-- EMIT_COLUMNS (rule R84): SHIFT_OUT8 of the chunks of the pattern, most significant first (rule R69 a). -/
def emitColumns (p bitWidth : Nat) (s : State) : State := shiftOutAll (chunksOf p (chunkCount bitWidth)) s

/-- EMIT_ROWSCAN (rule R85). -/
def emitRowscan (v : Byte) (s : State) : State := shiftOut8 v s

/-- LATCH (rule R86). -/
def latch (s : State) : State := pinWrite .lck true (pinWrite .lck false s)

/-- SET_OE (rule R87). -/
def setOe (level : Bool) (s : State) : State := pinWrite .oeN level s

/-- CLEAR_REGS (rule R88): blank, clear, release, latch, enable. -/
def clearRegs (s : State) : State :=
  setOe false (latch (pinWrite .clrN true (pinWrite .clrN false (setOe true s))))

/-- PIN_WRITE line, level (rule R81). -/
def execPinWrite (line : Line) (level : Bool) (s : State) : Host.Outcome State Fault Refusal :=
  .next (pinWrite line level s)

/-- EMIT_BIT b (rule R82). -/
def execEmitBit (b : Bool) (s : State) : Host.Outcome State Fault Refusal := .next (emitBit b s)

/-- SHIFT_OUT8 v (rule R83). -/
def execShiftOut8 (v : Byte) (s : State) : Host.Outcome State Fault Refusal := .next (shiftOut8 v s)

/-- EMIT_COLUMNS p, bitWidth (rules R84, R69, R90): every pattern and every width >= 1 runs as the rules say. DESIGN
CHOICE, unsafe for other widths: this hardware passes the width 32 only, and U6 has a model of it refuse the others
(log entry 10). Width 0 is outside the operand range. -/
def execEmitColumns (p bitWidth : Nat) (s : State) : Host.Outcome State Fault Refusal :=
  if bitWidth = 0 then .refused .operandRange else .next (emitColumns p bitWidth s)

/-- EMIT_ROWSCAN v (rule R85); `v` need not be one-hot (rule R72 c). -/
def execEmitRowscan (v : Byte) (s : State) : Host.Outcome State Fault Refusal := .next (emitRowscan v s)

/-- LATCH (rule R86). -/
def execLatch (s : State) : Host.Outcome State Fault Refusal := .next (latch s)

/-- SET_OE level (rule R87). -/
def execSetOe (level : Bool) (s : State) : Host.Outcome State Fault Refusal := .next (setOe level s)

/-- CLEAR_REGS (rule R88). -/
def execClearRegs (s : State) : Host.Outcome State Fault Refusal := .next (clearRegs s)

end Sys2Proof.Machine
end

