-- ==== Sys2Proof/Machine/WindowOps.lean ====
section
/-! DEFINITION. The window buffer (spec 41_window_buffer.md): WIN_CLEAR, WIN_SET_PIXEL, WIN_SHIFT_LEFT, WIN_READ_ROW and
the derived read WIN_GET_PIXEL. No line is touched, nothing is polled, nothing is raised (rule R100). -/

namespace Sys2Proof.Machine

/-- A value for every row. -/
def Window.ofRows (f : Fin 8 → Word) : Window := ⟨f 0, f 1, f 2, f 3, f 4, f 5, f 6, f 7⟩

/-- WIN_CLEAR (rule R101): `W[r] <- 0` for every row. -/
def winClear (s : State) : State := s.setWindow (Window.ofRows fun _ => 0)

/-- WIN_SET_PIXEL (rule R102). -/
def winSetPixel (row : Fin 8) (col : Fin 32) (value : Bool) (s : State) : State :=
  s.setWindow (s.window.set row (withPixel (s.window.get row) col value))

/-- WIN_SHIFT_LEFT (rule R103): every row by the same amount. -/
def winShiftLeft (n : Nat) (s : State) : State :=
  s.setWindow (Window.ofRows fun r => shiftedLeft (s.window.get r) n)

/-- WIN_READ_ROW (rule R104). -/
def winReadRow (row : Fin 8) (s : State) : Word := s.window.get row

/-- WIN_GET_PIXEL (rule R105): bit `31 - col` of WIN_READ_ROW. -/
def winGetPixel (row : Fin 8) (col : Fin 32) (s : State) : Bool := pixelOf (winReadRow row s) col

/-- WIN_CLEAR (rule R101). -/
def execWinClear (s : State) : Host.Outcome State Fault Refusal := .next (winClear s)

/-- WIN_SET_PIXEL row, col, value (rule R102); outside the ranges the call is refused (rule R102 c, U5). -/
def execWinSetPixel (row col : Nat) (value : Bool) (s : State) : Host.Outcome State Fault Refusal :=
  match rowOperand row, colOperand col with
  | some r, some c => .next (winSetPixel r c value s)
  | _, _ => .refused .operandRange

/-- WIN_SHIFT_LEFT n, any natural number (rule R103). -/
def execWinShiftLeft (n : Nat) (s : State) : Host.Outcome State Fault Refusal := .next (winShiftLeft n s)

/-- WIN_READ_ROW row (rule R104): the row is the result (log entry 17). -/
def execWinReadRow (row : Nat) (s : State) : Host.Outcome State Fault Refusal :=
  match rowOperand row with
  | some r => .next (s.setResult (.row (winReadRow r s)))
  | none => .refused .operandRange

/-- WIN_GET_PIXEL row, col (rule R105): the bit is the result (log entry 17). -/
def execWinGetPixel (row col : Nat) (s : State) : Host.Outcome State Fault Refusal :=
  match rowOperand row, colOperand col with
  | some r, some c => .next (s.setResult (.bit (winGetPixel r c s)))
  | _, _ => .refused .operandRange

end Sys2Proof.Machine
end

