-- ==== Sys2Proof/Machine/Scanner.lean ====
section
/-! DEFINITION. The row and column scanner (spec 42_scanner.md): SCAN_ROW and SCAN_FRAME. It has no state of its own, never
polls and is never abandoned part-way (rule R110); bits are driven as they stand, uninverted (rule R114). -/

namespace Sys2Proof.Machine

/-- SCAN_ROW (rule R111): columns, row select, latch, dwell. -/
def scanRow (row : Fin 8) (s : State) : State :=
  rowDwell (latch (emitRowscan (rowsel row) (emitColumns (winReadRow row s).toNat Config.displayWidth s)))

/-- The SCAN_ROWs of a list of rows, in order. -/
def scanRows : List (Fin 8) → State → State
  | [], s => s
  | r :: rs, s => scanRows rs (scanRow r s)

/-- SCAN_FRAME (rule R112): rows 0 to 7. -/
def scanFrame (s : State) : State := scanRows rows s

/-- SCAN_ROW row (rule R111). -/
def execScanRow (row : Nat) (s : State) : Host.Outcome State Fault Refusal :=
  match rowOperand row with
  | some r => .next (scanRow r s)
  | none => .refused .operandRange

/-- SCAN_FRAME (rule R112). -/
def execScanFrame (s : State) : Host.Outcome State Fault Refusal := .next (scanFrame s)

end Sys2Proof.Machine
end

