-- ==== Sys2Proof/Machine/Engine.lean ====
section
/-! DEFINITION. The scroll engine (spec 43_scroll_engine.md): GLYPH_BIT, START, POLL, FILL_WINDOW, DWELL_SCAN,
ADVANCE_CURSOR, ABORT, TICK_FILL, TICK_DRAIN, TICK, RUN_PASS. A function below is the rule's pseudocode; `exec…` is the
instruction. Called outside a precondition that its rule states, an operation other than START runs as its pseudocode
stands (log entry 8). -/

namespace Sys2Proof.Machine

/-- GLYPH_BIT (rule R124): bit `c` of the byte at `8*i + r`. -/
def glyphBit (i : Nat) (row c : Fin 8) (s : State) : Bool := s.glyphPixel i row c

/-- What an accepted START does (rule R121). -/
def startPass (glyphLen : Nat) (s : State) : State :=
  (clearRegs
    (winClear
      ((((s.setOverflow false).setBufLen glyphLen).setCursor 0 0).setShiftCount 1))).setPhase .filling

/-- START (rule R121): ignored while a pass runs, `BufferOverflow` above the capacity, else a new pass. `glyph_len` is any
natural number, also one that the width rule R31 gives the input cannot carry. DESIGN CHOICE (log entry 29). -/
def start (glyphLen : Nat) (s : State) : State :=
  if s.phase ≠ .done then s
  else if exceedsCapacity s.params glyphLen then raiseBufferOverflow s
  else startPass glyphLen s

/-- One column of FILL_WINDOW (rule R125): every row of window column `col` from column `bo` of glyph `gi`. -/
def fillColumn (gi : Nat) (bo : Fin 8) (col : Fin 32) : List (Fin 8) → State → State
  | [], s => s
  | r :: rs, s => fillColumn gi bo col rs (winSetPixel r col (glyphBit gi r bo s) s)

/-- The columns of the window, in the order FILL_WINDOW takes them. -/
def columns : List (Fin 32) :=
  [0, 1, 2, 3, 4, 5, 6, 7] ++ [8, 9, 10, 11, 12, 13, 14, 15] ++ [16, 17, 18, 19, 20, 21, 22, 23] ++
    [24, 25, 26, 27, 28, 29, 30, 31]

/-- The column loop of FILL_WINDOW (rule R125) with its working cursor `(gi, bo)`: it stops before a column once the
glyphs have run out. -/
def fillColumns : List (Fin 32) → (gi : Nat) → (bo : Fin 8) → State → State
  | [], _, _, s => s
  | col :: cols, gi, bo, s =>
    if s.bufLen ≤ gi then s
    else
      let s := fillColumn gi bo col rows s
      if bo = 7 then fillColumns cols (gi + 1) 0 s else fillColumns cols gi (bo + 1) s

/-- FILL_WINDOW (rule R125): the start cursor is copied, not changed. -/
def fillWindow (s : State) : State := fillColumns columns s.startGlyph s.startOffset.toFin (winClear s)

/-- The frames of DWELL_SCAN still to scan (rule R129), a poll before each. -/
def dwellFrames : Nat → State → Dwell × State
  | 0, s => (.completed, s)
  | f + 1, s =>
    if s.nextAnswer then (.aborted, abortPass s.takePoll)
    else dwellFrames f (scanFrame s.takePoll)

/-- DWELL_SCAN (rule R129): `FRAMES_PER_TICK` frames. -/
def dwellScan (s : State) : Dwell × State := dwellFrames s.params.framesPerTick s

/-- `ceil(log2(MAX_GLYPHS+1))`, the width of `startGlyph` (rule R20). -/
def glyphIndexBits (p : Params) : Nat := Nat.log2 p.maxGlyphs + 1

/-- `startGlyph + 1` in its register. In a pass the sum always fits (rule R137); a sum that does not fit is a value the
spec does not state, a free value within the register's width (log entry 9). -/
def nextGlyph (s : State) : Nat :=
  if s.startGlyph + 1 < 2 ^ glyphIndexBits s.params then s.startGlyph + 1
  else Config.freeGlyphIndex s.startGlyph % 2 ^ glyphIndexBits s.params

/-- The cursor part of ADVANCE_CURSOR (rule R130). -/
def advanceStart (s : State) : State :=
  let o := s.startOffset + 1
  s.setCursor (if o = 0 then nextGlyph s else s.startGlyph) o

/-- ADVANCE_CURSOR (rule R130): the phase follows the advanced start cursor (conflict C1). -/
def advanceCursor (s : State) : State :=
  let t := advanceStart s
  if t.startGlyph = t.bufLen then t.setPhase .draining else t

/-- TICK_FILL (rules R126, R136). -/
def tickFill (s : State) : State :=
  if s.nextAnswer then abortPass s.takePoll
  else
    let s := s.takePoll
    if s.bufLen = 0 then (winClear s).setPhase .done
    else
      match dwellScan (fillWindow s) with
      | (.aborted, t) => t
      | (.completed, t) => advanceCursor t

/-- The end of a DRAINING tick (rules R127, R128): the amount just shifted decides, before the increment. -/
def drainStep (s : State) : State :=
  if drainEnds s.shiftCount then s.setPhase .done else s.setShiftCount (s.shiftCount + 1)

/-- TICK_DRAIN (rule R127): the shift is in place; no glyph is read and the cursor is not touched. -/
def tickDrain (s : State) : State :=
  if s.nextAnswer then abortPass s.takePoll
  else
    let s := s.takePoll
    match dwellScan (winShiftLeft s.shiftCount.toNat s) with
    | (.aborted, t) => t
    | (.completed, t) => drainStep t

/-- TICK (rule R122): nothing in DONE. -/
def tick (s : State) : State :=
  match s.phase with
  | .filling => tickFill s
  | .draining => tickDrain s
  | .done => s

/-- The loop of RUN_PASS (rule R132), for at most so many ticks. -/
def tickUntilDone : (fuel : Nat) → State → State
  | 0, s => s
  | fuel + 1, s => if s.phase = .done then s else tickUntilDone fuel (tick s)

/-- Ticks enough for any pass over `bufLen` glyphs (rule R135) and for every scripted answer to be taken: a pass that is
not done after so many has its start cursor beyond the buffer (log entry 23). -/
def passFuel (s : State) : Nat := 8 * s.bufLen + 33 + s.pollAnswers.length

/-- GLYPH_BIT i, r, c (rule R124): refused outside its operand ranges (U5); the bit is the result (log entry 17). -/
def execGlyphBit (i r c : Nat) (s : State) : Host.Outcome State Fault Refusal :=
  match rowOperand r, glyphColOperand c with
  | some row, some col =>
    if s.bufLen ≤ i then .refused .glyphBeyondLength
    else if s.params.maxGlyphs ≤ i then .fault .glyphAddress
    else .next (s.setResult (.bit (glyphBit i row col s)))
  | _, _ => .refused .operandRange

/-- START glyph_len (rule R121). -/
def execStart (glyphLen : Nat) (s : State) : Host.Outcome State Fault Refusal := .next (start glyphLen s)

/-- TICK (rule R122). -/
def execTick (s : State) : Host.Outcome State Fault Refusal :=
  if s.phase = .filling ∧ s.glyphsExist = false then .fault .glyphAddress else .next (tick s)

/-- POLL (rule R123): the sampled bit is the result (log entry 17). -/
def execPoll (s : State) : Host.Outcome State Fault Refusal := .next (s.takePoll.setResult (.bit s.nextAnswer))

/-- FILL_WINDOW (rule R125). -/
def execFillWindow (s : State) : Host.Outcome State Fault Refusal :=
  if s.glyphsExist then .next (fillWindow s) else .fault .glyphAddress

/-- TICK_FILL (rule R126). -/
def execTickFill (s : State) : Host.Outcome State Fault Refusal :=
  if s.glyphsExist then .next (tickFill s) else .fault .glyphAddress

/-- TICK_DRAIN (rule R127). -/
def execTickDrain (s : State) : Host.Outcome State Fault Refusal := .next (tickDrain s)

/-- DWELL_SCAN (rule R129): how it ended is the result (log entry 17). -/
def execDwellScan (s : State) : Host.Outcome State Fault Refusal :=
  .next ((dwellScan s).2.setResult (.dwell (dwellScan s).1))

/-- ADVANCE_CURSOR (rule R130). -/
def execAdvanceCursor (s : State) : Host.Outcome State Fault Refusal := .next (advanceCursor s)

/-- ABORT (rule R131). -/
def execAbort (s : State) : Host.Outcome State Fault Refusal := .next (abortPass s)

/-- RUN_PASS glyph_len (rule R132): START, then TICK until DONE. -/
def execRunPass (glyphLen : Nat) (s : State) : Host.Outcome State Fault Refusal :=
  let t := start glyphLen s
  if t.phase = .filling ∧ t.glyphsExist = false then .fault .glyphAddress
  else
    let u := tickUntilDone (passFuel t) t
    if u.phase = .done then .next u else .fault .passNeverEnds

end Sys2Proof.Machine
end

