-- ==== Sys2Proof/Machine/Formats.lean ====
section
/-! DEFINITION. The rows of the table that are no operation of rule R71. A wire format is "a fixed sequence of `Pin`
events" (rule R60): its meaning puts that sequence on the lines (log entry 15). A code or word that state holds stands
for the pseudocode primitive that writes it: `phase <- X` and `W[r] <- v` (rule R12; log entries 11, 13), the host's
`MemWrite` of a glyph byte (rules R13, R42, R74; log entry 12), `raise BufferOverflow` (rule R15; log entry 14). -/

namespace Sys2Proof.Machine

/-- ROWSEL on the wire: the row-select byte of a row, sent as one CHUNK (rule R64). -/
def rowselOnWire (row : Fin 8) (s : State) : State := s.emit (chunkEvents (rowsel row))

/-- ROWSEL_0: 0x80 (rule R64). -/
def execRowsel0 (s : State) : Host.Outcome State Fault Refusal := .next (rowselOnWire 0 s)

/-- ROWSEL_1: 0x40 (rule R64). -/
def execRowsel1 (s : State) : Host.Outcome State Fault Refusal := .next (rowselOnWire 1 s)

/-- ROWSEL_2: 0x20 (rule R64). -/
def execRowsel2 (s : State) : Host.Outcome State Fault Refusal := .next (rowselOnWire 2 s)

/-- ROWSEL_3: 0x10 (rule R64). -/
def execRowsel3 (s : State) : Host.Outcome State Fault Refusal := .next (rowselOnWire 3 s)

/-- ROWSEL_4: 0x08 (rule R64). -/
def execRowsel4 (s : State) : Host.Outcome State Fault Refusal := .next (rowselOnWire 4 s)

/-- ROWSEL_5: 0x04 (rule R64). -/
def execRowsel5 (s : State) : Host.Outcome State Fault Refusal := .next (rowselOnWire 5 s)

/-- ROWSEL_6: 0x02 (rule R64). -/
def execRowsel6 (s : State) : Host.Outcome State Fault Refusal := .next (rowselOnWire 6 s)

/-- ROWSEL_7: 0x01 (rule R64). -/
def execRowsel7 (s : State) : Host.Outcome State Fault Refusal := .next (rowselOnWire 7 s)

/-- CHUNK v (rule R62). -/
def execChunk (v : Byte) (s : State) : Host.Outcome State Fault Refusal := .next (s.emit (chunkEvents v))

/-- COLFIELD c (rule R63). -/
def execColfield (c : Word) (s : State) : Host.Outcome State Fault Refusal := .next (s.emit (colfieldEvents c))

/-- ROWFRAME c, r (rule R65): the byte `r` goes out as it stands, one-hot or not (U8; log entry 16). -/
def execRowframe (c : Word) (r : Byte) (s : State) : Host.Outcome State Fault Refusal :=
  .next (s.emit (rowframeEvents c r))

/-- BITCELL b (rule R61). -/
def execBitcell (b : Bool) (s : State) : Host.Outcome State Fault Refusal := .next (s.emit (bitcellEvents b))

/-- LATCHPULSE (rule R66). -/
def execLatchpulse (s : State) : Host.Outcome State Fault Refusal := .next (s.emit latchpulseEvents)

/-- FRAME (rule R67): the row frames of the window as it stands. -/
def execFrame (s : State) : Host.Outcome State Fault Refusal := .next (s.emit (frameEvents s.window))

/-- CLEARSEQ (rule R68). -/
def execClearseq (s : State) : Host.Outcome State Fault Refusal := .next (s.emit clearseqEvents)

/-- PHASE_FILLING: `phase <- FILLING` (rules R12, R70). -/
def execPhaseFilling (s : State) : Host.Outcome State Fault Refusal := .next (s.setPhase .filling)

/-- PHASE_DRAINING: `phase <- DRAINING` (rules R12, R70). -/
def execPhaseDraining (s : State) : Host.Outcome State Fault Refusal := .next (s.setPhase .draining)

/-- PHASE_DONE: `phase <- DONE` (rules R12, R70). -/
def execPhaseDone (s : State) : Host.Outcome State Fault Refusal := .next (s.setPhase .done)

/-- GLYPH_ROW_BYTE i, r, v: the host's `MemWrite(8*i + r, 1, v)` (rules R13, R41, R42). While a pass runs the host "must
not write any byte at an address below `8*bufLen`" (rule R45, U4: refused); a glyph at or beyond `MAX_GLYPHS` has no
address (rule R40). -/
def execGlyphRowByte (i r : Nat) (v : Byte) (s : State) : Host.Outcome State Fault Refusal :=
  match rowOperand r with
  | some row =>
    if s.params.maxGlyphs ≤ i then .fault .glyphAddress
    else if s.phase ≠ .done ∧ i < s.bufLen then .refused .hostWriteDuringPass
    else .next (s.setGlyphMem (s.glyphMem.write (glyphAddress i row) v))
  | none => .refused .operandRange

/-- WINDOW_ROW_WORD row, c: `W[row] <- c` (rules R12, R21). -/
def execWindowRowWord (row : Nat) (c : Word) (s : State) : Host.Outcome State Fault Refusal :=
  match rowOperand row with
  | some r => .next (s.setWindow (s.window.set r c))
  | none => .refused .operandRange

/-- CAUSE_BUFFER_OVERFLOW: `raise BufferOverflow` (rules R15, R151). -/
def execCauseBufferOverflow (s : State) : Host.Outcome State Fault Refusal := .next (raiseBufferOverflow s)

end Sys2Proof.Machine
end

