-- ==== Sys2Proof/Machine/Reset.lean ====
section
/-! DEFINITION. RESET (rule R181), and the host's `rst` input taking effect in the middle of an operation (rule R183). -/

namespace Sys2Proof.Machine

/-- RESET (rule R181): every register, then the lines brought to their idle levels while blanked, then CLEAR_REGS. The
glyph memory, the inputs and the open parameters are not the core's state and stay. -/
def resetOp (s : State) : State :=
  let s := (((((s.setPhase .done).setOverflow false).setBufLen 0).setCursor 0 0).setShiftCount 1).setResult .none
  clearRegs
    (pinWrite .clrN true (pinWrite .lck true (pinWrite .sck false (pinWrite .data false
      (pinWrite .oeN true (winClear s))))))

/-- The events of RESET in order (rule R181, vector T-X2): five that blank and bring the lines to their idle levels,
then CLEARSEQ. -/
def resetEvents : List Event :=
  [.pin .oeN true, .pin .data false, .pin .sck false, .pin .lck true, .pin .clrN true] ++ clearseqEvents

/-- RESET (rule R181). -/
def execReset (s : State) : Host.Outcome State Fault Refusal := .next (resetOp s)

/-- `rst` taking effect at an event boundary: RESET runs and the request is spent (rule R183). That RESET runs to its end: a
further `rst` at one of its own event boundaries does not occur in the model. DESIGN CHOICE (log entry 30). -/
def takeRst (s : State) : State := { resetOp s with rst := none }

/-- One event of an operation that was cut short: a poll has consumed its answer. -/
def replayEvent (s : State) : Event → State
  | .poll b => { s.record (.poll b) with pollAnswers := s.pollAnswers.tail, pollCount := s.pollCount + 1 }
  | e => s.record e

/-- The events of a cut-short operation, in order. -/
def replay : List Event → State → State
  | [], s => s
  | e :: es, s => replay es (replayEvent s e)

/-- An operation that led from `s` to `t` with `rst` due after `n` of its events (rule R183): with fewer events than
that the rest is still to wait for; else "the operation in progress is dropped where it stands", its trace is a
prefix of what it would have been, and RESET runs. -/
def cutByRst (n : Nat) (s t : State) : State :=
  let events := t.trace.drop s.trace.length
  if events.length ≤ n then { t with rst := some (n - events.length) }
  else takeRst (replay (events.take n) { s with requests := t.requests })

end Sys2Proof.Machine
end

