-- ==== Sys2Proof/Machine/Dispatch.lean ====
section
/-! DEFINITION. What each instruction does: one arm per constructor, one direct call of its meaning. -/

namespace Sys2Proof.Machine

def exec (i : Instr) (s : State) : Host.Outcome State Fault Refusal :=
  match i with
  | .pinWrite line level => Sys2Proof.Machine.execPinWrite line level s
  | .emitBit b => Sys2Proof.Machine.execEmitBit b s
  | .shiftOut8 v => Sys2Proof.Machine.execShiftOut8 v s
  | .emitColumns p bitWidth => Sys2Proof.Machine.execEmitColumns p bitWidth s
  | .emitRowscan v => Sys2Proof.Machine.execEmitRowscan v s
  | .latch => Sys2Proof.Machine.execLatch s
  | .setOe level => Sys2Proof.Machine.execSetOe level s
  | .clearRegs => Sys2Proof.Machine.execClearRegs s
  | .winClear => Sys2Proof.Machine.execWinClear s
  | .winSetPixel row col value => Sys2Proof.Machine.execWinSetPixel row col value s
  | .winShiftLeft n => Sys2Proof.Machine.execWinShiftLeft n s
  | .winReadRow row => Sys2Proof.Machine.execWinReadRow row s
  | .scanRow row => Sys2Proof.Machine.execScanRow row s
  | .scanFrame => Sys2Proof.Machine.execScanFrame s
  | .glyphBit g r c => Sys2Proof.Machine.execGlyphBit g r c s
  | .reset => Sys2Proof.Machine.execReset s
  | .start glyphLen => Sys2Proof.Machine.execStart glyphLen s
  | .tick => Sys2Proof.Machine.execTick s
  | .poll => Sys2Proof.Machine.execPoll s
  | .fillWindow => Sys2Proof.Machine.execFillWindow s
  | .tickFill => Sys2Proof.Machine.execTickFill s
  | .tickDrain => Sys2Proof.Machine.execTickDrain s
  | .dwellScan => Sys2Proof.Machine.execDwellScan s
  | .advanceCursor => Sys2Proof.Machine.execAdvanceCursor s
  | .abort => Sys2Proof.Machine.execAbort s
  | .runPass glyphLen => Sys2Proof.Machine.execRunPass glyphLen s
  | .winGetPixel row col => Sys2Proof.Machine.execWinGetPixel row col s
  | .rowsel0 => Sys2Proof.Machine.execRowsel0 s
  | .rowsel1 => Sys2Proof.Machine.execRowsel1 s
  | .rowsel2 => Sys2Proof.Machine.execRowsel2 s
  | .rowsel3 => Sys2Proof.Machine.execRowsel3 s
  | .rowsel4 => Sys2Proof.Machine.execRowsel4 s
  | .rowsel5 => Sys2Proof.Machine.execRowsel5 s
  | .rowsel6 => Sys2Proof.Machine.execRowsel6 s
  | .rowsel7 => Sys2Proof.Machine.execRowsel7 s
  | .chunk v => Sys2Proof.Machine.execChunk v s
  | .colfield c => Sys2Proof.Machine.execColfield c s
  | .rowframe c r => Sys2Proof.Machine.execRowframe c r s
  | .bitcell b => Sys2Proof.Machine.execBitcell b s
  | .latchpulse => Sys2Proof.Machine.execLatchpulse s
  | .frame => Sys2Proof.Machine.execFrame s
  | .clearseq => Sys2Proof.Machine.execClearseq s
  | .phaseFilling => Sys2Proof.Machine.execPhaseFilling s
  | .phaseDraining => Sys2Proof.Machine.execPhaseDraining s
  | .phaseDone => Sys2Proof.Machine.execPhaseDone s
  | .glyphRowByte g r v => Sys2Proof.Machine.execGlyphRowByte g r v s
  | .windowRowWord row c => Sys2Proof.Machine.execWindowRowWord row c s
  | .causeBufferOverflow => Sys2Proof.Machine.execCauseBufferOverflow s

end Sys2Proof.Machine
end

