-- ==== Sys2Proof/Machine/Fetch.lean ====
section
/-! DEFINITION. What the machine does next (log entries 1, 4, 27). There is no instruction memory (rule R40): a host action
or a harness call that waits in `requests` is performed, one a step; with none waiting the engine sequences its own
ticks while a pass runs (rule R120) and does nothing in DONE (rules R167, D28). -/

namespace Sys2Proof.Machine

/-- What the next step performs. -/
inductive Fetched
  /-- The first waiting request, decoded, in the state without it. -/
  | request (i : Instr) (s : State)
  /-- No request waits and a pass runs: the engine's own TICK (rule R120). -/
  | engineTick
  /-- No request waits in DONE: the core is idle (rule R167). -/
  | idle
  /-- The first waiting record is no operation (rule R72 a). -/
  | reject (why : Reject)
deriving DecidableEq, Repr

/-- The first waiting request, or what the engine does by itself. -/
def fetch (s : State) : Fetched :=
  match s.requests with
  | r :: rest =>
    match decode r with
    | .ok i => .request i { s with requests := rest }
    | .error why => .reject why
  | [] => if s.phase = .done then .idle else .engineTick

/-- A record put in front of the waiting ones, and no `rst` due, so that the next step performs it. -/
def requestNext (record : List Byte) (s : State) : State :=
  { s with requests := record :: s.requests, rst := none }

end Sys2Proof.Machine
end

