-- ==== Sys2Proof/Machine/Step.lean ====
section
/-! DEFINITION. One step of the machine: one request or one tick (rule R7), and the host's `rst` at any event boundary of
it (rule R183). -/

namespace Sys2Proof.Machine

/-- The step with no `rst` due in it. -/
def stepOperation (s : State) : Host.Outcome State Fault Refusal :=
  match fetch s with
  | .request i t => exec i t
  | .engineTick => exec .tick s
  | .idle => .next s
  | .reject why => .refused (.badRecord why)

/-- One step. `rst` "wins over everything and takes effect at the next event boundary" (rule R155 a): due now, it is
taken before anything else; due after `n + 1` events, it cuts the operation there. Where the operation ends in a fault or
a refusal, the step answers that stop and such an `rst` is not taken. DESIGN CHOICE (log entry 31; rule R183 lets a model
restrict where `rst` acts). -/
def step (s : State) : Host.Outcome State Fault Refusal :=
  match s.rst with
  | none => stepOperation s
  | some 0 => .next (takeRst s)
  | some (n + 1) =>
    match stepOperation { s with rst := none } with
    | .next t => .next (cutByRst (n + 1) s t)
    | .fault r => .fault r
    | .refused r => .refused r

/-- The word of an opcode-table row, stored where the next step fetches its operation: in front of the waiting
requests (log entries 3, 4). -/
def State.withFetchWord (s : State) (nbits w : Nat) : State := requestNext (tableRecord nbits w) s

end Sys2Proof.Machine
end

