-- ==== Sys2Proof/Safety.lean ====
section
/-! DEFINITION. The terms in which statements about the machine are made: edges and bits on the wire (rule R14), the bus
properties (rule R89), the stream of glyph columns (rule R134), the invariants of rule R29, and runs in which the host
only does what a host may do (rules R8, R71, R184). -/

namespace Sys2Proof.Machine

/-! The wire. -/

/-- The levels after a sequence of events. -/
def Pins.afterAll (p : Pins) (es : List Event) : Pins := es.foldl Pins.after p

/-- The panel after a sequence of events, `p` the levels before them (rule R165). -/
def Panel.afterAll : Panel → Pins → List Event → Panel
  | q, _, [] => q
  | q, p, e :: es => Panel.afterAll (q.after p e) (p.after e) es

/-- A rising edge of a line: "a `Pin(line, 1)` event at which the line's previous level was 0" (rule R14). -/
def isRise (l : Line) (p : Pins) (e : Event) : Bool := decide (e = .pin l true) && !p.level l

/-- How many rising edges of a line a sequence of events has, from given levels. -/
def risesIn (l : Line) : Pins → List Event → Nat
  | _, [] => 0
  | p, e :: es => (if isRise l p e then 1 else 0) + risesIn l (p.after e) es

/-- The bit stream on the wire: the level of `DATA` at successive `SCK` rising edges (95_test_vectors.md, section 0). -/
def clockedBits : Pins → List Event → List Bool
  | _, [] => []
  | p, e :: es => if isRise .sck p e then p.data :: clockedBits (p.after e) es else clockedBits (p.after e) es

/-- The number whose binary digits are given, the first one the most significant. -/
def msbFirst (bits : List Bool) : Nat := bits.foldl (fun n b => 2 * n + b.toNat) 0

/-- How many of the events are line writes. -/
def pinCount (es : List Event) : Nat := es.countP fun | .pin _ _ => true | _ => false

/-- How many of the events are polls. -/
def pollCountOf (es : List Event) : Nat := es.countP fun | .poll _ => true | _ => false

/-- How many of the events are row dwells. -/
def dwellCount (es : List Event) : Nat := es.countP fun | .dwellRow => true | _ => false

/-- Rule R89 item 1: every `Pin(DATA, b)` stands between `Pin(SCK, 0)` and `Pin(SCK, 1)`. -/
def dataFramed : List Event → Bool
  | [] => true
  | .pin .sck false :: .pin .data _ :: .pin .sck true :: es => dataFramed es
  | .pin .data _ :: _ => false
  | _ :: es => dataFramed es

/-- Rule R89 item 2, run over a sequence of events: `n` counts the `SCK` rising edges since the later of the last `LCK`
rising edge and the last `CLR_n` low event. The answer is the count at the end, or nothing when some `LCK` rising
edge came at a count other than 40 or 0 ("output must never be latched mid-shift", rule R185). -/
def latchScan : (n : Nat) → Pins → List Event → Option Nat
  | n, _, [] => some n
  | n, p, e :: es =>
    if isRise .lck p e then
      if n = 0 ∨ n = Config.rowFrameBits then latchScan 0 (p.after e) es else none
    else if e = .pin .clrN false then latchScan 0 (p.after e) es
    else latchScan (if isRise .sck p e then n + 1 else n) (p.after e) es

/-- Rule R89 item 3: "`CLR_n` is low only while `OE_n` is high", after every event. -/
def blankWhileClear : Pins → List Event → Bool
  | _, [] => true
  | p, e :: es => ((p.after e).clrN || (p.after e).oeN) && blankWhileClear (p.after e) es

/-- The 40-bit values the panel latches over a sequence of events: its outputs after each `LCK` rising edge (rules R113,
R165). -/
def latchedValues : Panel → Pins → List Event → List Frame40
  | _, _, [] => []
  | q, p, e :: es =>
    if isRise .lck p e then (q.after p e).out :: latchedValues (q.after p e) (p.after e) es
    else latchedValues (q.after p e) (p.after e) es

/-- The events of so many frames of one window, a poll answered 0 before each (rule R129). -/
def polledFrames (n : Nat) (w : Window) : List Event :=
  (List.replicate n (.poll false :: frameEvents w)).flatten

/-! The window and the glyph stream. -/

/-- `pixel(r, c)` (rule R21). -/
def State.pixel (s : State) (row : Fin 8) (col : Fin 32) : Bool := s.window.pixel row col

/-- `streamPixel(r, p)` (rule R134): column `p mod 8` of glyph `p div 8`, dark past the buffer. -/
def State.streamPixel (s : State) (row : Fin 8) (p : Nat) : Bool :=
  if p < 8 * s.bufLen then s.glyphPixel (p / 8) row (Fin.ofNat 8 p) else false

/-- The start position `8*startGlyph + startOffset` (rule R126 c). -/
def State.startPosition (s : State) : Nat := 8 * s.startGlyph + s.startOffset.toNat

/-! Invariants. -/

/-- What every step keeps, whatever it is asked to perform: the memory's canonical form, the legal ranges of `bufLen`
(rule R26) and `shiftCount` (rule R25), and open parameters that are at least 1 (rule R6). -/
structure State.Sound (s : State) : Prop where
  memory : s.glyphMem.wf = true
  capacity : s.bufLen ≤ s.params.maxGlyphs
  shiftLow : 1 ≤ s.shiftCount.toNat
  shiftHigh : s.shiftCount.toNat ≤ 32
  params : s.params.wf

/-- The invariants of rule R29 (items 1 to 4, 6 and 7, item 5 together with rule R134 c), which hold between two
operations of the engine. -/
structure State.EngineInv (s : State) : Prop where
  sound : s.Sound
  /-- item 1 -/
  cursor : s.startGlyph ≤ s.bufLen
  /-- item 2 -/
  filling : s.phase = .filling → s.startGlyph < s.bufLen ∨ (s.bufLen = 0 ∧ s.startGlyph = 0 ∧ s.startOffset = 0)
  /-- item 3 -/
  fillingShift : s.phase = .filling → s.shiftCount = 1
  /-- item 4 -/
  draining : s.phase = .draining → s.startGlyph = s.bufLen ∧ s.startOffset = 0 ∧ 1 ≤ s.bufLen
  /-- item 5: a DRAINING tick has been done -/
  drained : s.phase = .draining → 2 ≤ s.shiftCount.toNat → ∀ r, s.window.get r = 0
  /-- rule R134 c: no DRAINING tick has been done -/
  lastColumn : s.phase = .draining → s.shiftCount = 1 → ∀ r (c : Fin 32), 1 ≤ c.val → s.pixel r c = false
  /-- item 6 -/
  clearHigh : s.pins.clrN = true
  /-- item 6 -/
  latchHigh : s.pins.lck = true
  /-- item 7 -/
  blanked : s.pins.oeN = true → s.phase = .done

/-- Rule R29 item 7: "`pin.OE_n = 1` only in a `DONE` reached by ABORT". The last events are then a poll answered 1 and
ABORT's own (rule R131), because nothing is put on the lines in DONE. -/
abbrev State.blankedByAbort (s : State) : Prop :=
  s.pins.oeN = true → ∃ es, s.trace = es ++ [.poll true, .pin .oeN true]

/-! Runs. -/

/-- What a host does to the core (rules R8, R30, R74): RESET is its `rst`, START its `start` with `glyph_len`,
GLYPH_ROW_BYTE its write to the glyph buffer. Every other operation "is reached only by being called from another
operation's pseudocode" (rule R71). -/
def isHostAction : Instr → Bool
  | .reset => true
  | .start _ => true
  | .glyphRowByte _ _ _ => true
  | _ => false

/-- Every waiting request that is an operation is a host action. -/
def State.hostDriven (s : State) : Prop :=
  ∀ r ∈ s.requests, ∀ i, decode r = .ok i → isHostAction i = true

/-- The next `n` polls are all answered 0. -/
abbrev State.quietFor (s : State) (n : Nat) : Prop := s.pollAnswers.take n = List.replicate n false

/-- What only the environment writes: the parameters, the waiting answers, requests and `rst`. -/
def State.sameInputs (s t : State) : Prop :=
  t.params = s.params ∧ t.pollAnswers = s.pollAnswers ∧ t.pollCount = s.pollCount ∧ t.rst = s.rst ∧
    t.requests = s.requests

/-- The registers of the engine other than the window (rule R9's program counter, control and status). -/
def State.sameEngine (s t : State) : Prop :=
  t.phase = s.phase ∧ t.startGlyph = s.startGlyph ∧ t.startOffset = s.startOffset ∧ t.shiftCount = s.shiftCount ∧
    t.bufLen = s.bufLen ∧ t.overflow = s.overflow

/-- Every byte of glyph memory reads as before. -/
def State.sameMemory (s t : State) : Prop := ∀ addr, t.glyphMem.read addr = s.glyphMem.read addr

/-- The lines, the panel and the trace are as before. -/
def State.sameWire (s t : State) : Prop := t.pins = s.pins ∧ t.panel = s.panel ∧ t.trace = s.trace

/-- What a tick from `s`, abandoned in its dwell after `k` whole frames, leaves in `t` besides the window: the pass over and
the display blanked (rule R131), "window already updated, cursor not advanced" (rules R126, R127), the polls answered 0,
`k` times 0 and 1, and `rest` still to answer. -/
def State.abandonedInDwell (s t : State) (k : Nat) (rest : List Bool) : Prop :=
  t.phase = .done ∧ t.startGlyph = s.startGlyph ∧ t.startOffset = s.startOffset ∧ t.shiftCount = s.shiftCount ∧
    t.bufLen = s.bufLen ∧ t.overflow = s.overflow ∧
    t.trace = s.trace ++ .poll false :: (polledFrames k t.window ++ [.poll true, .pin .oeN true]) ∧
    t.pins.oeN = true ∧ (∀ r c, t.lit r c = false) ∧ t.pollAnswers = rest ∧ s.sameMemory t ∧ t.params = s.params ∧
    t.rst = s.rst ∧ t.requests = s.requests ∧ t.result = s.result

end Sys2Proof.Machine
end

