-- ==== Sys2Proof/Certificates/Slice0/Obligations.lean ====
section
/-! DEFINITION. Statements about the machine, from the numbered rules of the spec. They hold in every state that meets
their hypotheses, reached by a run or not, for every value of the open parameters and of every free value. -/

open Sys2Proof Sys2Proof.Machine

/-! The bus driver (40_bus_driver.md) and the wire formats (30_encoding.md) -/

/-- Rule R81: PIN_WRITE drives one line to the level, appends its event even when the level was driven already, and
changes no other line, no register of the window or the engine, no byte of memory and no input. -/
def Obligations.PinWriteDrivesOneLine : Prop :=
  ∀ (l : Line) (v : Bool) (s : State), ∃ t, exec (.pinWrite l v) s = .next t ∧
    t.pins.level l = v ∧ (∀ l', l' ≠ l → t.pins.level l' = s.pins.level l') ∧ t.trace = s.trace ++ [.pin l v] ∧
    t.window = s.window ∧ s.sameEngine t ∧ s.sameMemory t ∧ s.sameInputs t ∧ t.result = s.result

/-- Rules R61, R82: EMIT_BIT, and BITCELL as a table row, are clock low, data, clock high; whatever `SCK` was before
there is exactly one rising edge, at which the bit is on `DATA`. (BITCELL as an instruction: log entry 15) -/
def Obligations.BitCellHasOneRisingEdge : Prop :=
  ∀ (b : Bool) (s : State), ∀ i ∈ [Instr.emitBit b, Instr.bitcell b], ∃ t, exec i s = .next t ∧
    t.trace = s.trace ++ [.pin .sck false, .pin .data b, .pin .sck true] ∧
    risesIn .sck s.pins [.pin .sck false, .pin .data b, .pin .sck true] = 1 ∧
    clockedBits s.pins [.pin .sck false, .pin .data b, .pin .sck true] = [b] ∧
    t.pins = { s.pins with sck := true, data := b }

/-- Rules R62, R83, R85: SHIFT_OUT8, EMIT_ROWSCAN and CHUNK are eight bit cells carrying the bits of their byte, bit 7
first: 24 line writes, 8 rising edges, `SCK` left at 1 and `DATA` at bit 0. (CHUNK as an instruction: log entry 15) -/
def Obligations.ByteSentMsbFirst : Prop :=
  ∀ (v : Byte) (s : State), ∀ i ∈ [Instr.shiftOut8 v, Instr.emitRowscan v, Instr.chunk v], ∃ t es,
    exec i s = .next t ∧ t.trace = s.trace ++ es ∧
    es = [v.getLsbD 7, v.getLsbD 6, v.getLsbD 5, v.getLsbD 4, v.getLsbD 3, v.getLsbD 2, v.getLsbD 1,
      v.getLsbD 0].flatMap (fun b => [.pin .sck false, .pin .data b, .pin .sck true]) ∧
    clockedBits s.pins es =
      [v.getLsbD 7, v.getLsbD 6, v.getLsbD 5, v.getLsbD 4, v.getLsbD 3, v.getLsbD 2, v.getLsbD 1, v.getLsbD 0] ∧
    pinCount es = 24 ∧ es.length = 24 ∧ t.pins = { s.pins with sck := true, data := v.getLsbD 0 }

/-- Rules R69 (a), R84: EMIT_COLUMNS of any pattern and any width >= 1 sends `ceil(bitWidth/8)` chunks, the most
significant first: the bits clocked, read as one number, are the low `8*ceil(bitWidth/8)` bits of the pattern; `DATA` is
left at its bit 0. The events are 24 line writes a chunk and nothing else, and no latch. (Widths other than 32: log entry
10) -/
def Obligations.EmitColumnsSendsChunks : Prop :=
  ∀ (p bitWidth : Nat) (s : State), 1 ≤ bitWidth → ∃ t es, exec (.emitColumns p bitWidth) s = .next t ∧
    t.trace = s.trace ++ es ∧ (clockedBits s.pins es).length = 8 * ((bitWidth + 7) / 8) ∧
    msbFirst (clockedBits s.pins es) = p % 2 ^ (8 * ((bitWidth + 7) / 8)) ∧
    es.length = 24 * ((bitWidth + 7) / 8) ∧ pinCount es = 24 * ((bitWidth + 7) / 8) ∧ risesIn .lck s.pins es = 0 ∧
    t.pins = { s.pins with sck := true, data := p.testBit 0 }

/-- Rule R86: LATCH, and LATCHPULSE as a table row, are `LCK` low then high, exactly one rising edge, no other line
touched; with the observer (rule R165) the outputs take the shift register. (LATCHPULSE as an instruction: log entry 15;
the panel: the informative observer of rule R165, log entry 19) -/
def Obligations.LatchPulsesOnce : Prop :=
  ∀ (s : State), ∀ i ∈ [Instr.latch, Instr.latchpulse], ∃ t, exec i s = .next t ∧
    t.trace = s.trace ++ [.pin .lck false, .pin .lck true] ∧
    risesIn .lck s.pins [.pin .lck false, .pin .lck true] = 1 ∧ t.pins = { s.pins with lck := true } ∧
    t.panel = { sr := s.panel.sr, out := s.panel.sr }

/-- Rule R87: SET_OE drives `OE_n`, changes neither the shift register nor the latched outputs, and at level 1 nothing
is lit. (The panel: the informative observer of rule R165, log entry 19) -/
def Obligations.SetOeBlanks : Prop :=
  ∀ (level : Bool) (s : State), ∃ t, exec (.setOe level) s = .next t ∧ t.trace = s.trace ++ [.pin .oeN level] ∧
    t.pins = { s.pins with oeN := level } ∧ t.panel = s.panel ∧ (level = true → ∀ r c, t.lit r c = false)

/-- Rules R68, R88: CLEAR_REGS, and CLEARSEQ as a table row, are the six events of CLEARSEQ; they leave `OE_n` 0,
`CLR_n` 1, `LCK` 1, `DATA` and `SCK` untouched; `CLR_n` is low only while `OE_n` is high, whatever the levels before;
the observer's registers are 0 and nothing is lit (rule R166 (2)). (CLEARSEQ as an instruction: log entry 15; the panel:
log entry 19) -/
def Obligations.ClearRegsIsClearseq : Prop :=
  ∀ (s : State), ∀ i ∈ [Instr.clearRegs, Instr.clearseq], ∃ t es, exec i s = .next t ∧ t.trace = s.trace ++ es ∧
    es = [.pin .oeN true, .pin .clrN false, .pin .clrN true, .pin .lck false, .pin .lck true, .pin .oeN false] ∧
    t.pins = { s.pins with oeN := false, clrN := true, lck := true } ∧
    blankWhileClear s.pins es = true ∧ t.panel = { sr := 0, out := 0 } ∧
    ∀ r c, t.lit r c = false

/-- Rule R64: ROWSEL_r puts the one-hot byte `0x80 >> r` on the wire as one CHUNK, most significant bit first. (The code
as an instruction: log entry 15) -/
def Obligations.RowSelectCodes : Prop :=
  ∀ (s : State), ∀ p ∈ [(Instr.rowsel0, 0x80), (.rowsel1, 0x40), (.rowsel2, 0x20), (.rowsel3, 0x10), (.rowsel4, 0x08),
      (.rowsel5, 0x04), (.rowsel6, 0x02), (.rowsel7, 0x01)],
    ∃ t es, exec p.1 s = .next t ∧ t.trace = s.trace ++ es ∧ (clockedBits s.pins es).length = 8 ∧
      msbFirst (clockedBits s.pins es) = p.2 ∧ exec p.1 s = exec (.chunk (BitVec.ofNat 8 p.2)) s

/-- Rule R60, table column "produced by": the wire formats of the table are what the operations produce. COLFIELD is
EMIT_COLUMNS(…, 32), BITCELL EMIT_BIT, CHUNK SHIFT_OUT8, ROWSEL of a row EMIT_ROWSCAN of its byte, ROWFRAME of a row's
pattern SCAN_ROW, FRAME SCAN_FRAME, LATCHPULSE LATCH, CLEARSEQ CLEAR_REGS. (The formats as instructions: log entry 15) -/
def Obligations.FormatsAreWhatOperationsProduce : Prop :=
  ∀ (s : State), (∀ p, exec (.colfield p) s = exec (.emitColumns p.toNat 32) s) ∧
    (∀ b, exec (.bitcell b) s = exec (.emitBit b) s) ∧
    (∀ p ∈ [(Instr.rowsel0, 0x80), (.rowsel1, 0x40), (.rowsel2, 0x20), (.rowsel3, 0x10), (.rowsel4, 0x08),
        (.rowsel5, 0x04), (.rowsel6, 0x02), (.rowsel7, 0x01)], exec p.1 s = exec (.emitRowscan p.2) s) ∧
    (∀ v, exec (.chunk v) s = exec (.shiftOut8 v) s) ∧
    (∀ (r : Fin 8), exec (.rowframe (s.window.get r) (BitVec.ofNat 8 (128 / 2 ^ r.val))) s =
      exec (.scanRow r.val) s) ∧
    exec .frame s = exec .scanFrame s ∧ exec .latchpulse s = exec .latch s ∧ exec .clearseq s = exec .clearRegs s

/-- Rules R65, R60: a ROWFRAME with any column pattern and any byte is 40 bits, pattern then byte, one `LCK` rising edge
after the 40th, 122 line writes and one dwell. (The format as an instruction: log entry 15; bytes that are not one-hot:
log entry 16) -/
def Obligations.RowFrameLayout : Prop :=
  ∀ (c : Word) (v : Byte) (s : State), ∃ t es, exec (.rowframe c v) s = .next t ∧
    t.trace = s.trace ++ es ++ [.pin .lck false, .pin .lck true, .dwellRow] ∧
    (clockedBits s.pins es).length = 40 ∧ msbFirst (clockedBits s.pins es) = c.toNat * 256 + v.toNat ∧
    risesIn .lck s.pins es = 0 ∧ pinCount es = 120 ∧ dwellCount es = 0 ∧ es.length = 120

/-- Frame of the operations of 40_bus_driver.md and 42_scanner.md and of the wire formats (rules R80, R110, R111, R112:
"pin registers only"): the window, the engine's registers, every byte of glyph memory, the inputs and the result stay;
the trace only grows, and the lines and the panel follow it. (The formats as instructions: log entry 15; the panel: log
entry 19) -/
def Obligations.WireOperationsFrame : Prop :=
  ∀ (s : State) (l : Line) (b : Bool) (v : Byte) (p : Word) (q n row : Nat), 1 ≤ n → row < 8 →
    ∀ i ∈ [Instr.pinWrite l b, .emitBit b, .shiftOut8 v, .emitColumns q n, .emitRowscan v, .latch, .setOe b, .clearRegs,
        .scanRow row, .scanFrame, .chunk v, .colfield p, .rowframe p v, .bitcell b, .latchpulse, .frame, .clearseq,
        .rowsel0, .rowsel1, .rowsel2, .rowsel3, .rowsel4, .rowsel5, .rowsel6, .rowsel7],
      ∃ t es, exec i s = .next t ∧ t.window = s.window ∧ s.sameEngine t ∧ s.sameMemory t ∧ s.sameInputs t ∧
        t.result = s.result ∧ t.trace = s.trace ++ es ∧ t.pins = s.pins.afterAll es ∧
        t.panel = s.panel.afterAll s.pins es

/-! The window (41_window_buffer.md) -/

/-- Rules R101, R106 (1): WIN_CLEAR zeroes all rows, twice is as once, and nothing but the window changes. -/
def Obligations.WinClearZeroes : Prop :=
  ∀ (s : State), ∃ t, exec .winClear s = .next t ∧ (∀ r, t.window.get r = 0) ∧ (∀ r c, t.pixel r c = false) ∧
    exec .winClear t = .next t ∧
    s.sameEngine t ∧ s.sameMemory t ∧ s.sameInputs t ∧ s.sameWire t ∧ t.result = s.result

/-- Rules R102, R105: after WIN_SET_PIXEL the pixel reads as the value, every other pixel as before, and nothing but the
window changes. -/
def Obligations.SetPixelThenGet : Prop :=
  ∀ (s : State) (row col : Nat) (v : Bool) (hr : row < 8) (hc : col < 32), ∃ t,
    exec (.winSetPixel row col v) s = .next t ∧
    (∀ r c, t.pixel r c = if r = ⟨row, hr⟩ ∧ c = ⟨col, hc⟩ then v else s.pixel r c) ∧
    s.sameEngine t ∧ s.sameMemory t ∧ s.sameInputs t ∧ s.sameWire t ∧ t.result = s.result

/-- Rules R103, R106 (3): WIN_SHIFT_LEFT by any amount moves the dot of column `c + n` to column `c` and darkens the rest,
in every row; shifts compose; from 32 on the window is 0. Nothing but the window changes. -/
def Obligations.ShiftLeftMovesColumns : Prop :=
  ∀ (s : State) (n : Nat), ∃ t, exec (.winShiftLeft n) s = .next t ∧
    (∀ r (c : Fin 32), t.pixel r c = if h : c.val + n < 32 then s.pixel r ⟨c.val + n, h⟩ else false) ∧
    (32 ≤ n → ∀ r, t.window.get r = 0) ∧
    (∀ m, exec (.winShiftLeft m) t = exec (.winShiftLeft (n + m)) s) ∧
    s.sameEngine t ∧ s.sameMemory t ∧ s.sameInputs t ∧ s.sameWire t ∧ t.result = s.result

/-- Rules R104, R105: WIN_READ_ROW returns the row and WIN_GET_PIXEL its bit `31 - col`; only the result changes, which is
the model's own field (log entry 17) -/
def Obligations.WindowReadsReturn : Prop :=
  ∀ (s : State) (row col : Nat) (hr : row < 8), col < 32 →
    exec (.winReadRow row) s = .next { s with result := .row (s.window.get ⟨row, hr⟩) } ∧
    exec (.winGetPixel row col) s =
      .next { s with result := .bit ((s.window.get ⟨row, hr⟩).getLsbD (31 - col)) }

/-- WINDOW_ROW_WORD as the model reads it, `W[row] <- c` (rule R12; log entry 13): that row holds the word, window column
`k` its bit `31 - k`; nothing else changes. -/
def Obligations.WindowRowWordWrites : Prop :=
  ∀ (s : State) (row : Nat) (c : Word) (hr : row < 8), ∃ t, exec (.windowRowWord row c) s = .next t ∧
    t.window.get ⟨row, hr⟩ = c ∧ (∀ k : Fin 32, t.pixel ⟨row, hr⟩ k = c.getLsbD (31 - k.val)) ∧
    (∀ r, r ≠ ⟨row, hr⟩ → t.window.get r = s.window.get r) ∧
    s.sameEngine t ∧ s.sameMemory t ∧ s.sameInputs t ∧ s.sameWire t ∧ t.result = s.result

/-- Rule R159: calls outside the operand ranges of files 40 to 43 are refused. GLYPH_BIT at or beyond `bufLen` is refused
under a name of its own (rule R124) -/
def Obligations.OutOfRangeCallsRefused : Prop :=
  ∀ (s : State) (row col i c p : Nat) (v : Bool),
    exec (.emitColumns p 0) s = .refused .operandRange ∧
    (8 ≤ row ∨ 32 ≤ col → exec (.winSetPixel row col v) s = .refused .operandRange ∧
      exec (.winGetPixel row col) s = .refused .operandRange) ∧
    (8 ≤ row → exec (.winReadRow row) s = .refused .operandRange ∧ exec (.scanRow row) s = .refused .operandRange) ∧
    (8 ≤ row ∨ 8 ≤ c → exec (.glyphBit i row c) s = .refused .operandRange) ∧
    (row < 8 → c < 8 → s.bufLen ≤ i → exec (.glyphBit i row c) s = .refused .glyphBeyondLength)

/-! The scanner (42_scanner.md) -/

/-- Rules R111, R113 (3): SCAN_ROW clocks out the 40 bits `W[row] * 256 + (0x80 >> row)`, then one latch pulse, then the
dwell; 122 line writes in all; the window is not modified and `DATA` ends at 1 for row 7 and 0 otherwise. -/
def Obligations.ScanRowSendsRowFrame : Prop :=
  ∀ (s : State) (row : Nat) (hr : row < 8), ∃ t es, exec (.scanRow row) s = .next t ∧
    t.trace = s.trace ++ es ++ [.pin .lck false, .pin .lck true, .dwellRow] ∧
    (clockedBits s.pins es).length = 40 ∧
    msbFirst (clockedBits s.pins es) = (s.window.get ⟨row, hr⟩).toNat * 256 + 128 / 2 ^ row ∧
    risesIn .lck s.pins es = 0 ∧ pinCount es = 120 ∧ dwellCount es = 0 ∧ t.window = s.window ∧
    t.pins = { s.pins with sck := true, lck := true, data := decide (row = 7) }

/-- Rule R106 (5): the `(c+1)`-th bit that SCAN_ROW clocks out is the pixel of window column `c`. -/
def Obligations.PixelRoundTripsToTheWire : Prop :=
  ∀ (s : State) (row : Nat) (hr : row < 8), ∃ t es, exec (.scanRow row) s = .next t ∧ t.trace = s.trace ++ es ∧
    ∀ c : Fin 32, (clockedBits s.pins es)[c.val]? = some (s.pixel ⟨row, hr⟩ c)

/-- Rule R166 (1): with `CLR_n` high and `OE_n` low, after SCAN_ROW of a row exactly that row is shown, as the window
has it. (The panel: the informative observer of rule R165, log entry 19) -/
def Obligations.ScanRowShowsItsRow : Prop :=
  ∀ (s : State) (row : Nat) (hr : row < 8), s.pins.clrN = true → s.pins.oeN = false →
    ∃ t, exec (.scanRow row) s = .next t ∧
      ∀ (r : Fin 8) (c : Fin 32), t.lit r c = (decide (r = ⟨row, hr⟩) && s.pixel r c)

/-- Rules R112, R113: SCAN_FRAME, and FRAME as a table row, are 976 line writes and 8 dwells, 320 `SCK` and 8 `LCK`
rising edges, whatever the levels before; afterwards `DATA`, `SCK`, `LCK` are 1; the window is unchanged. (FRAME as an
instruction: log entry 15) -/
def Obligations.ScanFrameCounts : Prop :=
  ∀ (s : State), ∀ i ∈ [Instr.scanFrame, Instr.frame], ∃ t es, exec i s = .next t ∧ t.trace = s.trace ++ es ∧
    pinCount es = 976 ∧ dwellCount es = 8 ∧ pollCountOf es = 0 ∧ risesIn .sck s.pins es = 320 ∧
    risesIn .lck s.pins es = 8 ∧ t.window = s.window ∧
    t.pins = { s.pins with data := true, sck := true, lck := true }

/-- Rule R113 (2), (3): with `CLR_n` high, the eight values latched in a frame are `W[r] * 256 + (0x80 >> r)` for `r` =
0 to 7 in order: each row selected exactly once. (The panel: log entry 19) -/
def Obligations.FrameLatchesEachRowOnce : Prop :=
  ∀ (s : State), s.pins.clrN = true → ∃ t es, exec .scanFrame s = .next t ∧ t.trace = s.trace ++ es ∧
    (latchedValues s.panel s.pins es).map BitVec.toNat =
      [s.window.w0.toNat * 256 + 0x80, s.window.w1.toNat * 256 + 0x40, s.window.w2.toNat * 256 + 0x20,
        s.window.w3.toNat * 256 + 0x10, s.window.w4.toNat * 256 + 0x08, s.window.w5.toNat * 256 + 0x04,
        s.window.w6.toNat * 256 + 0x02, s.window.w7.toNat * 256 + 0x01]

/-! The engine (43_scroll_engine.md) -/

/-- Rules R41, R42, R124: GLYPH_BIT inside the buffer returns bit `c` of the byte at `8*i + r`; only the result, the
model's own field (log entry 17), changes. -/
def Obligations.GlyphBitReadsMemory : Prop :=
  ∀ (s : State) (i r c : Nat), i < s.bufLen → i < s.params.maxGlyphs → r < 8 → c < 8 →
    exec (.glyphBit i r c) s = .next { s with result := .bit ((s.glyphMem.read (8 * i + r)).getLsbD c) }

/-- Rules R34, R121: START in DONE with `glyph_len <= MAX_GLYPHS` begins a pass: `overflow` 0, `bufLen` the length,
cursor (0, 0), `shiftCount` 1, window 0, FILLING, CLEARSEQ on the wire, the panel cleared and nothing lit; glyph
memory and the inputs stay. (The panel: log entry 19) -/
def Obligations.StartAccepted : Prop :=
  ∀ (s : State) (n : Nat), s.phase = .done → n ≤ s.params.maxGlyphs → ∃ t, exec (.start n) s = .next t ∧
    t.phase = .filling ∧ t.overflow = false ∧ t.bufLen = n ∧ t.startGlyph = 0 ∧ t.startOffset = 0 ∧
    t.shiftCount = 1 ∧ (∀ r, t.window.get r = 0) ∧
    t.trace = s.trace ++
      [.pin .oeN true, .pin .clrN false, .pin .clrN true, .pin .lck false, .pin .lck true, .pin .oeN false] ∧
    t.pins = { s.pins with oeN := false, clrN := true, lck := true } ∧ t.panel = { sr := 0, out := 0 } ∧
    (∀ r c, t.lit r c = false) ∧ s.sameMemory t ∧ s.sameInputs t ∧ t.result = s.result

/-- Rule R151: START in DONE above the capacity, and the cause row of the table in any state, set `overflow` and change
nothing else; no event, no pass. RUN_PASS above the capacity does the same (rule R132). (The cause row: log entry
14; lengths wider than the input: log entry 29) -/
def Obligations.BufferOverflowSetsOneFlag : Prop :=
  ∀ (s : State) (n : Nat), exec .causeBufferOverflow s = .next { s with overflow := true } ∧
    (s.phase = .done → s.params.maxGlyphs < n →
      exec (.start n) s = .next { s with overflow := true } ∧
      exec (.runPass n) s = .next { s with overflow := true })

/-- Rules R121, R133: START while a pass runs is ignored and nothing happens, whatever its length.
(Lengths wider than the input: log entry 29) -/
def Obligations.StartIgnoredDuringPass : Prop :=
  ∀ (s : State) (n : Nat), s.phase ≠ .done → exec (.start n) s = .next s

/-- Rule R123: POLL returns the answer the environment gives, appends `Poll(b)`, and changes no register, line or byte
of memory; the answer is the first scripted one, where there is one. (Scripted answers, then free ones: log entry 5; the
result: log entry 17) -/
def Obligations.PollSamplesInput : Prop :=
  ∀ (s : State), ∃ t b, exec .poll s = .next t ∧ t.trace = s.trace ++ [.poll b] ∧ t.result = .bit b ∧
    (∀ b' rest, s.pollAnswers = b' :: rest → b = b' ∧ t.pollAnswers = rest) ∧
    t.window = s.window ∧ s.sameEngine t ∧ s.sameMemory t ∧ t.pins = s.pins ∧ t.panel = s.panel ∧
    t.params = s.params ∧ t.rst = s.rst ∧ t.requests = s.requests

/-- Rules R125, R134 (a): FILL_WINDOW under its precondition leaves in window column `c` of row `r` the stream pixel
`8*startGlyph + startOffset + c`; nothing but the window changes and nothing is put on the wire. -/
def Obligations.FillWindowShowsTheStream : Prop :=
  ∀ (s : State), s.bufLen ≤ s.params.maxGlyphs → 1 ≤ s.bufLen → s.startGlyph < s.bufLen →
    ∃ t, exec .fillWindow s = .next t ∧
      (∀ r (c : Fin 32), t.pixel r c = s.streamPixel r (s.startPosition + c.val)) ∧
      s.sameEngine t ∧ s.sameMemory t ∧ s.sameInputs t ∧ s.sameWire t ∧ t.result = s.result

/-- Rules R126, R130, R134 (a): a FILLING tick with every poll 0 shows the stream from the start position in
`FRAMES_PER_TICK` frames, each after a poll, then advances the start position by one; DRAINING follows when the start
cursor reaches `bufLen`. -/
def Obligations.FillingTick : Prop :=
  ∀ (s : State), s.bufLen ≤ s.params.maxGlyphs → s.phase = .filling → s.startGlyph < s.bufLen →
    s.quietFor (1 + s.params.framesPerTick) →
    ∃ t, exec .tickFill s = .next t ∧
      (∀ r (c : Fin 32), t.pixel r c = s.streamPixel r (s.startPosition + c.val)) ∧
      t.startPosition = s.startPosition + 1 ∧ t.startOffset = s.startOffset + 1 ∧
      t.phase = (if t.startGlyph = s.bufLen then .draining else .filling) ∧
      t.shiftCount = s.shiftCount ∧ t.bufLen = s.bufLen ∧ t.overflow = s.overflow ∧
      t.trace = s.trace ++ .poll false :: polledFrames s.params.framesPerTick t.window ∧
      t.pollAnswers = s.pollAnswers.drop (1 + s.params.framesPerTick) ∧
      s.sameMemory t ∧ t.params = s.params ∧ t.rst = s.rst ∧ t.requests = s.requests ∧ t.result = s.result

/-- Rule R136: a tick of a pass over an empty buffer whose poll is 0 clears the window and ends the pass: one `Poll(0)`,
no frame, no glyph read, the lines untouched. -/
def Obligations.EmptyBufferEndsInOneTick : Prop :=
  ∀ (s : State), s.phase = .filling → s.bufLen = 0 → s.quietFor 1 → ∃ t, exec .tick s = .next t ∧ t.phase = .done ∧
    (∀ r, t.window.get r = 0) ∧ t.trace = s.trace ++ [.poll false] ∧ t.pins = s.pins ∧ t.panel = s.panel ∧
    t.startGlyph = s.startGlyph ∧ t.startOffset = s.startOffset ∧ t.shiftCount = s.shiftCount ∧
    t.bufLen = s.bufLen ∧ t.overflow = s.overflow ∧ s.sameMemory t ∧ t.result = s.result

/-- Rules R127, R128: a DRAINING tick with every poll 0 shifts every row left by `shiftCount`, shows the window in
`FRAMES_PER_TICK` frames, and ends the pass when the amount was at least 32, else adds one to it; the cursor and glyph
memory are not touched. -/
def Obligations.DrainingTick : Prop :=
  ∀ (s : State), s.phase = .draining → s.quietFor (1 + s.params.framesPerTick) → ∃ t, exec .tickDrain s = .next t ∧
    (∀ r (c : Fin 32), t.pixel r c =
      if h : c.val + s.shiftCount.toNat < 32 then s.pixel r ⟨c.val + s.shiftCount.toNat, h⟩ else false) ∧
    (32 ≤ s.shiftCount.toNat → t.phase = .done ∧ t.shiftCount = s.shiftCount) ∧
    (s.shiftCount.toNat < 32 → t.phase = .draining ∧ t.shiftCount = s.shiftCount + 1) ∧
    t.trace = s.trace ++ .poll false :: polledFrames s.params.framesPerTick t.window ∧
    t.pollAnswers = s.pollAnswers.drop (1 + s.params.framesPerTick) ∧
    t.startGlyph = s.startGlyph ∧ t.startOffset = s.startOffset ∧ t.bufLen = s.bufLen ∧ t.overflow = s.overflow ∧
    s.sameMemory t ∧ t.params = s.params ∧ t.rst = s.rst ∧ t.requests = s.requests ∧ t.result = s.result

/-- Rules R131, R155 (c), R156: a tick whose first poll returns 1 is an ABORT: the window, the cursor and the counts are
those before the tick, the display is blanked, the pass is over; it takes precedence over the window update and over the
empty-buffer shortcut. (What is lit: log entry 19; scripted answers: log entry 5) -/
def Obligations.AbortAtTickStart : Prop :=
  ∀ (s : State) (rest : List Bool), s.phase ≠ .done → s.bufLen ≤ s.params.maxGlyphs → s.pollAnswers = true :: rest →
    ∃ t, exec .tick s = .next t ∧ t.phase = .done ∧ t.window = s.window ∧ t.startGlyph = s.startGlyph ∧
      t.startOffset = s.startOffset ∧ t.shiftCount = s.shiftCount ∧ t.bufLen = s.bufLen ∧ t.overflow = s.overflow ∧
      t.trace = s.trace ++ [.poll true, .pin .oeN true] ∧ t.pins = { s.pins with oeN := true } ∧
      s.sameMemory t ∧ ∀ r c, t.lit r c = false

/-- Rule R131: ABORT blanks the display and sets `phase` to DONE; everything else keeps its value. (Called in any phase:
log entry 8) -/
def Obligations.AbortBlanksAndEnds : Prop :=
  ∀ (s : State), exec .abort s =
    .next { s with phase := .done, pins := { s.pins with oeN := true }, trace := s.trace ++ [.pin .oeN true] }

/-- Rule R129: DWELL_SCAN with every poll 0 is `FRAMES_PER_TICK` frames of the one window, each after a `Poll(0)`, and
returns `completed`; neither the window nor the engine's registers change. (The result: log entry 17; scripted answers:
log entry 5) -/
def Obligations.DwellCompletes : Prop :=
  ∀ (s : State), s.quietFor s.params.framesPerTick → ∃ t, exec .dwellScan s = .next t ∧
    t.result = .dwell .completed ∧ t.trace = s.trace ++ polledFrames s.params.framesPerTick s.window ∧
    t.window = s.window ∧ s.sameEngine t ∧ s.sameMemory t ∧
    t.pollAnswers = s.pollAnswers.drop s.params.framesPerTick ∧ t.params = s.params ∧ t.rst = s.rst ∧
    t.requests = s.requests

/-- Rules R126, R127, R129, R131, R156, R188: a poll of 1 before frame `k + 1` of the dwell abandons it after `k` whole
frames: `Poll(1)`, `Pin(OE_n, 1)`, DONE. DWELL_SCAN by itself returns `aborted` and the window keeps what it held. In a
tick the window is already updated (FILLING: the stream from the start position; DRAINING: the old window shifted by
`shiftCount`) and the cursor and the counts are those before the tick. (The result: log entry 17; scripted answers: log
entry 5; what is lit: log entry 19) -/
def Obligations.DwellAbortsBetweenFrames : Prop :=
  ∀ (s : State) (k : Nat) (rest : List Bool), k < s.params.framesPerTick →
    (s.pollAnswers = List.replicate k false ++ true :: rest →
      ∃ t, exec .dwellScan s = .next t ∧ t.result = .dwell .aborted ∧ t.phase = .done ∧
        t.trace = s.trace ++ polledFrames k s.window ++ [.poll true, .pin .oeN true] ∧ t.pollAnswers = rest ∧
        t.window = s.window ∧ t.startGlyph = s.startGlyph ∧ t.startOffset = s.startOffset ∧
        t.shiftCount = s.shiftCount ∧ t.bufLen = s.bufLen ∧ t.overflow = s.overflow ∧ s.sameMemory t ∧
        t.pins.oeN = true) ∧
    (s.pollAnswers = false :: (List.replicate k false ++ true :: rest) →
      (s.phase = .filling → 1 ≤ s.bufLen → s.bufLen ≤ s.params.maxGlyphs → s.startGlyph < s.bufLen →
        ∀ i ∈ [Instr.tick, Instr.tickFill], ∃ t, exec i s = .next t ∧ s.abandonedInDwell t k rest ∧
          ∀ r (c : Fin 32), t.pixel r c = s.streamPixel r (s.startPosition + c.val)) ∧
      (s.phase = .draining → ∀ i ∈ [Instr.tick, Instr.tickDrain], ∃ t, exec i s = .next t ∧
        s.abandonedInDwell t k rest ∧
          ∀ r (c : Fin 32), t.pixel r c =
            if h : c.val + s.shiftCount.toNat < 32 then s.pixel r ⟨c.val + s.shiftCount.toNat, h⟩ else false))

/-- Rule R130: ADVANCE_CURSOR with the start cursor inside the buffer adds one to the start position and goes to DRAINING
exactly when the advanced cursor is at `bufLen`, then with offset 0; nothing else changes. (Called in any phase: log
entry 8) -/
def Obligations.AdvanceCursorByOne : Prop :=
  ∀ (s : State), s.bufLen ≤ s.params.maxGlyphs → s.startGlyph < s.bufLen → ∃ t, exec .advanceCursor s = .next t ∧
    t.startPosition = s.startPosition + 1 ∧ t.startOffset = s.startOffset + 1 ∧
    (t.startGlyph = s.bufLen → t.phase = .draining ∧ t.startOffset = 0) ∧
    (t.startGlyph ≠ s.bufLen → t.phase = s.phase ∧ t.startGlyph < s.bufLen) ∧
    t.shiftCount = s.shiftCount ∧ t.bufLen = s.bufLen ∧ t.overflow = s.overflow ∧ t.window = s.window ∧
    s.sameMemory t ∧ s.sameInputs t ∧ s.sameWire t ∧ t.result = s.result

/-- Rule R122: TICK is TICK_FILL in FILLING, TICK_DRAIN in DRAINING, and nothing in DONE. It completes in every phase,
given a `bufLen` in its legal range (rule R26) -/
def Obligations.TickFollowsPhase : Prop :=
  ∀ (s : State), s.bufLen ≤ s.params.maxGlyphs → ∃ t, exec .tick s = .next t ∧
    (s.phase = .filling → exec .tickFill s = .next t) ∧ (s.phase = .draining → exec .tickDrain s = .next t) ∧
    (s.phase = .done → t = s)

/-- Rule R132: RUN_PASS from DONE ends, with `phase` DONE, whatever its length, the polls and the open parameters.
(Lengths wider than the input: log entry 29) -/
def Obligations.RunPassEnds : Prop :=
  ∀ (s : State) (n : Nat), s.phase = .done → ∃ t, exec (.runPass n) s = .next t ∧ t.phase = .done

/-- Rules R132, R135: RUN_PASS of `L >= 1` glyphs with every poll 0 ends with the cursor at (L, 0), `shiftCount` 32 and the
window 0, after `6 + (8L+32)*F*976` line writes, `(8L+32)*(1+F)` polls and `(8L+32)*F*8` dwells. -/
def Obligations.FullPassCounts : Prop :=
  ∀ (s : State) (n : Nat), s.phase = .done → 1 ≤ n → n ≤ s.params.maxGlyphs →
    s.quietFor ((8 * n + 32) * (1 + s.params.framesPerTick)) →
    ∃ t es, exec (.runPass n) s = .next t ∧ t.trace = s.trace ++ es ∧
      pinCount es = 6 + (8 * n + 32) * s.params.framesPerTick * 976 ∧
      pollCountOf es = (8 * n + 32) * (1 + s.params.framesPerTick) ∧
      dwellCount es = (8 * n + 32) * s.params.framesPerTick * 8 ∧
      t.phase = .done ∧ t.startGlyph = n ∧ t.startOffset = 0 ∧ t.shiftCount = 32 ∧ t.bufLen = n ∧
      t.overflow = false ∧ ∀ r, t.window.get r = 0

/-- Rule R135: a pass over `L >= 1` glyphs with every poll 0 and no request is exactly `8*L` FILLING ticks, at start
positions 0, 1, ..., and 32 DRAINING ticks, at shift counts 1, 2, ..., and is then DONE. One step of the machine is one
tick. -/
def Obligations.PassVisitsEveryTickState : Prop :=
  ∀ (s : State) (k : Nat), s.phase = .filling → s.startGlyph = 0 → s.startOffset = 0 → s.shiftCount = 1 →
    1 ≤ s.bufLen → s.bufLen ≤ s.params.maxGlyphs → s.requests = [] → s.rst = none →
    s.quietFor ((8 * s.bufLen + 32) * (1 + s.params.framesPerTick)) → k ≤ 8 * s.bufLen + 32 →
    ∃ t : State, Host.Core.run Sys2Proof.core k s = .next t ∧
      (k < 8 * s.bufLen → t.phase = .filling ∧ t.startPosition = k ∧ t.shiftCount = 1) ∧
      (8 * s.bufLen ≤ k → k < 8 * s.bufLen + 32 →
        t.phase = .draining ∧ t.startGlyph = s.bufLen ∧ t.startOffset = 0 ∧
          t.shiftCount.toNat = k - 8 * s.bufLen + 1) ∧
      (k = 8 * s.bufLen + 32 →
        t.phase = .done ∧ t.startGlyph = s.bufLen ∧ t.startOffset = 0 ∧ t.shiftCount = 32)

/-- Rule R134 (a), (d): in such a pass the window after tick `k` (counted from 0) shows the stream from column `k` while
`k < 8*L`, and is 0 from then on. (One step is one tick: log entry 1) -/
def Obligations.PassScrollsTheStream : Prop :=
  ∀ (s : State) (k : Nat), s.phase = .filling → s.startGlyph = 0 → s.startOffset = 0 → s.shiftCount = 1 →
    1 ≤ s.bufLen → s.bufLen ≤ s.params.maxGlyphs → s.requests = [] → s.rst = none →
    s.quietFor ((8 * s.bufLen + 32) * (1 + s.params.framesPerTick)) → k < 8 * s.bufLen + 32 →
    ∃ t : State, Host.Core.run Sys2Proof.core (k + 1) s = .next t ∧
      (k < 8 * s.bufLen → ∀ r (c : Fin 32), t.pixel r c = s.streamPixel r (k + c.val)) ∧
      (8 * s.bufLen ≤ k → ∀ r, t.window.get r = 0)

/-! Reset, codes and memory. -/

/-- Rules R34, R181: RESET in any state leaves every register at its reset value, the lines at their idle levels, the
panel cleared and dark, after its eleven events; glyph memory and the inputs stay. (The panel: log entry 19) -/
def Obligations.ResetEstablishesResetState : Prop :=
  ∀ (s : State), ∃ t, exec .reset s = .next t ∧ t.phase = .done ∧ t.startGlyph = 0 ∧ t.startOffset = 0 ∧
    t.shiftCount = 1 ∧ t.bufLen = 0 ∧ t.overflow = false ∧ (∀ r, t.window.get r = 0) ∧
    t.pins = { data := false, sck := false, lck := true, clrN := true, oeN := false } ∧
    t.panel = { sr := 0, out := 0 } ∧ (∀ r c, t.lit r c = false) ∧
    t.trace = s.trace ++ [.pin .oeN true, .pin .data false, .pin .sck false, .pin .lck true, .pin .clrN true,
      .pin .oeN true, .pin .clrN false, .pin .clrN true, .pin .lck false, .pin .lck true, .pin .oeN false] ∧
    s.sameMemory t ∧ s.sameInputs t

/-- The phase codes as the model reads them, `phase <- X` (rule R12; log entry 11): only `phase` changes. -/
def Obligations.PhaseCodesWritePhase : Prop :=
  ∀ (s : State), exec .phaseFilling s = .next { s with phase := .filling } ∧
    exec .phaseDraining s = .next { s with phase := .draining } ∧ exec .phaseDone s = .next { s with phase := .done }

/-- GLYPH_ROW_BYTE as the model reads it, the host's write of a glyph byte (rules R13, R41, R42, R45; log entry 12): with
the glyph inside the capacity, and in DONE or (log entry 25) at or beyond `bufLen`, the byte at `8*i + r` is written,
every other byte reads as before, the canonical form is kept, and nothing else changes. Below `bufLen` during a pass it
is refused, a row above 7 is refused, and a glyph at or beyond the capacity faults (log entry 21). -/
def Obligations.HostWritesGlyphBytes : Prop :=
  ∀ (s : State) (i r : Nat) (v : Byte), s.glyphMem.wf = true →
    (r < 8 → i < s.params.maxGlyphs → s.phase = .done ∨ s.bufLen ≤ i →
      ∃ m, exec (.glyphRowByte i r v) s = .next { s with glyphMem := m } ∧
        m.wf = true ∧ ∀ addr, m.read addr = if addr = 8 * i + r then v else s.glyphMem.read addr) ∧
    (r < 8 → i < s.params.maxGlyphs → s.phase ≠ .done → i < s.bufLen →
      exec (.glyphRowByte i r v) s = .refused .hostWriteDuringPass) ∧
    (8 ≤ r → exec (.glyphRowByte i r v) s = .refused .operandRange) ∧
    (r < 8 → s.params.maxGlyphs ≤ i → exec (.glyphRowByte i r v) s = .fault .glyphAddress)

/-! Whole-machine rules. -/

/-- Rule R13: "The core never writes memory": no instruction but the host's write of a glyph byte changes glyph memory;
no instruction changes the open parameters, the waiting requests or the scheduled `rst`. (GLYPH_ROW_BYTE as that write:
log entry 12) -/
def Obligations.CoreNeverWritesMemory : Prop :=
  ∀ (i : Instr) (s t : State), exec i s = .next t →
    ((∀ g r v, i ≠ .glyphRowByte g r v) → t.glyphMem = s.glyphMem) ∧
    t.params = s.params ∧ t.requests = s.requests ∧ t.rst = s.rst

/-- Rule R16 with R27: `overflow` is written only by START and RESET, and by RUN_PASS, which calls START; the cause row of
the table raises it (log entry 14) -/
def Obligations.OverflowWrittenOnlyByStartAndReset : Prop :=
  ∀ (i : Instr) (s t : State), exec i s = .next t → i ≠ .reset → (∀ n, i ≠ .start n) → (∀ n, i ≠ .runPass n) →
    i ≠ .causeBufferOverflow → t.overflow = s.overflow

/-- Rules R14, R80: every instruction only appends to the trace, and the lines and the panel are what the appended
events make of them: PinWrite is the only way to a line; each poll recorded took one answer. (The panel: log entry 19;
the answers: log entry 5) -/
def Obligations.TraceExplainsTheLines : Prop :=
  ∀ (i : Instr) (s t : State), exec i s = .next t →
    ∃ es, t.trace = s.trace ++ es ∧ t.pins = s.pins.afterAll es ∧ t.panel = s.panel.afterAll s.pins es ∧
      t.pollCount = s.pollCount + pollCountOf es ∧ t.pollAnswers = s.pollAnswers.drop (pollCountOf es)

/-- Rule R89 item 1 (RESET's own events apart, log entry 24): in what START, TICK and RUN_PASS put on the wire every `DATA`
write stands between `SCK` low and `SCK` high. -/
def Obligations.DataStableAtClockEdge : Prop :=
  ∀ (s t : State) (n : Nat), ∀ i ∈ [Instr.start n, Instr.tick, Instr.runPass n, Instr.scanFrame, Instr.dwellScan],
    exec i s = .next t → ∃ es, t.trace = s.trace ++ es ∧ dataFramed es = true

/-- Rules R89 items 2 and 3, R185, R190: from a state between two operations of the engine, whatever a host asks for and
wherever its `rst` cuts in, a step latches only after exactly 40 or exactly 0 bits, and holds `CLR_n` low only while
`OE_n` is high. (Host-driven: log entry 27; `rst`: log entries 20, 30) -/
def Obligations.NeverLatchMidShift : Prop :=
  ∀ (s t : State), s.EngineInv → s.hostDriven → step s = .next t →
    ∃ es, t.trace = s.trace ++ es ∧ latchScan 0 s.pins es = some 0 ∧ blankWhileClear s.pins es = true

/-- Rule R133: no step of a machine that only a host drives leads from DRAINING to FILLING or from DONE to DRAINING.
(Host-driven: log entry 27) -/
def Obligations.PhaseNeverGoesBack : Prop :=
  ∀ (s t : State), s.hostDriven → step s = .next t →
    ¬(s.phase = .draining ∧ t.phase = .filling) ∧ ¬(s.phase = .done ∧ t.phase = .draining)

/-- Every step, whatever it is asked to perform and wherever `rst` cuts in, keeps: glyph memory in its canonical form,
`bufLen <= MAX_GLYPHS`, `shiftCount` in 1 .. 32, and the open parameters at least 1. -/
def Obligations.StepKeepsSound : Prop := ∀ (s t : State), s.Sound → step s = .next t → t.Sound

/-- Rule R138: every step of a machine that only a host drives keeps the invariants of rule R29, and the machine stays
so driven; `OE_n` is 1 only in a DONE reached by ABORT (item 7): the last events are a poll of 1 and ABORT's own. A pass
that ends by completion leaves it 0. (Host-driven: log entry 27; `rst`: log entries 20, 30) -/
def Obligations.StepKeepsEngineInv : Prop :=
  ∀ (s t : State), s.EngineInv → s.hostDriven → step s = .next t →
    t.EngineInv ∧ t.hostDriven ∧ (s.blankedByAbort → t.blankedByAbort)

/-- Rules R29, R34: the state after reset meets the invariants. (Reset with nothing in memory and nothing requested: log
entries 4, 7) -/
def Obligations.ResetMeetsInvariants : Prop :=
  State.reset.EngineInv ∧ State.reset.hostDriven ∧ State.reset.blankedByAbort

/-- Rule R44: the bytes at and beyond `8*bufLen` may hold anything: with another memory that agrees below, a tick and
FILL_WINDOW do the same. (FILL_WINDOW and TICK_FILL in any phase: log entry 8) -/
def Obligations.BytesBeyondLengthDoNotMatter : Prop :=
  ∀ (s t : State) (m : Memory), (∀ addr, addr < 8 * s.bufLen → m.read addr = s.glyphMem.read addr) →
    ∀ i ∈ [Instr.tick, Instr.fillWindow, Instr.tickFill], exec i s = .next t →
      exec i { s with glyphMem := m } = .next { t with glyphMem := m }

/-! Step, requests and `rst`. -/

/-- A step runs the decoded instruction: with no `rst` due, a waiting record that decodes to `i` is taken from the requests
and `i` is performed. -/
def Obligations.StepRunsDecoded : Prop :=
  ∀ (s : State) (record : List Byte) (rest : List (List Byte)) (i : Instr), s.rst = none →
    s.requests = record :: rest → decode record = .ok i → step s = exec i { s with requests := rest }

/-- Rules R120, R167: with no request and no `rst` due, the engine ticks by itself while a pass runs and does nothing in
DONE. (One step is one tick: log entries 1, 27) -/
def Obligations.EngineSequencesItself : Prop :=
  ∀ (s : State), s.rst = none → s.requests = [] →
    (s.phase ≠ .done → step s = exec .tick s) ∧ (s.phase = .done → step s = .next s)

/-- Rules R155 (a), R183: `rst` due after `n` events cuts the step there: its trace is the first `n` events of what it
would have been, then RESET's eleven, and the core and the panel are in the reset state. A step with no more events than
that is performed whole, and `rst` waits for the rest. (How `rst` is scheduled: log entries 20, 30, 31; the panel: log
entry 19) -/
def Obligations.RstCutsAtEventBoundary : Prop :=
  ∀ (s u : State) (n : Nat) (es : List Event), step { s with rst := none } = .next u → u.trace = s.trace ++ es →
    (n = 0 ∨ n < es.length → ∃ t, step { s with rst := some n } = .next t ∧
      t.trace = s.trace ++ es.take n ++ [.pin .oeN true, .pin .data false, .pin .sck false, .pin .lck true,
        .pin .clrN true, .pin .oeN true, .pin .clrN false, .pin .clrN true, .pin .lck false, .pin .lck true,
        .pin .oeN false] ∧
      t.phase = .done ∧ t.startGlyph = 0 ∧ t.startOffset = 0 ∧ t.shiftCount = 1 ∧ t.bufLen = 0 ∧
      t.overflow = false ∧ (∀ r, t.window.get r = 0) ∧
      t.pins = { data := false, sck := false, lck := true, clrN := true, oeN := false } ∧
      t.panel = { sr := 0, out := 0 } ∧ t.rst = none ∧ t.glyphMem = s.glyphMem) ∧
    (0 < n → es.length ≤ n → step { s with rst := some n } = .next { u with rst := some (n - es.length) })

/-- Decode and encode agree: the record of every well-formed instruction decodes to it, with every operand at every value
the record admits, and also followed by zeros (the model's own records, log entry 2) -/
def Obligations.DecodeEncode : Prop :=
  ∀ (i : Instr) (zeros : Nat), i.wf = true → decode (encode i ++ List.replicate zeros 0) = .ok i

/-- The ids of rule R71 decode to their operations: some words of the table. (The model's own reading of a word: log
entry 3) -/
def Obligations.TableWordsDecode : Prop :=
  decodeTableWord 8 0x01 = some (.pinWrite .data false) ∧ decodeTableWord 8 0x04 = some (.emitColumns 0 32) ∧
    decodeTableWord 8 0x06 = some .latch ∧ decodeTableWord 8 0x09 = some .winClear ∧
    decodeTableWord 8 0x0E = some .scanFrame ∧ decodeTableWord 8 0x10 = some .reset ∧
    decodeTableWord 8 0x12 = some .tick ∧ decodeTableWord 8 0x1A = some (.runPass 0) ∧
    decodeTableWord 8 0x80 = some .rowsel0 ∧ decodeTableWord 8 0x1B = none

/-- Rule R72 (a): the unassigned ids 0x1B to 0x1F decode to nothing, whatever follows. (The model's own records: log
entry 2) -/
def Obligations.UnassignedIdsRejected : Prop :=
  ∀ (b : Byte) (rest : List Byte), 0x1B ≤ b.toNat → b.toNat ≤ 0x1F → decode (b :: rest) = .error .unassignedId
end

