-- ==== Sys2Proof/Laws/State.lean ====
section
/-! SUPPORT. One lemma per field per register write: what the write leaves in that field. -/

namespace Sys2Proof.Machine

@[simp] theorem State.setWindow_window (s : State) (w : Window) : (s.setWindow w).window = w := rfl
@[simp] theorem State.setWindow_phase (s : State) (w : Window) : (s.setWindow w).phase = s.phase := rfl
@[simp] theorem State.setWindow_startGlyph (s : State) (w : Window) : (s.setWindow w).startGlyph = s.startGlyph := rfl
@[simp] theorem State.setWindow_startOffset (s : State) (w : Window) : (s.setWindow w).startOffset = s.startOffset := rfl
@[simp] theorem State.setWindow_shiftCount (s : State) (w : Window) : (s.setWindow w).shiftCount = s.shiftCount := rfl
@[simp] theorem State.setWindow_bufLen (s : State) (w : Window) : (s.setWindow w).bufLen = s.bufLen := rfl
@[simp] theorem State.setWindow_overflow (s : State) (w : Window) : (s.setWindow w).overflow = s.overflow := rfl
@[simp] theorem State.setWindow_pins (s : State) (w : Window) : (s.setWindow w).pins = s.pins := rfl
@[simp] theorem State.setWindow_glyphMem (s : State) (w : Window) : (s.setWindow w).glyphMem = s.glyphMem := rfl
@[simp] theorem State.setWindow_panel (s : State) (w : Window) : (s.setWindow w).panel = s.panel := rfl
@[simp] theorem State.setWindow_trace (s : State) (w : Window) : (s.setWindow w).trace = s.trace := rfl
@[simp] theorem State.setWindow_params (s : State) (w : Window) : (s.setWindow w).params = s.params := rfl
@[simp] theorem State.setWindow_pollAnswers (s : State) (w : Window) : (s.setWindow w).pollAnswers = s.pollAnswers := rfl
@[simp] theorem State.setWindow_pollCount (s : State) (w : Window) : (s.setWindow w).pollCount = s.pollCount := rfl
@[simp] theorem State.setWindow_rst (s : State) (w : Window) : (s.setWindow w).rst = s.rst := rfl
@[simp] theorem State.setWindow_requests (s : State) (w : Window) : (s.setWindow w).requests = s.requests := rfl
@[simp] theorem State.setWindow_result (s : State) (w : Window) : (s.setWindow w).result = s.result := rfl

@[simp] theorem State.setPhase_window (s : State) (p : Phase) : (s.setPhase p).window = s.window := rfl
@[simp] theorem State.setPhase_phase (s : State) (p : Phase) : (s.setPhase p).phase = p := rfl
@[simp] theorem State.setPhase_startGlyph (s : State) (p : Phase) : (s.setPhase p).startGlyph = s.startGlyph := rfl
@[simp] theorem State.setPhase_startOffset (s : State) (p : Phase) : (s.setPhase p).startOffset = s.startOffset := rfl
@[simp] theorem State.setPhase_shiftCount (s : State) (p : Phase) : (s.setPhase p).shiftCount = s.shiftCount := rfl
@[simp] theorem State.setPhase_bufLen (s : State) (p : Phase) : (s.setPhase p).bufLen = s.bufLen := rfl
@[simp] theorem State.setPhase_overflow (s : State) (p : Phase) : (s.setPhase p).overflow = s.overflow := rfl
@[simp] theorem State.setPhase_pins (s : State) (p : Phase) : (s.setPhase p).pins = s.pins := rfl
@[simp] theorem State.setPhase_glyphMem (s : State) (p : Phase) : (s.setPhase p).glyphMem = s.glyphMem := rfl
@[simp] theorem State.setPhase_panel (s : State) (p : Phase) : (s.setPhase p).panel = s.panel := rfl
@[simp] theorem State.setPhase_trace (s : State) (p : Phase) : (s.setPhase p).trace = s.trace := rfl
@[simp] theorem State.setPhase_params (s : State) (p : Phase) : (s.setPhase p).params = s.params := rfl
@[simp] theorem State.setPhase_pollAnswers (s : State) (p : Phase) : (s.setPhase p).pollAnswers = s.pollAnswers := rfl
@[simp] theorem State.setPhase_pollCount (s : State) (p : Phase) : (s.setPhase p).pollCount = s.pollCount := rfl
@[simp] theorem State.setPhase_rst (s : State) (p : Phase) : (s.setPhase p).rst = s.rst := rfl
@[simp] theorem State.setPhase_requests (s : State) (p : Phase) : (s.setPhase p).requests = s.requests := rfl
@[simp] theorem State.setPhase_result (s : State) (p : Phase) : (s.setPhase p).result = s.result := rfl

@[simp] theorem State.setCursor_window (s : State) (g : Nat) (o : BitVec 3) : (s.setCursor g o).window = s.window := rfl
@[simp] theorem State.setCursor_phase (s : State) (g : Nat) (o : BitVec 3) : (s.setCursor g o).phase = s.phase := rfl
@[simp] theorem State.setCursor_startGlyph (s : State) (g : Nat) (o : BitVec 3) : (s.setCursor g o).startGlyph = g := rfl
@[simp] theorem State.setCursor_startOffset (s : State) (g : Nat) (o : BitVec 3) : (s.setCursor g o).startOffset = o := rfl
@[simp] theorem State.setCursor_shiftCount (s : State) (g : Nat) (o : BitVec 3) : (s.setCursor g o).shiftCount = s.shiftCount := rfl
@[simp] theorem State.setCursor_bufLen (s : State) (g : Nat) (o : BitVec 3) : (s.setCursor g o).bufLen = s.bufLen := rfl
@[simp] theorem State.setCursor_overflow (s : State) (g : Nat) (o : BitVec 3) : (s.setCursor g o).overflow = s.overflow := rfl
@[simp] theorem State.setCursor_pins (s : State) (g : Nat) (o : BitVec 3) : (s.setCursor g o).pins = s.pins := rfl
@[simp] theorem State.setCursor_glyphMem (s : State) (g : Nat) (o : BitVec 3) : (s.setCursor g o).glyphMem = s.glyphMem := rfl
@[simp] theorem State.setCursor_panel (s : State) (g : Nat) (o : BitVec 3) : (s.setCursor g o).panel = s.panel := rfl
@[simp] theorem State.setCursor_trace (s : State) (g : Nat) (o : BitVec 3) : (s.setCursor g o).trace = s.trace := rfl
@[simp] theorem State.setCursor_params (s : State) (g : Nat) (o : BitVec 3) : (s.setCursor g o).params = s.params := rfl
@[simp] theorem State.setCursor_pollAnswers (s : State) (g : Nat) (o : BitVec 3) : (s.setCursor g o).pollAnswers = s.pollAnswers := rfl
@[simp] theorem State.setCursor_pollCount (s : State) (g : Nat) (o : BitVec 3) : (s.setCursor g o).pollCount = s.pollCount := rfl
@[simp] theorem State.setCursor_rst (s : State) (g : Nat) (o : BitVec 3) : (s.setCursor g o).rst = s.rst := rfl
@[simp] theorem State.setCursor_requests (s : State) (g : Nat) (o : BitVec 3) : (s.setCursor g o).requests = s.requests := rfl
@[simp] theorem State.setCursor_result (s : State) (g : Nat) (o : BitVec 3) : (s.setCursor g o).result = s.result := rfl

@[simp] theorem State.setShiftCount_window (s : State) (n : BitVec 6) : (s.setShiftCount n).window = s.window := rfl
@[simp] theorem State.setShiftCount_phase (s : State) (n : BitVec 6) : (s.setShiftCount n).phase = s.phase := rfl
@[simp] theorem State.setShiftCount_startGlyph (s : State) (n : BitVec 6) : (s.setShiftCount n).startGlyph = s.startGlyph := rfl
@[simp] theorem State.setShiftCount_startOffset (s : State) (n : BitVec 6) : (s.setShiftCount n).startOffset = s.startOffset := rfl
@[simp] theorem State.setShiftCount_shiftCount (s : State) (n : BitVec 6) : (s.setShiftCount n).shiftCount = n := rfl
@[simp] theorem State.setShiftCount_bufLen (s : State) (n : BitVec 6) : (s.setShiftCount n).bufLen = s.bufLen := rfl
@[simp] theorem State.setShiftCount_overflow (s : State) (n : BitVec 6) : (s.setShiftCount n).overflow = s.overflow := rfl
@[simp] theorem State.setShiftCount_pins (s : State) (n : BitVec 6) : (s.setShiftCount n).pins = s.pins := rfl
@[simp] theorem State.setShiftCount_glyphMem (s : State) (n : BitVec 6) : (s.setShiftCount n).glyphMem = s.glyphMem := rfl
@[simp] theorem State.setShiftCount_panel (s : State) (n : BitVec 6) : (s.setShiftCount n).panel = s.panel := rfl
@[simp] theorem State.setShiftCount_trace (s : State) (n : BitVec 6) : (s.setShiftCount n).trace = s.trace := rfl
@[simp] theorem State.setShiftCount_params (s : State) (n : BitVec 6) : (s.setShiftCount n).params = s.params := rfl
@[simp] theorem State.setShiftCount_pollAnswers (s : State) (n : BitVec 6) : (s.setShiftCount n).pollAnswers = s.pollAnswers := rfl
@[simp] theorem State.setShiftCount_pollCount (s : State) (n : BitVec 6) : (s.setShiftCount n).pollCount = s.pollCount := rfl
@[simp] theorem State.setShiftCount_rst (s : State) (n : BitVec 6) : (s.setShiftCount n).rst = s.rst := rfl
@[simp] theorem State.setShiftCount_requests (s : State) (n : BitVec 6) : (s.setShiftCount n).requests = s.requests := rfl
@[simp] theorem State.setShiftCount_result (s : State) (n : BitVec 6) : (s.setShiftCount n).result = s.result := rfl

@[simp] theorem State.setBufLen_window (s : State) (n : Nat) : (s.setBufLen n).window = s.window := rfl
@[simp] theorem State.setBufLen_phase (s : State) (n : Nat) : (s.setBufLen n).phase = s.phase := rfl
@[simp] theorem State.setBufLen_startGlyph (s : State) (n : Nat) : (s.setBufLen n).startGlyph = s.startGlyph := rfl
@[simp] theorem State.setBufLen_startOffset (s : State) (n : Nat) : (s.setBufLen n).startOffset = s.startOffset := rfl
@[simp] theorem State.setBufLen_shiftCount (s : State) (n : Nat) : (s.setBufLen n).shiftCount = s.shiftCount := rfl
@[simp] theorem State.setBufLen_bufLen (s : State) (n : Nat) : (s.setBufLen n).bufLen = n := rfl
@[simp] theorem State.setBufLen_overflow (s : State) (n : Nat) : (s.setBufLen n).overflow = s.overflow := rfl
@[simp] theorem State.setBufLen_pins (s : State) (n : Nat) : (s.setBufLen n).pins = s.pins := rfl
@[simp] theorem State.setBufLen_glyphMem (s : State) (n : Nat) : (s.setBufLen n).glyphMem = s.glyphMem := rfl
@[simp] theorem State.setBufLen_panel (s : State) (n : Nat) : (s.setBufLen n).panel = s.panel := rfl
@[simp] theorem State.setBufLen_trace (s : State) (n : Nat) : (s.setBufLen n).trace = s.trace := rfl
@[simp] theorem State.setBufLen_params (s : State) (n : Nat) : (s.setBufLen n).params = s.params := rfl
@[simp] theorem State.setBufLen_pollAnswers (s : State) (n : Nat) : (s.setBufLen n).pollAnswers = s.pollAnswers := rfl
@[simp] theorem State.setBufLen_pollCount (s : State) (n : Nat) : (s.setBufLen n).pollCount = s.pollCount := rfl
@[simp] theorem State.setBufLen_rst (s : State) (n : Nat) : (s.setBufLen n).rst = s.rst := rfl
@[simp] theorem State.setBufLen_requests (s : State) (n : Nat) : (s.setBufLen n).requests = s.requests := rfl
@[simp] theorem State.setBufLen_result (s : State) (n : Nat) : (s.setBufLen n).result = s.result := rfl

@[simp] theorem State.setOverflow_window (s : State) (v : Bool) : (s.setOverflow v).window = s.window := rfl
@[simp] theorem State.setOverflow_phase (s : State) (v : Bool) : (s.setOverflow v).phase = s.phase := rfl
@[simp] theorem State.setOverflow_startGlyph (s : State) (v : Bool) : (s.setOverflow v).startGlyph = s.startGlyph := rfl
@[simp] theorem State.setOverflow_startOffset (s : State) (v : Bool) : (s.setOverflow v).startOffset = s.startOffset := rfl
@[simp] theorem State.setOverflow_shiftCount (s : State) (v : Bool) : (s.setOverflow v).shiftCount = s.shiftCount := rfl
@[simp] theorem State.setOverflow_bufLen (s : State) (v : Bool) : (s.setOverflow v).bufLen = s.bufLen := rfl
@[simp] theorem State.setOverflow_overflow (s : State) (v : Bool) : (s.setOverflow v).overflow = v := rfl
@[simp] theorem State.setOverflow_pins (s : State) (v : Bool) : (s.setOverflow v).pins = s.pins := rfl
@[simp] theorem State.setOverflow_glyphMem (s : State) (v : Bool) : (s.setOverflow v).glyphMem = s.glyphMem := rfl
@[simp] theorem State.setOverflow_panel (s : State) (v : Bool) : (s.setOverflow v).panel = s.panel := rfl
@[simp] theorem State.setOverflow_trace (s : State) (v : Bool) : (s.setOverflow v).trace = s.trace := rfl
@[simp] theorem State.setOverflow_params (s : State) (v : Bool) : (s.setOverflow v).params = s.params := rfl
@[simp] theorem State.setOverflow_pollAnswers (s : State) (v : Bool) : (s.setOverflow v).pollAnswers = s.pollAnswers := rfl
@[simp] theorem State.setOverflow_pollCount (s : State) (v : Bool) : (s.setOverflow v).pollCount = s.pollCount := rfl
@[simp] theorem State.setOverflow_rst (s : State) (v : Bool) : (s.setOverflow v).rst = s.rst := rfl
@[simp] theorem State.setOverflow_requests (s : State) (v : Bool) : (s.setOverflow v).requests = s.requests := rfl
@[simp] theorem State.setOverflow_result (s : State) (v : Bool) : (s.setOverflow v).result = s.result := rfl

@[simp] theorem State.setResult_window (s : State) (r : Result) : (s.setResult r).window = s.window := rfl
@[simp] theorem State.setResult_phase (s : State) (r : Result) : (s.setResult r).phase = s.phase := rfl
@[simp] theorem State.setResult_startGlyph (s : State) (r : Result) : (s.setResult r).startGlyph = s.startGlyph := rfl
@[simp] theorem State.setResult_startOffset (s : State) (r : Result) : (s.setResult r).startOffset = s.startOffset := rfl
@[simp] theorem State.setResult_shiftCount (s : State) (r : Result) : (s.setResult r).shiftCount = s.shiftCount := rfl
@[simp] theorem State.setResult_bufLen (s : State) (r : Result) : (s.setResult r).bufLen = s.bufLen := rfl
@[simp] theorem State.setResult_overflow (s : State) (r : Result) : (s.setResult r).overflow = s.overflow := rfl
@[simp] theorem State.setResult_pins (s : State) (r : Result) : (s.setResult r).pins = s.pins := rfl
@[simp] theorem State.setResult_glyphMem (s : State) (r : Result) : (s.setResult r).glyphMem = s.glyphMem := rfl
@[simp] theorem State.setResult_panel (s : State) (r : Result) : (s.setResult r).panel = s.panel := rfl
@[simp] theorem State.setResult_trace (s : State) (r : Result) : (s.setResult r).trace = s.trace := rfl
@[simp] theorem State.setResult_params (s : State) (r : Result) : (s.setResult r).params = s.params := rfl
@[simp] theorem State.setResult_pollAnswers (s : State) (r : Result) : (s.setResult r).pollAnswers = s.pollAnswers := rfl
@[simp] theorem State.setResult_pollCount (s : State) (r : Result) : (s.setResult r).pollCount = s.pollCount := rfl
@[simp] theorem State.setResult_rst (s : State) (r : Result) : (s.setResult r).rst = s.rst := rfl
@[simp] theorem State.setResult_requests (s : State) (r : Result) : (s.setResult r).requests = s.requests := rfl
@[simp] theorem State.setResult_result (s : State) (r : Result) : (s.setResult r).result = r := rfl

@[simp] theorem State.setGlyphMem_window (s : State) (m : Memory) : (s.setGlyphMem m).window = s.window := rfl
@[simp] theorem State.setGlyphMem_phase (s : State) (m : Memory) : (s.setGlyphMem m).phase = s.phase := rfl
@[simp] theorem State.setGlyphMem_startGlyph (s : State) (m : Memory) : (s.setGlyphMem m).startGlyph = s.startGlyph := rfl
@[simp] theorem State.setGlyphMem_startOffset (s : State) (m : Memory) : (s.setGlyphMem m).startOffset = s.startOffset := rfl
@[simp] theorem State.setGlyphMem_shiftCount (s : State) (m : Memory) : (s.setGlyphMem m).shiftCount = s.shiftCount := rfl
@[simp] theorem State.setGlyphMem_bufLen (s : State) (m : Memory) : (s.setGlyphMem m).bufLen = s.bufLen := rfl
@[simp] theorem State.setGlyphMem_overflow (s : State) (m : Memory) : (s.setGlyphMem m).overflow = s.overflow := rfl
@[simp] theorem State.setGlyphMem_pins (s : State) (m : Memory) : (s.setGlyphMem m).pins = s.pins := rfl
@[simp] theorem State.setGlyphMem_glyphMem (s : State) (m : Memory) : (s.setGlyphMem m).glyphMem = m := rfl
@[simp] theorem State.setGlyphMem_panel (s : State) (m : Memory) : (s.setGlyphMem m).panel = s.panel := rfl
@[simp] theorem State.setGlyphMem_trace (s : State) (m : Memory) : (s.setGlyphMem m).trace = s.trace := rfl
@[simp] theorem State.setGlyphMem_params (s : State) (m : Memory) : (s.setGlyphMem m).params = s.params := rfl
@[simp] theorem State.setGlyphMem_pollAnswers (s : State) (m : Memory) : (s.setGlyphMem m).pollAnswers = s.pollAnswers := rfl
@[simp] theorem State.setGlyphMem_pollCount (s : State) (m : Memory) : (s.setGlyphMem m).pollCount = s.pollCount := rfl
@[simp] theorem State.setGlyphMem_rst (s : State) (m : Memory) : (s.setGlyphMem m).rst = s.rst := rfl
@[simp] theorem State.setGlyphMem_requests (s : State) (m : Memory) : (s.setGlyphMem m).requests = s.requests := rfl
@[simp] theorem State.setGlyphMem_result (s : State) (m : Memory) : (s.setGlyphMem m).result = s.result := rfl

@[simp] theorem State.record_window (s : State) (e : Event) : (s.record e).window = s.window := rfl
@[simp] theorem State.record_phase (s : State) (e : Event) : (s.record e).phase = s.phase := rfl
@[simp] theorem State.record_startGlyph (s : State) (e : Event) : (s.record e).startGlyph = s.startGlyph := rfl
@[simp] theorem State.record_startOffset (s : State) (e : Event) : (s.record e).startOffset = s.startOffset := rfl
@[simp] theorem State.record_shiftCount (s : State) (e : Event) : (s.record e).shiftCount = s.shiftCount := rfl
@[simp] theorem State.record_bufLen (s : State) (e : Event) : (s.record e).bufLen = s.bufLen := rfl
@[simp] theorem State.record_overflow (s : State) (e : Event) : (s.record e).overflow = s.overflow := rfl
@[simp] theorem State.record_pins (s : State) (e : Event) : (s.record e).pins = s.pins.after e := rfl
@[simp] theorem State.record_glyphMem (s : State) (e : Event) : (s.record e).glyphMem = s.glyphMem := rfl
@[simp] theorem State.record_panel (s : State) (e : Event) : (s.record e).panel = s.panel.after s.pins e := rfl
@[simp] theorem State.record_trace (s : State) (e : Event) : (s.record e).trace = s.trace ++ [e] := rfl
@[simp] theorem State.record_params (s : State) (e : Event) : (s.record e).params = s.params := rfl
@[simp] theorem State.record_pollAnswers (s : State) (e : Event) : (s.record e).pollAnswers = s.pollAnswers := rfl
@[simp] theorem State.record_pollCount (s : State) (e : Event) : (s.record e).pollCount = s.pollCount := rfl
@[simp] theorem State.record_rst (s : State) (e : Event) : (s.record e).rst = s.rst := rfl
@[simp] theorem State.record_requests (s : State) (e : Event) : (s.record e).requests = s.requests := rfl
@[simp] theorem State.record_result (s : State) (e : Event) : (s.record e).result = s.result := rfl

@[simp] theorem State.takePoll_window (s : State) : s.takePoll.window = s.window := rfl
@[simp] theorem State.takePoll_phase (s : State) : s.takePoll.phase = s.phase := rfl
@[simp] theorem State.takePoll_startGlyph (s : State) : s.takePoll.startGlyph = s.startGlyph := rfl
@[simp] theorem State.takePoll_startOffset (s : State) : s.takePoll.startOffset = s.startOffset := rfl
@[simp] theorem State.takePoll_shiftCount (s : State) : s.takePoll.shiftCount = s.shiftCount := rfl
@[simp] theorem State.takePoll_bufLen (s : State) : s.takePoll.bufLen = s.bufLen := rfl
@[simp] theorem State.takePoll_overflow (s : State) : s.takePoll.overflow = s.overflow := rfl
@[simp] theorem State.takePoll_pins (s : State) : s.takePoll.pins = s.pins := rfl
@[simp] theorem State.takePoll_glyphMem (s : State) : s.takePoll.glyphMem = s.glyphMem := rfl
@[simp] theorem State.takePoll_panel (s : State) : s.takePoll.panel = s.panel := rfl
@[simp] theorem State.takePoll_trace (s : State) : s.takePoll.trace = s.trace ++ [.poll s.nextAnswer] := rfl
@[simp] theorem State.takePoll_params (s : State) : s.takePoll.params = s.params := rfl
@[simp] theorem State.takePoll_pollAnswers (s : State) : s.takePoll.pollAnswers = s.pollAnswers.tail := rfl
@[simp] theorem State.takePoll_pollCount (s : State) : s.takePoll.pollCount = s.pollCount + 1 := rfl
@[simp] theorem State.takePoll_rst (s : State) : s.takePoll.rst = s.rst := rfl
@[simp] theorem State.takePoll_requests (s : State) : s.takePoll.requests = s.requests := rfl
@[simp] theorem State.takePoll_result (s : State) : s.takePoll.result = s.result := rfl

end Sys2Proof.Machine
end

