-- ==== Sys2Proof/Laws/Window.lean ====
section
/-! SUPPORT. The window rows: what a read gives after each window operation, bit by bit. -/

namespace Sys2Proof.Machine

/-- Two windows with the same rows are the same window. -/
theorem Window.ext_get {w v : Window} (h : ∀ r, w.get r = v.get r) : w = v := by
  cases w; cases v
  simp only [Window.mk.injEq]
  exact ⟨h 0, h 1, h 2, h 3, h 4, h 5, h 6, h 7⟩

@[simp] theorem Window.get_ofRows (f : Fin 8 → Word) (r : Fin 8) : (Window.ofRows f).get r = f r := by
  fin_cases r <;> rfl

@[simp] theorem Window.get_set (w : Window) (r r' : Fin 8) (v : Word) :
    (w.set r v).get r' = if r' = r then v else w.get r' := by
  fin_cases r <;> fin_cases r' <;> rfl

@[simp] theorem Window.get_zero (r : Fin 8) : Window.zero.get r = 0 := by
  fin_cases r <;> rfl

theorem Window.ofRows_zero : Window.ofRows (fun _ => 0) = Window.zero := rfl

/-- A written pixel reads as the value written, the others as before (rule R105). -/
theorem pixelOf_withPixel (v : Word) (c c' : Fin 32) (b : Bool) :
    pixelOf (withPixel v c b) c' = if c' = c then b else pixelOf v c' := by
  have h1 := c.isLt
  have h2 := c'.isLt
  by_cases h : c' = c
  · subst h
    have h0 : 31 - c'.val < 32 := by omega
    cases b <;> simp [pixelOf, withPixel, h0]
  · have hne : c'.val ≠ c.val := fun e => h (Fin.ext e)
    have hlt : 31 - c'.val < 32 := by omega
    have hb : ¬ (31 - c'.val - (31 - c.val) = 0 ∧ ¬ 31 - c'.val < 31 - c.val) := by omega
    simp only [pixelOf, withPixel, if_neg h, BitVec.getLsbD_or, BitVec.getLsbD_and, BitVec.getLsbD_not,
      BitVec.getLsbD_shiftLeft, BitVec.getLsbD_setWidth, BitVec.getLsbD_one, BitVec.getLsbD_ofBool, hlt,
      decide_true, Bool.true_and]
    by_cases hl : 31 - c'.val < 31 - c.val
    · simp [hl]
    · have hz : ¬ (31 - c'.val - (31 - c.val) = 0) := fun e => hb ⟨e, hl⟩
      simp [hl, hz]

/-- A shifted row holds at column `c` what column `c + n` held, dark past the right edge (rule R106 item 3). -/
theorem pixelOf_shiftedLeft (v : Word) (n : Nat) (c : Fin 32) :
    pixelOf (shiftedLeft v n) c = if h : c.val + n < 32 then pixelOf v ⟨c.val + n, h⟩ else false := by
  have h1 := c.isLt
  by_cases h : c.val + n < 32
  · have e : 31 - c.val - n = 31 - (c.val + n) := by omega
    have hl : ¬ 31 - c.val < n := by omega
    have h0 : 31 - c.val < 32 := by omega
    simp only [pixelOf, shiftedLeft, BitVec.getLsbD_shiftLeft, h, hl, h0, e, dif_pos, decide_true, decide_false,
      Bool.not_false, Bool.true_and]
  · have hl : 31 - c.val < n := by omega
    simp [pixelOf, shiftedLeft, h, hl]

@[simp] theorem pixelOf_zero (c : Fin 32) : pixelOf 0#32 c = false := by simp [pixelOf]

/-- A row with no lit pixel is 0. -/
theorem eq_zero_of_pixels {v : Word} (h : ∀ c, pixelOf v c = false) : v = 0 := by
  apply BitVec.eq_of_getLsbD_eq
  intro i hi
  have := h ⟨31 - i, by omega⟩
  simp only [pixelOf] at this
  rw [show 31 - (31 - i) = i by omega] at this
  simp [this]

theorem winClear_get (s : State) (r : Fin 8) : (winClear s).window.get r = 0 := by simp [winClear]

theorem winSetPixel_pixel (s : State) (r r' : Fin 8) (c c' : Fin 32) (b : Bool) :
    (winSetPixel r c b s).window.pixel r' c' = if r' = r ∧ c' = c then b else s.window.pixel r' c' := by
  by_cases hr : r' = r
  · subst hr
    by_cases hc : c' = c <;> simp [winSetPixel, Window.pixel, pixelOf_withPixel, hc]
  · simp [winSetPixel, Window.pixel, hr]

theorem winShiftLeft_get (s : State) (n : Nat) (r : Fin 8) :
    (winShiftLeft n s).window.get r = shiftedLeft (s.window.get r) n := by simp [winShiftLeft]

end Sys2Proof.Machine
end

