-- ==== Sys2Proof/Laws/Emit.lean ====
section
/-! SUPPORT. Every bus and scanner operation puts one fixed sequence of events on the lines: `emit` says once what that
does to a state, and one equation per operation says which sequence. -/

namespace Sys2Proof.Machine

@[simp] theorem State.emit_nil (s : State) : s.emit [] = s := rfl

@[simp] theorem State.emit_cons (s : State) (e : Event) (es : List Event) :
    s.emit (e :: es) = (s.record e).emit es := rfl

theorem State.emit_append (s : State) (es fs : List Event) : s.emit (es ++ fs) = (s.emit es).emit fs := by
  induction es generalizing s with
  | nil => rfl
  | cons e es ih => exact ih (s.record e)

theorem Pins.foldl_after_append (p : Pins) (es fs : List Event) :
    (es ++ fs).foldl Pins.after p = fs.foldl Pins.after (es.foldl Pins.after p) := by simp

theorem Panel.afterAll_append (q : Panel) (p : Pins) (es fs : List Event) :
    q.afterAll p (es ++ fs) = (q.afterAll p es).afterAll (es.foldl Pins.after p) fs := by
  induction es generalizing q p with
  | nil => rfl
  | cons e es ih => exact ih _ _

/-- All that a sequence of events does: the lines, the panel and the trace follow it, nothing else moves. -/
theorem State.emit_eq (s : State) (es : List Event) :
    s.emit es =
      { s with
        pins := es.foldl Pins.after s.pins
        panel := s.panel.afterAll s.pins es
        trace := s.trace ++ es } := by
  induction es generalizing s with
  | nil => cases s; simp [State.emit, Panel.afterAll]
  | cons e es ih => rw [State.emit, ih]; simp [State.record, Panel.afterAll]

theorem State.emit_pins (s : State) (es : List Event) : (s.emit es).pins = es.foldl Pins.after s.pins := by
  rw [State.emit_eq]

theorem State.emit_panel (s : State) (es : List Event) : (s.emit es).panel = s.panel.afterAll s.pins es := by
  rw [State.emit_eq]

theorem State.emit_trace (s : State) (es : List Event) : (s.emit es).trace = s.trace ++ es := by rw [State.emit_eq]

@[simp] theorem State.emit_window (s : State) (es : List Event) : (s.emit es).window = s.window := by rw [State.emit_eq]

@[simp] theorem State.emit_phase (s : State) (es : List Event) : (s.emit es).phase = s.phase := by rw [State.emit_eq]

@[simp] theorem State.emit_startGlyph (s : State) (es : List Event) : (s.emit es).startGlyph = s.startGlyph := by rw [State.emit_eq]

@[simp] theorem State.emit_startOffset (s : State) (es : List Event) : (s.emit es).startOffset = s.startOffset := by rw [State.emit_eq]

@[simp] theorem State.emit_shiftCount (s : State) (es : List Event) : (s.emit es).shiftCount = s.shiftCount := by rw [State.emit_eq]

@[simp] theorem State.emit_bufLen (s : State) (es : List Event) : (s.emit es).bufLen = s.bufLen := by rw [State.emit_eq]

@[simp] theorem State.emit_overflow (s : State) (es : List Event) : (s.emit es).overflow = s.overflow := by rw [State.emit_eq]

@[simp] theorem State.emit_glyphMem (s : State) (es : List Event) : (s.emit es).glyphMem = s.glyphMem := by rw [State.emit_eq]

@[simp] theorem State.emit_params (s : State) (es : List Event) : (s.emit es).params = s.params := by rw [State.emit_eq]

@[simp] theorem State.emit_pollAnswers (s : State) (es : List Event) : (s.emit es).pollAnswers = s.pollAnswers := by rw [State.emit_eq]

@[simp] theorem State.emit_pollCount (s : State) (es : List Event) : (s.emit es).pollCount = s.pollCount := by rw [State.emit_eq]

@[simp] theorem State.emit_rst (s : State) (es : List Event) : (s.emit es).rst = s.rst := by rw [State.emit_eq]

@[simp] theorem State.emit_requests (s : State) (es : List Event) : (s.emit es).requests = s.requests := by rw [State.emit_eq]

@[simp] theorem State.emit_result (s : State) (es : List Event) : (s.emit es).result = s.result := by rw [State.emit_eq]

/-! The operations as event sequences. -/

theorem pinWrite_eq (l : Line) (v : Bool) (s : State) : pinWrite l v s = s.emit [.pin l v] := rfl

theorem emitBit_eq (b : Bool) (s : State) : emitBit b s = s.emit (bitcellEvents b) := rfl

theorem emitBits_eq (bs : List Bool) (s : State) : emitBits bs s = s.emit (bs.flatMap bitcellEvents) := by
  induction bs generalizing s with
  | nil => rfl
  | cons b bs ih => rw [emitBits, ih, emitBit_eq, List.flatMap_cons, State.emit_append]

theorem shiftOut8_eq (v : Byte) (s : State) : shiftOut8 v s = s.emit (chunkEvents v) := emitBits_eq _ s

theorem shiftOutAll_eq (vs : List Byte) (s : State) : shiftOutAll vs s = s.emit (vs.flatMap chunkEvents) := by
  induction vs generalizing s with
  | nil => rfl
  | cons v vs ih => rw [shiftOutAll, ih, shiftOut8_eq, List.flatMap_cons, State.emit_append]

theorem emitColumns_eq (p n : Nat) (s : State) :
    emitColumns p n s = s.emit ((chunksOf p (chunkCount n)).flatMap chunkEvents) := shiftOutAll_eq _ s

/-- Chunk `k` of a window word is its bits `8*k + 7` to `8*k`. -/
theorem chunkOf_toNat (p : Word) (k : Nat) : chunkOf p.toNat k = p.extractLsb' (8 * k) 8 := rfl

/-- The four chunks of a row, most significant first (rules R63, R69 a). -/
theorem colfieldEvents_eq (p : Word) :
    (chunksOf p.toNat (chunkCount 32)).flatMap chunkEvents = colfieldEvents p := by
  simp [chunkCount, chunksOf, chunkOf_toNat, colfieldEvents]

theorem latch_eq (s : State) : latch s = s.emit latchpulseEvents := rfl

theorem setOe_eq (v : Bool) (s : State) : setOe v s = s.emit [.pin .oeN v] := rfl

theorem clearRegs_eq (s : State) : clearRegs s = s.emit clearseqEvents := rfl

theorem rowDwell_eq (s : State) : rowDwell s = s.emit [.dwellRow] := rfl

/-- SCAN_ROW puts the ROWFRAME of its row on the wire (rules R65, R111). -/
theorem scanRow_eq (r : Fin 8) (s : State) : scanRow r s = s.emit (rowframeEvents (s.window.get r) (rowsel r)) := by
  rw [scanRow, emitColumns_eq, emitRowscan, shiftOut8_eq, latch_eq, rowDwell_eq, colfieldEvents_eq, winReadRow]
  simp only [rowframeEvents, State.emit_append]

theorem scanRows_eq (rs : List (Fin 8)) (s : State) :
    scanRows rs s = s.emit (rs.flatMap fun r => rowframeEvents (s.window.get r) (rowsel r)) := by
  induction rs generalizing s with
  | nil => rfl
  | cons r rs ih => rw [scanRows, ih, scanRow_eq, List.flatMap_cons, State.emit_append, State.emit_window]

/-- SCAN_FRAME puts the FRAME of the window on the wire (rules R67, R112). -/
theorem scanFrame_eq (s : State) : scanFrame s = s.emit (frameEvents s.window) := scanRows_eq rows s

/-- What RESET leaves (rules R34, R181): its registers written, then its eleven events. -/
theorem resetOp_eq (s : State) :
    resetOp s =
      (winClear
        ((((((s.setPhase .done).setOverflow false).setBufLen 0).setCursor 0 0).setShiftCount 1).setResult .none)).emit
        resetEvents := rfl

end Sys2Proof.Machine
end

