-- ==== Sys2Proof/Laws/Operands.lean ====
section
/-! SUPPORT. What the operand functions answer inside and outside their ranges, and the bits on the wire read as
numbers. -/

namespace Sys2Proof.Machine

theorem rowOperand_fin (r : Fin 8) : rowOperand r.val = some r := by simp [rowOperand]

theorem rowOperand_lt {row : Nat} (h : row < 8) : rowOperand row = some ⟨row, h⟩ := by simp [rowOperand, h]

theorem rowOperand_ge {row : Nat} (h : 8 ≤ row) : rowOperand row = none := by simp [rowOperand]; omega

theorem colOperand_lt {col : Nat} (h : col < 32) : colOperand col = some ⟨col, h⟩ := by simp [colOperand, h]

theorem colOperand_ge {col : Nat} (h : 32 ≤ col) : colOperand col = none := by simp [colOperand]; omega

theorem glyphColOperand_lt {c : Nat} (h : c < 8) : glyphColOperand c = some ⟨c, h⟩ := by simp [glyphColOperand, h]

theorem glyphColOperand_ge {c : Nat} (h : 8 ≤ c) : glyphColOperand c = none := by simp [glyphColOperand]; omega

theorem length_chunkBits (v : Byte) : (chunkBits v).length = 8 := rfl

/-- The last bit of a chunk on the wire is `v[0]` (rule R62). -/
theorem chunkBits_last (v : Byte) :
    chunkBits v =
      [v.getLsbD 7, v.getLsbD 6, v.getLsbD 5, v.getLsbD 4, v.getLsbD 3, v.getLsbD 2, v.getLsbD 1] ++ [v.getLsbD 0] :=
  rfl

theorem length_flatMap_chunkBits (vs : List Byte) : (vs.flatMap chunkBits).length = 8 * vs.length := by
  induction vs with
  | nil => rfl
  | cons v vs ih => rw [List.flatMap_cons, List.length_append, ih, length_chunkBits, List.length_cons]; omega

theorem length_chunksOf (p n : Nat) : (chunksOf p n).length = n := by
  induction n with
  | zero => rfl
  | succ n ih => rw [chunksOf, List.length_cons, ih]

theorem foldl_msbFirst (bs : List Bool) (n : Nat) :
    bs.foldl (fun n b => 2 * n + b.toNat) n = n * 2 ^ bs.length + msbFirst bs := by
  induction bs generalizing n with
  | nil => simp [msbFirst]
  | cons b bs ih =>
    have hb : msbFirst (b :: bs) = b.toNat * 2 ^ bs.length + msbFirst bs := by
      rw [msbFirst, List.foldl_cons, ih]; simp
    rw [List.foldl_cons, ih, hb, List.length_cons, Nat.pow_succ]
    ring

theorem msbFirst_append (bs cs : List Bool) : msbFirst (bs ++ cs) = msbFirst bs * 2 ^ cs.length + msbFirst cs := by
  rw [msbFirst, List.foldl_append, ← msbFirst, foldl_msbFirst]

theorem msbFirst_chunkBits (v : Byte) : msbFirst (chunkBits v) = v.toNat := by
  revert v; decide +kernel

/-- The chunks of a pattern, read as one number, are its low bits (rule R69 a). -/
theorem msbFirst_chunksOf (p n : Nat) : msbFirst ((chunksOf p n).flatMap chunkBits) = p % 2 ^ (8 * n) := by
  induction n with
  | zero => simp [chunksOf, msbFirst, Nat.mod_one]
  | succ n ih =>
    rw [chunksOf, List.flatMap_cons, msbFirst_append, ih, msbFirst_chunkBits, length_flatMap_chunkBits,
      length_chunksOf]
    simp only [chunkOf, BitVec.toNat_ofNat, Nat.shiftRight_eq_div_pow]
    rw [show 8 * (n + 1) = 8 * n + 8 by ring, Nat.pow_add, Nat.mod_mul]
    ring

end Sys2Proof.Machine
end

