-- ==== Sys2Proof/Laws/Wire.lean ====
section
/-! SUPPORT. What a sequence of events does on the wire, for sequences built by appending, and for the one shape every
format is made of: the BITCELLs of a list of bits. -/

namespace Sys2Proof.Machine

@[simp] theorem Pins.afterAll_nil (p : Pins) : p.afterAll [] = p := rfl

@[simp] theorem Pins.afterAll_cons (p : Pins) (e : Event) (es : List Event) :
    p.afterAll (e :: es) = (p.after e).afterAll es := rfl

theorem Pins.afterAll_append (p : Pins) (es fs : List Event) :
    p.afterAll (es ++ fs) = (p.afterAll es).afterAll fs := List.foldl_append

theorem State.emit_afterAll (s : State) (es : List Event) : (s.emit es).pins = s.pins.afterAll es := s.emit_pins es

theorem clockedBits_append (p : Pins) (es fs : List Event) :
    clockedBits p (es ++ fs) = clockedBits p es ++ clockedBits (p.afterAll es) fs := by
  induction es generalizing p with
  | nil => rfl
  | cons e es ih =>
    rw [List.cons_append, clockedBits, clockedBits, ih]
    split <;> simp

theorem risesIn_append (l : Line) (p : Pins) (es fs : List Event) :
    risesIn l p (es ++ fs) = risesIn l p es + risesIn l (p.afterAll es) fs := by
  induction es generalizing p with
  | nil => simp [risesIn]
  | cons e es ih => rw [List.cons_append, risesIn, risesIn, ih, Pins.afterAll_cons, Nat.add_assoc]

theorem latchScan_append (n : Nat) (p : Pins) (es fs : List Event) :
    latchScan n p (es ++ fs) = (latchScan n p es).bind fun m => latchScan m (p.afterAll es) fs := by
  induction es generalizing n p with
  | nil => rfl
  | cons e es ih =>
    rw [List.cons_append, latchScan, latchScan, Pins.afterAll_cons]
    split
    · split
      · exact ih ..
      · rfl
    · split <;> exact ih ..

theorem blankWhileClear_append (p : Pins) (es fs : List Event) :
    blankWhileClear p (es ++ fs) = (blankWhileClear p es && blankWhileClear (p.afterAll es) fs) := by
  induction es generalizing p with
  | nil => rfl
  | cons e es ih => rw [List.cons_append, blankWhileClear, blankWhileClear, ih, Pins.afterAll_cons, Bool.and_assoc]

theorem latchedValues_append (q : Panel) (p : Pins) (es fs : List Event) :
    latchedValues q p (es ++ fs) =
      latchedValues q p es ++ latchedValues (q.afterAll p es) (p.afterAll es) fs := by
  induction es generalizing q p with
  | nil => rfl
  | cons e es ih =>
    rw [List.cons_append, latchedValues, latchedValues, ih, Panel.afterAll, Pins.afterAll_cons]
    split <;> simp

theorem pinCount_append (es fs : List Event) : pinCount (es ++ fs) = pinCount es + pinCount fs := List.countP_append

theorem pollCountOf_append (es fs : List Event) : pollCountOf (es ++ fs) = pollCountOf es + pollCountOf fs :=
  List.countP_append

theorem dwellCount_append (es fs : List Event) : dwellCount (es ++ fs) = dwellCount es + dwellCount fs :=
  List.countP_append

/-! The BITCELLs of a list of bits. -/

/-- The BITCELLs of a list of bits, first bit first. -/
def cells (bs : List Bool) : List Event := bs.flatMap bitcellEvents

theorem cells_nil : cells [] = [] := rfl

theorem cells_cons (b : Bool) (bs : List Bool) : cells (b :: bs) = bitcellEvents b ++ cells bs := rfl

theorem cells_append (bs cs : List Bool) : cells (bs ++ cs) = cells bs ++ cells cs := List.flatMap_append

theorem bitcell_afterAll (p : Pins) (b : Bool) : p.afterAll (bitcellEvents b) = { p with sck := true, data := b } := rfl

/-- The levels after the cells: the clock high, the last bit on `DATA`. -/
theorem cells_afterAll (p : Pins) (bs : List Bool) (b : Bool) :
    p.afterAll (cells (bs ++ [b])) = { p with sck := true, data := b } := by
  rw [cells_append, Pins.afterAll_append, cells_cons, cells_nil, List.append_nil, bitcell_afterAll]
  induction bs generalizing p with
  | nil => rfl
  | cons c cs ih =>
    have := ih (p.afterAll (bitcellEvents c))
    rw [cells_cons, Pins.afterAll_append, this]
    rfl

theorem cells_afterAll_lck (p : Pins) (bs : List Bool) : (p.afterAll (cells bs)).lck = p.lck := by
  induction bs generalizing p with
  | nil => rfl
  | cons c cs ih => rw [cells_cons, Pins.afterAll_append, ih]; rfl

theorem cells_afterAll_clrN (p : Pins) (bs : List Bool) : (p.afterAll (cells bs)).clrN = p.clrN := by
  induction bs generalizing p with
  | nil => rfl
  | cons c cs ih => rw [cells_cons, Pins.afterAll_append, ih]; rfl

theorem cells_afterAll_oeN (p : Pins) (bs : List Bool) : (p.afterAll (cells bs)).oeN = p.oeN := by
  induction bs generalizing p with
  | nil => rfl
  | cons c cs ih => rw [cells_cons, Pins.afterAll_append, ih]; rfl

/-- The bits clocked are the bits of the cells. -/
theorem clockedBits_cells (p : Pins) (bs : List Bool) : clockedBits p (cells bs) = bs := by
  induction bs generalizing p with
  | nil => rfl
  | cons b bs ih => rw [cells_cons, clockedBits_append, ih]; simp [bitcellEvents, clockedBits, isRise, Pins.after, Pins.level]

theorem risesIn_sck_cells (p : Pins) (bs : List Bool) : risesIn .sck p (cells bs) = bs.length := by
  induction bs generalizing p with
  | nil => rfl
  | cons b bs ih =>
    rw [cells_cons, risesIn_append, ih]
    simp [bitcellEvents, risesIn, isRise, Pins.after, Pins.level, Nat.add_comm]

theorem risesIn_lck_cells (p : Pins) (bs : List Bool) : risesIn .lck p (cells bs) = 0 := by
  induction bs generalizing p with
  | nil => rfl
  | cons b bs ih => rw [cells_cons, risesIn_append, ih]; simp [bitcellEvents, risesIn, isRise]

theorem length_cells (bs : List Bool) : (cells bs).length = 3 * bs.length := by
  induction bs with
  | nil => rfl
  | cons b bs ih => simp [cells_cons, bitcellEvents, ih]; omega

theorem pinCount_cells (bs : List Bool) : pinCount (cells bs) = 3 * bs.length := by
  induction bs with
  | nil => rfl
  | cons b bs ih => rw [cells_cons, pinCount_append, ih]; simp [bitcellEvents, pinCount]; omega

theorem pollCountOf_cells (bs : List Bool) : pollCountOf (cells bs) = 0 := by
  induction bs with
  | nil => rfl
  | cons b bs ih => rw [cells_cons, pollCountOf_append, ih]; simp [bitcellEvents, pollCountOf]

theorem dwellCount_cells (bs : List Bool) : dwellCount (cells bs) = 0 := by
  induction bs with
  | nil => rfl
  | cons b bs ih => rw [cells_cons, dwellCount_append, ih]; simp [bitcellEvents, dwellCount]

/-- The cells count their bits on top of the running count of `latchScan`. -/
theorem latchScan_cells (n : Nat) (p : Pins) (bs : List Bool) : latchScan n p (cells bs) = some (n + bs.length) := by
  induction bs generalizing n p with
  | nil => rfl
  | cons b bs ih =>
    rw [cells_cons, latchScan_append]
    have : latchScan n p (bitcellEvents b) = some (n + 1) := by
      simp [bitcellEvents, latchScan, isRise, Pins.after, Pins.level]
    rw [this, Option.bind_some, ih, List.length_cons]
    congr 1
    omega

theorem blankWhileClear_cells (p : Pins) (bs : List Bool) (h : p.clrN = true ∨ p.oeN = true) :
    blankWhileClear p (cells bs) = true := by
  induction bs generalizing p with
  | nil => rfl
  | cons b bs ih =>
    rw [cells_cons, blankWhileClear_append, ih (p.afterAll (bitcellEvents b)) h]
    have h' : (p.clrN || p.oeN) = true := by rcases h with h | h <;> simp [h]
    simp [bitcellEvents, blankWhileClear, Pins.after, h']

/-! The formats as cells. -/

/-- The 32 bits of a row pattern in the order they are sent. -/
def patternBits (p : Word) : List Bool :=
  chunkBits (p.extractLsb' 24 8) ++ chunkBits (p.extractLsb' 16 8) ++ chunkBits (p.extractLsb' 8 8) ++
    chunkBits (p.extractLsb' 0 8)

theorem chunkEvents_cells (v : Byte) : chunkEvents v = cells (chunkBits v) := rfl

theorem colfieldEvents_cells (p : Word) : colfieldEvents p = cells (patternBits p) := by
  simp only [colfieldEvents, patternBits, chunkEvents_cells, cells_append]

/-- A row frame: forty cells, the latch pulse, the dwell. -/
theorem rowframeEvents_cells (p : Word) (v : Byte) :
    rowframeEvents p v = cells (patternBits p ++ chunkBits v) ++ [.pin .lck false, .pin .lck true, .dwellRow] := by
  simp [rowframeEvents, colfieldEvents_cells, chunkEvents_cells, cells_append, latchpulseEvents]

theorem length_patternBits (p : Word) : (patternBits p).length = 32 := rfl

theorem flatMap_chunkEvents (vs : List Byte) : vs.flatMap chunkEvents = cells (vs.flatMap chunkBits) := by
  induction vs with
  | nil => rfl
  | cons v vs ih => rw [List.flatMap_cons, List.flatMap_cons, cells_append, ih]; rfl

theorem msbFirst_patternBits (p : Word) : msbFirst (patternBits p) = p.toNat := by
  simp only [patternBits, msbFirst_append, msbFirst_chunkBits, length_chunkBits, BitVec.extractLsb'_toNat,
    Nat.shiftRight_eq_div_pow]
  have := p.isLt
  omega

/-- The `c`-th bit of a pattern on the wire is window column `c` (rules R21, R63). -/
theorem patternBits_eq (p : Word) : patternBits p = (List.finRange 32).map (pixelOf p) := by
  simp [patternBits, chunkBits, pixelOf, List.finRange]

/-! The panel behind the wire (rule R165). -/

/-- The shift register after the cells of a list of bits, with `CLR_n` high. -/
def shiftIn (sr : Frame40) (bs : List Bool) : Frame40 :=
  bs.foldl (fun x b => (x <<< 1) ||| (BitVec.ofBool b).setWidth 40) sr

theorem cells_panel (q : Panel) (p : Pins) (bs : List Bool) (h : p.clrN = true) :
    q.afterAll p (cells bs) = { q with sr := shiftIn q.sr bs } := by
  induction bs generalizing q p with
  | nil => rfl
  | cons b bs ih =>
    rw [cells_cons, Panel.afterAll_append]
    have : q.afterAll p (bitcellEvents b) = { q with sr := (q.sr <<< 1) ||| (BitVec.ofBool b).setWidth 40 } := by
      simp [bitcellEvents, Panel.afterAll, Panel.after, Pins.after, h]
    rw [this]
    exact ih _ _ h

theorem shiftIn_toNat (sr : Frame40) (bs : List Bool) :
    (shiftIn sr bs).toNat = (sr.toNat * 2 ^ bs.length + msbFirst bs) % 2 ^ 40 := by
  induction bs generalizing sr with
  | nil => simp [shiftIn, msbFirst, Nat.mod_eq_of_lt sr.isLt]
  | cons b bs ih =>
    have hb : msbFirst (b :: bs) = b.toNat * 2 ^ bs.length + msbFirst bs := by
      rw [msbFirst, List.foldl_cons, foldl_msbFirst]; simp
    have hs : ((sr <<< 1) ||| (BitVec.ofBool b).setWidth 40).toNat = (2 * sr.toNat + b.toNat) % 2 ^ 40 := by
      have : (sr <<< 1) ||| (BitVec.ofBool b).setWidth 40 = (sr <<< 1) + (BitVec.ofBool b).setWidth 40 := by
        rw [BitVec.add_eq_or_of_and_eq_zero]
        apply BitVec.eq_of_getLsbD_eq
        intro i hi
        simp only [BitVec.getLsbD_and, BitVec.getLsbD_shiftLeft, BitVec.getLsbD_setWidth, BitVec.getLsbD_ofBool,
          BitVec.getLsbD_zero]
        by_cases h0 : i = 0
        · simp [h0]
        · simp [h0]
      rw [this]
      cases b <;> simp [Nat.shiftLeft_eq, Nat.mul_comm]
    change (shiftIn _ bs).toNat = _
    rw [ih, hs, hb, List.length_cons, Nat.pow_succ, Nat.add_mod, Nat.mod_mul_mod, ← Nat.add_mod]
    congr 1
    ring

/-- With `CLR_n` high a row frame ends with its forty bits in the shift register and on the outputs. -/
theorem rowframe_panel (q : Panel) (p : Pins) (c : Word) (v : Byte) (h : p.clrN = true) :
    q.afterAll p (rowframeEvents c v) = { sr := c ++ v, out := c ++ v } := by
  have hv : shiftIn q.sr (patternBits c ++ chunkBits v) = c ++ v := by
    apply BitVec.eq_of_toNat_eq
    rw [shiftIn_toNat, msbFirst_append, msbFirst_patternBits, msbFirst_chunkBits, List.length_append,
      length_patternBits, length_chunkBits, BitVec.toNat_append, ← Nat.shiftLeft_add_eq_or_of_lt v.isLt,
      Nat.shiftLeft_eq]
    have := c.isLt
    have := v.isLt
    omega
  rw [rowframeEvents_cells, Panel.afterAll_append, cells_panel q p _ h, hv]
  rfl

/-- What a row frame shows: its own row, lit where its pattern is 1 (rules R64, R165). -/
theorem rowframe_lit (c : Word) (r r' : Fin 8) (k : Fin 32) :
    (((c ++ rowsel r : BitVec 40).getLsbD (7 - r'.val)) && (c ++ rowsel r : BitVec 40).getLsbD (8 + (31 - k.val))) =
      (decide (r' = r) && pixelOf c k) := by
  have h1 : (rowsel r).getLsbD (7 - r'.val) = decide (r' = r) := by revert r r'; decide
  have h2 : 7 - r'.val < 8 := by omega
  rw [BitVec.getLsbD_append, BitVec.getLsbD_append, if_pos h2, if_neg (by omega), h1]
  simp [pixelOf]

/-- The levels after a row frame. -/
theorem rowframe_afterAll (p : Pins) (c : Word) (v : Byte) :
    p.afterAll (rowframeEvents c v) = { p with data := v.getLsbD 0, sck := true, lck := true } := by
  rw [rowframeEvents_cells, Pins.afterAll_append, chunkBits_last, ← List.append_assoc, cells_afterAll]
  rfl

/-! Counts of a row frame and of a list of row frames (rules R65, R113). -/

theorem rowframe_counts (c : Word) (v : Byte) (p : Pins) :
    pinCount (rowframeEvents c v) = 122 ∧ dwellCount (rowframeEvents c v) = 1 ∧
      pollCountOf (rowframeEvents c v) = 0 ∧ risesIn .sck p (rowframeEvents c v) = 40 ∧
      risesIn .lck p (rowframeEvents c v) = 1 := by
  rw [rowframeEvents_cells, pinCount_append, dwellCount_append, pollCountOf_append, risesIn_append, risesIn_append,
    pinCount_cells, dwellCount_cells, pollCountOf_cells, risesIn_sck_cells, risesIn_lck_cells]
  exact ⟨rfl, rfl, rfl, rfl, rfl⟩

theorem rowframes_counts (w : Window) (p : Pins) (rs : List (Fin 8)) :
    pinCount (rs.flatMap fun r => rowframeEvents (w.get r) (rowsel r)) = 122 * rs.length ∧
      dwellCount (rs.flatMap fun r => rowframeEvents (w.get r) (rowsel r)) = rs.length ∧
      pollCountOf (rs.flatMap fun r => rowframeEvents (w.get r) (rowsel r)) = 0 ∧
      risesIn .sck p (rs.flatMap fun r => rowframeEvents (w.get r) (rowsel r)) = 40 * rs.length ∧
      risesIn .lck p (rs.flatMap fun r => rowframeEvents (w.get r) (rowsel r)) = rs.length := by
  induction rs generalizing p with
  | nil => simp [pinCount, dwellCount, pollCountOf, risesIn]
  | cons r rs ih =>
    obtain ⟨h1, h2, h3, h4, h5⟩ := rowframe_counts (w.get r) (rowsel r) p
    obtain ⟨i1, i2, i3, i4, i5⟩ := ih (p.afterAll (rowframeEvents (w.get r) (rowsel r)))
    rw [List.flatMap_cons, pinCount_append, dwellCount_append, pollCountOf_append, risesIn_append, risesIn_append,
      h1, h2, h3, h4, h5, i1, i2, i3, i4, i5, List.length_cons]
    omega

/-- The levels after a frame. -/
theorem frame_afterAll (w : Window) (p : Pins) :
    p.afterAll (frameEvents w) = { p with data := true, sck := true, lck := true } := by
  simp only [frameEvents, rows, List.flatMap_cons, List.flatMap_nil, Pins.afterAll_append, rowframe_afterAll]
  rfl

theorem latchedValues_cells (q : Panel) (p : Pins) (bs : List Bool) : latchedValues q p (cells bs) = [] := by
  induction bs generalizing q p with
  | nil => rfl
  | cons b bs ih => rw [cells_cons, latchedValues_append, ih]; simp [bitcellEvents, latchedValues, isRise]

/-- With `CLR_n` high a row frame latches its forty bits. -/
theorem rowframe_latched (q : Panel) (p : Pins) (c : Word) (v : Byte) (h : p.clrN = true) :
    latchedValues q p (rowframeEvents c v) = [c ++ v] := by
  have hp := congrArg Panel.out (rowframe_panel q p c v h)
  rw [rowframeEvents_cells, Panel.afterAll_append] at hp
  rw [rowframeEvents_cells, latchedValues_append, latchedValues_cells]
  simp [latchedValues, isRise, Panel.afterAll, Panel.after, Pins.level, Pins.after] at hp ⊢
  exact hp

end Sys2Proof.Machine
end

