-- ==== Sys2Proof/Laws/Engine.lean ====
section
/-! SUPPORT. What the engine's operations can do, said once each: the polls and frames of a dwell, the window that
FILL_WINDOW leaves, the ends of a FILLING and of a DRAINING tick, the advanced cursor. -/

namespace Sys2Proof.Machine

/-! Polls and frames. -/

/-- A sequence of events with `n` polls in it. -/
def State.polled (s : State) (es : List Event) (n : Nat) : State :=
  { s.emit es with pollAnswers := s.pollAnswers.drop n, pollCount := s.pollCount + n }

@[simp] theorem State.polled_window (s : State) (es : List Event) (n : Nat) : (s.polled es n).window = s.window := by simp [State.polled]
@[simp] theorem State.polled_phase (s : State) (es : List Event) (n : Nat) : (s.polled es n).phase = s.phase := by simp [State.polled]
@[simp] theorem State.polled_startGlyph (s : State) (es : List Event) (n : Nat) : (s.polled es n).startGlyph = s.startGlyph := by simp [State.polled]
@[simp] theorem State.polled_startOffset (s : State) (es : List Event) (n : Nat) : (s.polled es n).startOffset = s.startOffset := by simp [State.polled]
@[simp] theorem State.polled_shiftCount (s : State) (es : List Event) (n : Nat) : (s.polled es n).shiftCount = s.shiftCount := by simp [State.polled]
@[simp] theorem State.polled_bufLen (s : State) (es : List Event) (n : Nat) : (s.polled es n).bufLen = s.bufLen := by simp [State.polled]
@[simp] theorem State.polled_overflow (s : State) (es : List Event) (n : Nat) : (s.polled es n).overflow = s.overflow := by simp [State.polled]
@[simp] theorem State.polled_glyphMem (s : State) (es : List Event) (n : Nat) : (s.polled es n).glyphMem = s.glyphMem := by simp [State.polled]
@[simp] theorem State.polled_params (s : State) (es : List Event) (n : Nat) : (s.polled es n).params = s.params := by simp [State.polled]
@[simp] theorem State.polled_rst (s : State) (es : List Event) (n : Nat) : (s.polled es n).rst = s.rst := by simp [State.polled]
@[simp] theorem State.polled_requests (s : State) (es : List Event) (n : Nat) : (s.polled es n).requests = s.requests := by simp [State.polled]
@[simp] theorem State.polled_result (s : State) (es : List Event) (n : Nat) : (s.polled es n).result = s.result := by simp [State.polled]
@[simp] theorem State.polled_pollAnswers (s : State) (es : List Event) (n : Nat) : (s.polled es n).pollAnswers = s.pollAnswers.drop n := rfl
@[simp] theorem State.polled_pollCount (s : State) (es : List Event) (n : Nat) : (s.polled es n).pollCount = s.pollCount + n := rfl

theorem State.polled_trace (s : State) (es : List Event) (n : Nat) : (s.polled es n).trace = s.trace ++ es :=
  s.emit_trace es

theorem State.polled_pins (s : State) (es : List Event) (n : Nat) : (s.polled es n).pins = s.pins.afterAll es :=
  s.emit_afterAll es

theorem State.polled_panel (s : State) (es : List Event) (n : Nat) :
    (s.polled es n).panel = s.panel.afterAll s.pins es := s.emit_panel es

theorem State.polled_polled (s : State) (es fs : List Event) (n m : Nat) :
    (s.polled es n).polled fs m = s.polled (es ++ fs) (n + m) := by
  simp only [State.polled, State.emit_eq, List.append_assoc, List.foldl_append, Panel.afterAll_append, List.drop_drop,
    Nat.add_assoc]

theorem State.takePoll_eq (s : State) : s.takePoll = s.polled [.poll s.nextAnswer] 1 := by
  simp only [State.takePoll, State.polled, State.emit, List.drop_one]

theorem State.nextAnswer_cons {s : State} {b : Bool} {rest : List Bool} (h : s.pollAnswers = b :: rest) :
    s.nextAnswer = b := by simp [State.nextAnswer, h]

theorem State.polled_emit (s : State) (es fs : List Event) (n : Nat) :
    (s.polled es n).emit fs = s.polled (es ++ fs) n := by
  simp only [State.polled, State.emit_eq, List.append_assoc, List.foldl_append, Panel.afterAll_append]

theorem abortPass_polled (s : State) (es : List Event) (n : Nat) :
    abortPass (s.polled es n) = (s.polled (es ++ [.pin .oeN true]) n).setPhase .done := by
  rw [abortPass, pinWrite_eq, State.polled_emit]

theorem polledFrames_zero (w : Window) : polledFrames 0 w = [] := rfl

theorem polledFrames_succ (n : Nat) (w : Window) :
    polledFrames (n + 1) w = .poll false :: frameEvents w ++ polledFrames n w := by
  simp [polledFrames, List.replicate_succ]

/-- Line writes, polls and dwells of so many frames, a poll before each. -/
theorem polledFrames_counts (n : Nat) (w : Window) :
    pinCount (polledFrames n w) = n * 976 ∧ pollCountOf (polledFrames n w) = n ∧
      dwellCount (polledFrames n w) = n * 8 := by
  obtain ⟨h1, h2, h3, -, -⟩ := rowframes_counts w ⟨false, false, false, false, false⟩ rows
  change pinCount (frameEvents w) = 976 at h1
  change dwellCount (frameEvents w) = 8 at h2
  change pollCountOf (frameEvents w) = 0 at h3
  have hc : ∀ es, .poll false :: es = [Event.poll false] ++ es := fun _ => rfl
  have hp : pinCount [.poll false] = 0 ∧ pollCountOf [.poll false] = 1 ∧ dwellCount [.poll false] = 0 :=
    ⟨rfl, rfl, rfl⟩
  induction n with
  | zero => exact ⟨rfl, rfl, rfl⟩
  | succ n ih =>
    rw [polledFrames_succ, pinCount_append, pollCountOf_append, dwellCount_append, ih.1, ih.2.1, ih.2.2, hc,
      pinCount_append, pollCountOf_append, dwellCount_append, h1, h2, h3, hp.1, hp.2.1, hp.2.2]
    omega

/-- DWELL_SCAN answers all its polls 0 and completes, or is abandoned after `k` whole frames (rules R129, R188). -/
theorem dwellFrames_cases (n : Nat) (s : State) :
    dwellFrames n s = (.completed, s.polled (polledFrames n s.window) n) ∨
      ∃ k, k < n ∧ dwellFrames n s =
        (.aborted, (s.polled (polledFrames k s.window ++ [.poll true, .pin .oeN true]) (k + 1)).setPhase .done) := by
  induction n generalizing s with
  | zero => left; simp [dwellFrames, polledFrames_zero, State.polled]
  | succ n ih =>
    rw [dwellFrames, State.takePoll_eq]
    cases hb : s.nextAnswer with
    | true =>
      right
      refine ⟨0, Nat.succ_pos n, ?_⟩
      rw [if_pos rfl, abortPass_polled]
      rfl
    | false =>
      rw [if_neg Bool.false_ne_true, scanFrame_eq, State.polled_emit, State.polled_window]
      rcases ih (s.polled ([.poll false] ++ frameEvents s.window) 1) with h | ⟨k, hk, h⟩
      · left
        rw [h, State.polled_polled, State.polled_window, polledFrames_succ, Nat.add_comm]
        rfl
      · right
        refine ⟨k + 1, by omega, ?_⟩
        rw [h, State.polled_polled, State.polled_window, polledFrames_succ, Nat.add_comm 1 (k + 1),
          ← List.append_assoc]
        rfl

/-- The dwell, with every poll answered 0. -/
theorem dwellFrames_quiet (n : Nat) (s : State) (h : s.pollAnswers.take n = List.replicate n false) :
    dwellFrames n s = (.completed, s.polled (polledFrames n s.window) n) := by
  induction n generalizing s with
  | zero => simp [dwellFrames, polledFrames_zero, State.polled]
  | succ n ih =>
    cases ha : s.pollAnswers with
    | nil => rw [ha] at h; simp [List.replicate_succ] at h
    | cons b rest =>
      rw [ha, List.take_succ_cons, List.replicate_succ, List.cons.injEq] at h
      obtain ⟨rfl, h⟩ := h
      rw [dwellFrames, State.takePoll_eq, State.nextAnswer_cons ha, if_neg Bool.false_ne_true, scanFrame_eq,
        State.polled_emit, State.polled_window, ih, State.polled_polled, State.polled_window, polledFrames_succ,
        Nat.add_comm]
      · rfl
      · simpa [ha] using h

/-- The dwell, with `k` polls answered 0 and the next answered 1. -/
theorem dwellFrames_stopped (n k : Nat) (s : State) (rest : List Bool) (hk : k < n)
    (h : s.pollAnswers = List.replicate k false ++ true :: rest) :
    dwellFrames n s =
      (.aborted, (s.polled (polledFrames k s.window ++ [.poll true, .pin .oeN true]) (k + 1)).setPhase .done) := by
  induction k generalizing n s with
  | zero =>
    obtain ⟨n, rfl⟩ : ∃ m, n = m + 1 := ⟨n - 1, by omega⟩
    rw [dwellFrames, State.takePoll_eq, State.nextAnswer_cons h, if_pos rfl, abortPass_polled]
    rfl
  | succ k ih =>
    obtain ⟨n, rfl⟩ : ∃ m, n = m + 1 := ⟨n - 1, by omega⟩
    rw [List.replicate_succ, List.cons_append] at h
    rw [dwellFrames, State.takePoll_eq, State.nextAnswer_cons h, if_neg Bool.false_ne_true, scanFrame_eq,
      State.polled_emit, State.polled_window, ih n _ (by omega) (by simp [h]), State.polled_polled,
      State.polled_window, polledFrames_succ, Nat.add_comm 1 (k + 1), ← List.append_assoc]
    rfl

/-! The window FILL_WINDOW leaves. -/

/-- A column at position `p` of the stream, in a state with that buffer: rule R134's `streamPixel`. -/
theorem State.streamPixel_eq (s : State) (r : Fin 8) (p : Nat) (h : p < 8 * s.bufLen) :
    s.streamPixel r p = s.glyphPixel (p / 8) r (Fin.ofNat 8 p) := by rw [State.streamPixel, if_pos h]

/-- What FILL_WINDOW keeps while it writes: everything but the window. -/
theorem fillColumn_frame (gi : Nat) (bo : Fin 8) (col : Fin 32) (rs : List (Fin 8)) (s : State) :
    ∃ w, fillColumn gi bo col rs s = s.setWindow w := by
  induction rs generalizing s with
  | nil => exact ⟨s.window, rfl⟩
  | cons r rs ih =>
    obtain ⟨w, h⟩ := ih (winSetPixel r col (glyphBit gi r bo s) s)
    exact ⟨w, h⟩

theorem fillColumn_pixel (gi : Nat) (bo : Fin 8) (col : Fin 32) (rs : List (Fin 8)) (s : State) (r : Fin 8)
    (c : Fin 32) :
    (fillColumn gi bo col rs s).pixel r c =
      if r ∈ rs ∧ c = col then s.glyphPixel gi r bo else s.pixel r c := by
  induction rs generalizing s with
  | nil => simp [fillColumn]
  | cons q rs ih =>
    rw [fillColumn, ih]
    have hg : (winSetPixel q col (glyphBit gi q bo s) s).glyphPixel gi r bo = s.glyphPixel gi r bo := rfl
    have hp : (winSetPixel q col (glyphBit gi q bo s) s).pixel r c =
        if r = q ∧ c = col then s.glyphPixel gi q bo else s.pixel r c := winSetPixel_pixel s q r col c _
    rw [hg, hp]
    by_cases hc : c = col
    · by_cases hq : r = q
      · subst hq; simp [hc]
      · simp [hc, hq]
    · simp [hc]

theorem mem_rows (r : Fin 8) : r ∈ rows := by revert r; decide

theorem fillColumns_frame (cols : List (Fin 32)) (gi : Nat) (bo : Fin 8) (s : State) :
    ∃ w, fillColumns cols gi bo s = s.setWindow w := by
  induction cols generalizing gi bo s with
  | nil => exact ⟨s.window, rfl⟩
  | cons col cols ih =>
    rw [fillColumns]
    split
    · exact ⟨s.window, rfl⟩
    · obtain ⟨w, h⟩ := fillColumn_frame gi bo col rows s
      simp only [h]
      split
      · obtain ⟨w', h'⟩ := ih (gi + 1) 0 (s.setWindow w); exact ⟨w', h'⟩
      · obtain ⟨w', h'⟩ := ih gi (bo + 1) (s.setWindow w); exact ⟨w', h'⟩

/-- FILL_WINDOW changes the window only. -/
theorem fillWindow_eq (s : State) : fillWindow s = s.setWindow (fillWindow s).window := by
  obtain ⟨w, h⟩ := fillColumns_frame columns s.startGlyph s.startOffset.toFin (winClear s)
  have h' : fillWindow s = s.setWindow w := h
  rw [h']
  rfl

theorem columns_eq : columns = List.finRange 32 := by decide

/-- The columns still to fill, from the working cursor's position on (rule R125). -/
theorem fillColumns_pixel (m k gi : Nat) (bo : Fin 8) (s : State) (hm : m + k = 32) (r : Fin 8) (c : Fin 32) :
    (fillColumns ((List.finRange 32).drop k) gi bo s).pixel r c =
      if k ≤ c.val ∧ 8 * gi + bo.val + (c.val - k) < 8 * s.bufLen then
        s.streamPixel r (8 * gi + bo.val + (c.val - k))
      else s.pixel r c := by
  induction m generalizing k gi bo s with
  | zero =>
    have hk : ¬ k ≤ c.val := by omega
    rw [List.drop_eq_nil_of_le (by simp; omega), if_neg (fun h => hk h.1)]
    rfl
  | succ m ih =>
    have hk : k < (List.finRange 32).length := by simp; omega
    rw [List.drop_eq_getElem_cons hk, List.getElem_finRange, fillColumns]
    by_cases hb : s.bufLen ≤ gi
    · rw [if_pos hb, if_neg (by omega)]
    · rw [if_neg hb]
      obtain ⟨w, hw⟩ := fillColumn_frame gi bo (Fin.cast (by simp) ⟨k, hk⟩) rows s
      have hpix := fillColumn_pixel gi bo (Fin.cast (by simp) ⟨k, hk⟩) rows s r c
      have hstream : ∀ p, (s.setWindow w).streamPixel r p = s.streamPixel r p := fun _ => rfl
      have hk' : k < 32 := by simpa using hk
      have hpos : (if bo = 7 then fillColumns ((List.finRange 32).drop (k + 1)) (gi + 1) 0 (s.setWindow w)
          else fillColumns ((List.finRange 32).drop (k + 1)) gi (bo + 1) (s.setWindow w)).pixel r c =
          if k + 1 ≤ c.val ∧ 8 * gi + bo.val + (c.val - k) < 8 * s.bufLen then
            s.streamPixel r (8 * gi + bo.val + (c.val - k)) else (s.setWindow w).pixel r c := by
        by_cases h7 : bo = 7
        · subst h7
          rw [if_pos rfl, ih (k + 1) (gi + 1) 0 (s.setWindow w) (by omega)]
          by_cases hc : k + 1 ≤ c.val
          · have e : 8 * (gi + 1) + (0 : Fin 8).val + (c.val - (k + 1)) = 8 * gi + (7 : Fin 8).val + (c.val - k) := by
              simp; omega
            rw [e]; rfl
          · rw [if_neg (fun h => hc h.1), if_neg (fun h => hc h.1)]
        · rw [if_neg h7, ih (k + 1) gi (bo + 1) (s.setWindow w) (by omega)]
          by_cases hc : k + 1 ≤ c.val
          · have hbo : (bo + 1).val = bo.val + 1 := by
              have : bo.val ≠ 7 := fun e => h7 (Fin.ext e)
              rw [Fin.val_add]; have := bo.isLt; simp; omega
            have e : 8 * gi + (bo + 1).val + (c.val - (k + 1)) = 8 * gi + bo.val + (c.val - k) := by omega
            rw [e]; rfl
          · rw [if_neg (fun h => hc h.1), if_neg (fun h => hc h.1)]
      simp only [hw] at hpix ⊢
      rw [hpos, hpix]
      by_cases hc : c.val = k
      · have hce : c = Fin.cast (by simp) (⟨k, hk⟩ : Fin _) := Fin.ext hc
        rw [if_neg (by omega), if_pos ⟨mem_rows r, hce⟩, if_pos (by have := bo.isLt; omega),
          State.streamPixel_eq _ _ _ (by have := bo.isLt; omega)]
        have e1 : (8 * gi + bo.val + (c.val - k)) / 8 = gi := by have := bo.isLt; omega
        have e2 : Fin.ofNat 8 (8 * gi + bo.val + (c.val - k)) = bo := by
          apply Fin.ext; simp only [Fin.val_ofNat]; have := bo.isLt; omega
        rw [e1, e2]
      · have hce : ¬ c = Fin.cast (by simp) (⟨k, hk⟩ : Fin _) := fun e => hc (congrArg Fin.val e)
        simp only [hce, and_false, if_false]
        by_cases hlt : k + 1 ≤ c.val
        · simp only [hlt, show k ≤ c.val by omega, true_and]
        · simp only [hlt, show ¬ k ≤ c.val by omega, false_and, if_false]

/-- FILL_WINDOW shows the stream from the start position on. -/
theorem fillWindow_pixel (s : State) (r : Fin 8) (c : Fin 32) :
    (fillWindow s).pixel r c = s.streamPixel r (s.startPosition + c.val) := by
  have h := fillColumns_pixel 32 0 s.startGlyph s.startOffset.toFin (winClear s) rfl r c
  rw [List.drop_zero, ← columns_eq] at h
  change (fillColumns columns s.startGlyph s.startOffset.toFin (winClear s)).pixel r c = _
  have hz : (winClear s).pixel r c = false := by simp [State.pixel, Window.pixel, winClear_get]
  have hs : ∀ p, (winClear s).streamPixel r p = s.streamPixel r p := fun _ => rfl
  have hb : (winClear s).bufLen = s.bufLen := rfl
  rw [h, hz, hb, hs, Nat.sub_zero]
  simp only [Nat.zero_le, true_and, State.startPosition]
  change (if 8 * s.startGlyph + s.startOffset.toNat + c.val < 8 * s.bufLen then _ else false) = _
  by_cases hp : 8 * s.startGlyph + s.startOffset.toNat + c.val < 8 * s.bufLen
  · rw [if_pos hp]; rfl
  · rw [if_neg hp, State.streamPixel, if_neg hp]

/-- Two windows with the same pixels are the same window. -/
theorem Window.ext_pixel {w v : Window} (h : ∀ r c, w.pixel r c = v.pixel r c) : w = v := by
  apply Window.ext_get
  intro r
  apply BitVec.eq_of_getLsbD_eq
  intro i hi
  have := h r ⟨31 - i, by omega⟩
  simpa [Window.pixel, pixelOf, show 31 - (31 - i) = i by omega] using this

/-- The stream depends on the buffer's length and its bytes only (rule R44). -/
theorem streamPixel_congr {s t : State} (hb : t.bufLen = s.bufLen)
    (hm : ∀ addr, addr < 8 * s.bufLen → t.glyphMem.read addr = s.glyphMem.read addr) (r : Fin 8) (p : Nat) :
    t.streamPixel r p = s.streamPixel r p := by
  rw [State.streamPixel, State.streamPixel, hb]
  by_cases hp : p < 8 * s.bufLen
  · rw [if_pos hp, if_pos hp, State.glyphPixel, State.glyphPixel, State.glyphRead, State.glyphRead,
      hm _ (by rw [glyphAddress]; omega)]
  · rw [if_neg hp, if_neg hp]

/-- FILL_WINDOW depends on the cursor, the buffer's length and its bytes only. -/
theorem fillWindow_congr {s t : State} (hb : t.bufLen = s.bufLen) (hg : t.startGlyph = s.startGlyph)
    (ho : t.startOffset = s.startOffset)
    (hm : ∀ addr, addr < 8 * s.bufLen → t.glyphMem.read addr = s.glyphMem.read addr) :
    (fillWindow t).window = (fillWindow s).window := by
  apply Window.ext_pixel
  intro r c
  have h1 := fillWindow_pixel t r c
  have h2 := fillWindow_pixel s r c
  rw [streamPixel_congr hb hm, State.startPosition, hg, ho] at h1
  exact h1.trans h2.symm

/-! Ticks. -/

theorem tickFill_abort (s : State) (h : s.nextAnswer = true) :
    tickFill s = (s.polled [.poll true, .pin .oeN true] 1).setPhase .done := by
  rw [tickFill, State.takePoll_eq, h, if_pos rfl, abortPass_polled]
  rfl

/-- The empty-buffer shortcut (rule R136). -/
theorem tickFill_empty (s : State) (h : s.nextAnswer = false) (h0 : s.bufLen = 0) :
    tickFill s = ((s.setWindow Window.zero).polled [.poll false] 1).setPhase .done := by
  rw [tickFill, State.takePoll_eq, h, if_neg Bool.false_ne_true]
  simp only [State.polled_bufLen]
  rw [if_pos h0, winClear, Window.ofRows_zero]
  simp only [State.polled, State.emit_eq, State.setWindow]

/-- A FILLING tick up to its dwell. -/
theorem tickFill_dwell (s : State) (h : s.nextAnswer = false) (h0 : s.bufLen ≠ 0) :
    tickFill s =
      match dwellFrames s.params.framesPerTick ((s.setWindow (fillWindow s).window).polled [.poll false] 1) with
      | (.aborted, t) => t
      | (.completed, t) => advanceCursor t := by
  have hw : (fillWindow (s.polled [.poll false] 1)).window = (fillWindow s).window :=
    fillWindow_congr (by simp) (by simp) (by simp) (by simp)
  have hf : fillWindow (s.polled [.poll false] 1) = (s.setWindow (fillWindow s).window).polled [.poll false] 1 := by
    rw [fillWindow_eq, hw]
    simp only [State.polled, State.emit_eq, State.setWindow]
  rw [tickFill, State.takePoll_eq, h, if_neg Bool.false_ne_true]
  simp only [State.polled_bufLen]
  rw [if_neg h0, hf, dwellScan, State.polled_params, State.setWindow_params]
  all_goals rfl

/-- The state a FILLING tick dwells in and leaves its dwell with after `k` frames. -/
def State.filled (s : State) (k : Nat) (es : List Event) (n : Nat) : State :=
  (s.setWindow (fillWindow s).window).polled (.poll false :: (polledFrames k (fillWindow s).window ++ es)) n

/-- TICK_FILL's four ends (rules R126, R136): abandoned at its first poll, the empty-buffer shortcut, abandoned in the
dwell after `k` frames, completed. -/
theorem tickFill_cases (s : State) :
    tickFill s = (s.polled [.poll true, .pin .oeN true] 1).setPhase .done ∨
      (s.bufLen = 0 ∧ tickFill s = ((s.setWindow Window.zero).polled [.poll false] 1).setPhase .done) ∨
      (∃ k, k < s.params.framesPerTick ∧ s.bufLen ≠ 0 ∧
        tickFill s = (s.filled k [.poll true, .pin .oeN true] (k + 2)).setPhase .done) ∨
      (s.bufLen ≠ 0 ∧ tickFill s = advanceCursor (s.filled s.params.framesPerTick [] (s.params.framesPerTick + 1))) := by
  cases h : s.nextAnswer with
  | true => exact .inl (tickFill_abort s h)
  | false =>
    right
    by_cases h0 : s.bufLen = 0
    · exact .inl ⟨h0, tickFill_empty s h h0⟩
    · right
      rw [tickFill_dwell s h h0]
      rcases dwellFrames_cases s.params.framesPerTick ((s.setWindow (fillWindow s).window).polled [.poll false] 1) with
        hd | ⟨k, hk, hd⟩
      · right
        refine ⟨h0, ?_⟩
        rw [hd, State.polled_polled, Nat.add_comm 1, State.polled_window, State.filled, List.append_nil]
        rfl
      · left
        refine ⟨k, hk, h0, ?_⟩
        rw [hd, State.polled_polled, Nat.add_comm 1, State.polled_window]
        rfl

/-- TICK_FILL with every poll answered 0 and glyphs in the buffer. -/
theorem tickFill_quiet (s : State) (h0 : s.bufLen ≠ 0) (h : s.quietFor (1 + s.params.framesPerTick)) :
    tickFill s = advanceCursor (s.filled s.params.framesPerTick [] (s.params.framesPerTick + 1)) := by
  rw [State.quietFor, Nat.add_comm, List.replicate_succ] at h
  cases ha : s.pollAnswers with
  | nil => rw [ha] at h; simp at h
  | cons b rest =>
    rw [ha, List.take_succ_cons, List.cons.injEq] at h
    obtain ⟨rfl, h⟩ := h
    rw [tickFill_dwell s (State.nextAnswer_cons ha) h0, dwellFrames_quiet _ _ (by simpa [ha] using h),
      State.polled_polled, Nat.add_comm 1, State.polled_window, State.filled, List.append_nil]
    rfl

/-- TICK_FILL abandoned in its dwell: the first poll answered 0, `k` frames scanned, the next poll answered 1. -/
theorem tickFill_stopped (s : State) (k : Nat) (rest : List Bool) (h0 : s.bufLen ≠ 0) (hk : k < s.params.framesPerTick)
    (h : s.pollAnswers = false :: (List.replicate k false ++ true :: rest)) :
    tickFill s = (s.filled k [.poll true, .pin .oeN true] (k + 2)).setPhase .done := by
  rw [tickFill_dwell s (State.nextAnswer_cons h) h0, dwellFrames_stopped _ k _ rest hk (by simp [h]),
    State.polled_polled, Nat.add_comm 1, State.polled_window]
  rfl

/-- The state a DRAINING tick dwells in and leaves its dwell with after `k` frames. -/
def State.shifted (s : State) (k : Nat) (es : List Event) (n : Nat) : State :=
  (winShiftLeft s.shiftCount.toNat s).polled
    (.poll false :: (polledFrames k (winShiftLeft s.shiftCount.toNat s).window ++ es)) n

theorem tickDrain_abort (s : State) (h : s.nextAnswer = true) :
    tickDrain s = (s.polled [.poll true, .pin .oeN true] 1).setPhase .done := by
  rw [tickDrain, State.takePoll_eq, h, if_pos rfl, abortPass_polled]
  rfl

/-- A DRAINING tick up to its dwell. -/
theorem tickDrain_dwell (s : State) (h : s.nextAnswer = false) :
    tickDrain s =
      match dwellFrames s.params.framesPerTick ((winShiftLeft s.shiftCount.toNat s).polled [.poll false] 1) with
      | (.aborted, t) => t
      | (.completed, t) => drainStep t := by
  rw [tickDrain, State.takePoll_eq, h, if_neg Bool.false_ne_true]
  have hf : winShiftLeft (s.polled [.poll false] 1).shiftCount.toNat (s.polled [.poll false] 1) =
      (winShiftLeft s.shiftCount.toNat s).polled [.poll false] 1 := by
    simp only [State.polled, State.emit_eq, winShiftLeft, State.setWindow]
  simp only [hf, dwellScan, State.polled_params]
  rfl

/-- TICK_DRAIN's three ends (rule R127): abandoned at its first poll, abandoned in the dwell after `k` frames,
completed. -/
theorem tickDrain_cases (s : State) :
    tickDrain s = (s.polled [.poll true, .pin .oeN true] 1).setPhase .done ∨
      (∃ k, k < s.params.framesPerTick ∧
        tickDrain s = (s.shifted k [.poll true, .pin .oeN true] (k + 2)).setPhase .done) ∨
      tickDrain s = drainStep (s.shifted s.params.framesPerTick [] (s.params.framesPerTick + 1)) := by
  cases h : s.nextAnswer with
  | true => exact .inl (tickDrain_abort s h)
  | false =>
    right
    rw [tickDrain_dwell s h]
    rcases dwellFrames_cases s.params.framesPerTick ((winShiftLeft s.shiftCount.toNat s).polled [.poll false] 1) with
      hd | ⟨k, hk, hd⟩
    · right
      rw [hd, State.polled_polled, Nat.add_comm 1, State.polled_window, State.shifted, List.append_nil]
      rfl
    · left
      refine ⟨k, hk, ?_⟩
      rw [hd, State.polled_polled, Nat.add_comm 1, State.polled_window]
      rfl

/-- TICK_DRAIN with every poll answered 0. -/
theorem tickDrain_quiet (s : State) (h : s.quietFor (1 + s.params.framesPerTick)) :
    tickDrain s = drainStep (s.shifted s.params.framesPerTick [] (s.params.framesPerTick + 1)) := by
  rw [State.quietFor, Nat.add_comm, List.replicate_succ] at h
  cases ha : s.pollAnswers with
  | nil => rw [ha] at h; simp at h
  | cons b rest =>
    rw [ha, List.take_succ_cons, List.cons.injEq] at h
    obtain ⟨rfl, h⟩ := h
    rw [tickDrain_dwell s (State.nextAnswer_cons ha), dwellFrames_quiet _ _ (by simpa [winShiftLeft, ha] using h),
      State.polled_polled, Nat.add_comm 1, State.polled_window, State.shifted, List.append_nil]
    rfl

/-- TICK_DRAIN abandoned in its dwell: the first poll answered 0, `k` frames scanned, the next poll answered 1. -/
theorem tickDrain_stopped (s : State) (k : Nat) (rest : List Bool) (hk : k < s.params.framesPerTick)
    (h : s.pollAnswers = false :: (List.replicate k false ++ true :: rest)) :
    tickDrain s = (s.shifted k [.poll true, .pin .oeN true] (k + 2)).setPhase .done := by
  rw [tickDrain_dwell s (State.nextAnswer_cons h), dwellFrames_stopped _ k _ rest hk (by simp [winShiftLeft, h]),
    State.polled_polled, Nat.add_comm 1, State.polled_window]
  rfl

/-! The cursor. -/

/-- Inside the buffer the next glyph index fits its register (rule R137). -/
theorem nextGlyph_eq {s : State} (hc : s.bufLen ≤ s.params.maxGlyphs) (hg : s.startGlyph < s.bufLen) :
    nextGlyph s = s.startGlyph + 1 := by
  rw [nextGlyph, if_pos]
  have := Nat.lt_log2_self (n := s.params.maxGlyphs)
  rw [glyphIndexBits]
  omega

/-- ADVANCE_CURSOR writes the cursor, and the phase when the cursor reaches `bufLen` (rule R130). -/
theorem advanceCursor_eq (s : State) :
    advanceCursor s =
      if (advanceStart s).startGlyph = s.bufLen then (advanceStart s).setPhase .draining else advanceStart s := rfl

/-- ADVANCE_CURSOR changes the cursor and the phase only. -/
theorem advanceCursor_frame (s : State) : ∃ g o p, advanceCursor s = (s.setCursor g o).setPhase p := by
  rw [advanceCursor_eq]
  split
  · exact ⟨_, _, _, rfl⟩
  · exact ⟨(advanceStart s).startGlyph, s.startOffset + 1, s.phase, rfl⟩

/-- The advanced cursor is one position on. -/
theorem advanceStart_position {s : State} (hc : s.bufLen ≤ s.params.maxGlyphs) (hg : s.startGlyph < s.bufLen) :
    (advanceStart s).startPosition = s.startPosition + 1 ∧ (advanceStart s).startOffset = s.startOffset + 1 ∧
      (advanceStart s).startGlyph ≤ s.bufLen ∧
      ((advanceStart s).startGlyph = s.bufLen → (advanceStart s).startOffset = 0) := by
  have ho : (advanceStart s).startOffset = s.startOffset + 1 := rfl
  have hg' : (advanceStart s).startGlyph = if s.startOffset + 1 = 0 then nextGlyph s else s.startGlyph := rfl
  rw [State.startPosition, State.startPosition, ho, hg', nextGlyph_eq hc hg]
  have hlt := s.startOffset.isLt
  by_cases h7 : s.startOffset.toNat = 7
  · have h : s.startOffset = 7 := BitVec.eq_of_toNat_eq h7
    rw [h]
    simp
    omega
  · have h : ¬ s.startOffset + 1 = 0 := by
      intro e
      have := congrArg BitVec.toNat e
      simp [BitVec.toNat_add] at this
      omega
    rw [if_neg h, BitVec.toNat_add]
    refine ⟨?_, rfl, by omega, fun e => absurd e (by omega)⟩
    simp
    omega

end Sys2Proof.Machine
end

