-- ==== Sys2Proof/Laws/Effect.lean ====
section
/-! SUPPORT. Everything the engine's operations do to the wire and the inputs, said once each: the events they append,
which the lines and the panel follow, and the poll answers they take. -/

namespace Sys2Proof.Machine

/-- A state that follows another by a list of events: lines, panel and trace are what the events make of them, one answer
is taken per poll, and the other inputs stay. -/
structure State.Follows (s t : State) (es : List Event) : Prop where
  trace : t.trace = s.trace ++ es
  pins : t.pins = s.pins.afterAll es
  panel : t.panel = s.panel.afterAll s.pins es
  answers : t.pollAnswers = s.pollAnswers.drop (pollCountOf es)
  polls : t.pollCount = s.pollCount + pollCountOf es
  params : t.params = s.params
  requests : t.requests = s.requests
  rst : t.rst = s.rst

/-- Two states that agree in what `Follows` speaks of. -/
def State.sameOutside (s t : State) : Prop :=
  t.trace = s.trace ∧ t.pins = s.pins ∧ t.panel = s.panel ∧ t.pollAnswers = s.pollAnswers ∧
    t.pollCount = s.pollCount ∧ t.params = s.params ∧ t.requests = s.requests ∧ t.rst = s.rst

theorem State.Follows.refl (s : State) : s.Follows s [] := ⟨by simp, rfl, rfl, rfl, rfl, rfl, rfl, rfl⟩

theorem State.Follows.trans {s t u : State} {es fs : List Event} (h : s.Follows t es) (k : t.Follows u fs) :
    s.Follows u (es ++ fs) := by
  constructor
  · rw [k.trace, h.trace, List.append_assoc]
  · rw [k.pins, h.pins, Pins.afterAll_append]
  · rw [k.panel, h.panel, h.pins, Panel.afterAll_append]; rfl
  · rw [k.answers, h.answers, List.drop_drop, pollCountOf_append]
  · rw [k.polls, h.polls, pollCountOf_append, Nat.add_assoc]
  · rw [k.params, h.params]
  · rw [k.requests, h.requests]
  · rw [k.rst, h.rst]

/-- What a later change of registers leaves. -/
theorem State.Follows.right {s t u : State} {es : List Event} (h : s.Follows t es) (k : t.sameOutside u) :
    s.Follows u es := by
  obtain ⟨a, b, c, d, e, f, g, i⟩ := k
  exact ⟨a.trans h.trace, b.trans h.pins, c.trans h.panel, d.trans h.answers, e.trans h.polls, f.trans h.params,
    g.trans h.requests, i.trans h.rst⟩

/-- What an earlier change of registers leaves. -/
theorem State.Follows.left {s t u : State} {es : List Event} (h : t.Follows u es) (k : s.sameOutside t) :
    s.Follows u es := by
  obtain ⟨a, b, c, d, e, f, g, i⟩ := k
  exact ⟨h.trace.trans (by rw [a]), h.pins.trans (by rw [b]), h.panel.trans (by rw [b, c]),
    h.answers.trans (by rw [d]), h.polls.trans (by rw [e]), h.params.trans f, h.requests.trans g, h.rst.trans i⟩

theorem State.Follows.emit (s : State) (es : List Event) (h : pollCountOf es = 0) : s.Follows (s.emit es) es := by
  constructor <;> simp [State.emit_trace, State.emit_afterAll, State.emit_panel, h]

theorem State.Follows.polled (s : State) (es : List Event) (n : Nat) (h : pollCountOf es = n) :
    s.Follows (s.polled es n) es := by
  constructor <;> simp [State.polled_trace, State.polled_pins, State.polled_panel, h]

theorem State.sameOutside_rfl (s : State) : s.sameOutside s := ⟨rfl, rfl, rfl, rfl, rfl, rfl, rfl, rfl⟩

/-! Registers that an operation of the engine leaves. -/

theorem advanceCursor_outside (s : State) : s.sameOutside (advanceCursor s) := by
  obtain ⟨_, _, _, e⟩ := advanceCursor_frame s
  rw [e]; exact ⟨rfl, rfl, rfl, rfl, rfl, rfl, rfl, rfl⟩

theorem drainStep_outside (s : State) : s.sameOutside (drainStep s) := by
  rw [drainStep]; split <;> exact ⟨rfl, rfl, rfl, rfl, rfl, rfl, rfl, rfl⟩

/-- The polls of a tick that dwells for `k` whole frames. -/
theorem pollCountOf_tick (k : Nat) (w : Window) (es : List Event) :
    pollCountOf (.poll false :: (polledFrames k w ++ es)) = k + 1 + pollCountOf es := by
  have hc : ∀ es, .poll false :: es = [Event.poll false] ++ es := fun _ => rfl
  have hp : pollCountOf [.poll false] = 1 := rfl
  rw [hc, pollCountOf_append, pollCountOf_append, (polledFrames_counts k w).2.1, hp]
  omega

/-- The events of one tick (rules R126, R127, R136): abandoned at its first poll, the empty-buffer shortcut, abandoned in
the dwell after `k` whole frames, completed. -/
inductive TickEvents (frames : Nat) : List Event → Prop
  | aborted : TickEvents frames [.poll true, .pin .oeN true]
  | empty : TickEvents frames [.poll false]
  | cut (k : Nat) (w : Window) (h : k < frames) :
      TickEvents frames (.poll false :: (polledFrames k w ++ [.poll true, .pin .oeN true]))
  | full (w : Window) : TickEvents frames (.poll false :: (polledFrames frames w ++ []))

/-- The frames of a dwell leave the display as blanked or enabled as it was. -/
theorem polledFrames_afterAll_oeN (n : Nat) (w : Window) (p : Pins) :
    (p.afterAll (polledFrames n w)).oeN = p.oeN := by
  induction n generalizing p with
  | zero => rfl
  | succ n ih =>
    rw [polledFrames_succ, ← List.singleton_append, List.append_assoc, Pins.afterAll_append, Pins.afterAll_append, ih,
      frame_afterAll]
    rfl

/-- A tick that is not abandoned leaves `OE_n` alone; an abandoned one ends with the poll and ABORT's event (rule R29
item 7, rule R131). -/
theorem TickEvents.oeN {frames : Nat} {es : List Event} (h : TickEvents frames es) (p : Pins) :
    (∃ fs, es = fs ++ [.poll true, .pin .oeN true]) ∨ (p.afterAll es).oeN = p.oeN := by
  cases h with
  | aborted => exact .inl ⟨[], rfl⟩
  | empty => exact .inr rfl
  | cut k w _ => exact .inl ⟨.poll false :: polledFrames k w, rfl⟩
  | full w =>
    right
    rw [List.append_nil]
    exact polledFrames_afterAll_oeN _ w p

theorem tickFill_follows (s : State) :
    ∃ es, s.Follows (tickFill s) es ∧ TickEvents s.params.framesPerTick es ∧
      (tickFill s).glyphMem = s.glyphMem ∧ (tickFill s).overflow = s.overflow ∧ (tickFill s).bufLen = s.bufLen ∧
      (tickFill s).result = s.result ∧ (tickFill s).shiftCount = s.shiftCount := by
  have same : ∀ w, s.sameOutside (s.setWindow w) := fun _ => ⟨rfl, rfl, rfl, rfl, rfl, rfl, rfl, rfl⟩
  have done : ∀ t : State, t.sameOutside (t.setPhase .done) := fun _ => ⟨rfl, rfl, rfl, rfl, rfl, rfl, rfl, rfl⟩
  rcases tickFill_cases s with h | ⟨_, h⟩ | ⟨k, hk, _, h⟩ | ⟨_, h⟩ <;> rw [h]
  · exact ⟨_, (State.Follows.polled s _ 1 rfl).right (done _), .aborted, by simp⟩
  · exact ⟨_, ((State.Follows.polled _ _ 1 rfl).left (same Window.zero)).right (done _), .empty, by simp⟩
  · exact ⟨_, ((State.Follows.polled _ _ (k + 2) (pollCountOf_tick ..)).left (same _)).right (done _), .cut k _ hk,
      by simp [State.filled]⟩
  · refine ⟨_, ((State.Follows.polled _ _ _ (pollCountOf_tick ..)).left (same _)).right (advanceCursor_outside _),
      .full _, ?_⟩
    obtain ⟨_, _, _, e⟩ := advanceCursor_frame (s.filled s.params.framesPerTick [] (s.params.framesPerTick + 1))
    rw [e]; simp [State.filled]

theorem tickDrain_follows (s : State) :
    ∃ es, s.Follows (tickDrain s) es ∧ TickEvents s.params.framesPerTick es ∧
      (tickDrain s).glyphMem = s.glyphMem ∧ (tickDrain s).overflow = s.overflow ∧
      (tickDrain s).bufLen = s.bufLen ∧ (tickDrain s).result = s.result := by
  have same : s.sameOutside (winShiftLeft s.shiftCount.toNat s) := ⟨rfl, rfl, rfl, rfl, rfl, rfl, rfl, rfl⟩
  have done : ∀ t : State, t.sameOutside (t.setPhase .done) := fun _ => ⟨rfl, rfl, rfl, rfl, rfl, rfl, rfl, rfl⟩
  rcases tickDrain_cases s with h | ⟨k, hk, h⟩ | h <;> rw [h]
  · exact ⟨_, (State.Follows.polled s _ 1 rfl).right (done _), .aborted, by simp⟩
  · exact ⟨_, ((State.Follows.polled _ _ (k + 2) (pollCountOf_tick ..)).left same).right (done _), .cut k _ hk,
      by simp [State.shifted, winShiftLeft]⟩
  · refine ⟨_, ((State.Follows.polled _ _ _ (pollCountOf_tick ..)).left same).right (drainStep_outside _),
      .full _, ?_⟩
    rw [drainStep]; split <;> simp [State.shifted, winShiftLeft]

/-- TICK (rule R122): the events of one tick, or in DONE none. -/
theorem tick_follows (s : State) :
    ∃ es, s.Follows (tick s) es ∧ (es = [] ∨ TickEvents s.params.framesPerTick es) ∧
      (tick s).glyphMem = s.glyphMem ∧ (tick s).overflow = s.overflow ∧ (tick s).bufLen = s.bufLen ∧
      (tick s).result = s.result := by
  rw [tick]
  cases h : s.phase with
  | filling =>
    obtain ⟨es, h1, h2, h3, h4, h5, h6, _⟩ := tickFill_follows s
    exact ⟨es, h1, .inr h2, h3, h4, h5, h6⟩
  | draining =>
    obtain ⟨es, h1, h2, h3, h4, h5, h6⟩ := tickDrain_follows s
    exact ⟨es, h1, .inr h2, h3, h4, h5, h6⟩
  | done => exact ⟨[], .refl s, .inl rfl, rfl, rfl, rfl, rfl⟩

/-- START is ignored, sets the flag, or begins a pass (rules R121, R151). -/
theorem start_cases (n : Nat) (s : State) :
    start n s = s ∨ start n s = { s with overflow := true } ∨
      (s.phase = .done ∧ n ≤ s.params.maxGlyphs ∧ start n s = startPass n s) := by
  rw [start]
  split
  · exact .inl rfl
  · rename_i h
    split
    · exact .inr (.inl rfl)
    · rename_i h'
      refine .inr (.inr ⟨by simpa using h, ?_, rfl⟩)
      simpa [exceedsCapacity] using h'

theorem startPass_follows (n : Nat) (s : State) : s.Follows (startPass n s) clearseqEvents := by
  have h := State.Follows.emit
    (winClear ((((s.setOverflow false).setBufLen n).setCursor 0 0).setShiftCount 1)) clearseqEvents rfl
  exact ⟨h.1, h.2, h.3, h.4, h.5, h.6, h.7, h.8⟩

/-- RESET (rule R181). -/
theorem resetOp_follows (s : State) : s.Follows (resetOp s) resetEvents := by
  rw [resetOp_eq]
  have h := State.Follows.emit
    (winClear ((((((s.setPhase .done).setOverflow false).setBufLen 0).setCursor 0 0).setShiftCount 1).setResult .none))
    resetEvents rfl
  exact ⟨h.1, h.2, h.3, h.4, h.5, h.6, h.7, h.8⟩

/-- The events of an operation that `rst` cut short, and the rest of the state it leaves to RESET (rule R183). -/
theorem replay_frame (es : List Event) (s : State) :
    (replay es s).trace = s.trace ++ es ∧ (replay es s).pins = s.pins.afterAll es ∧
      (replay es s).glyphMem = s.glyphMem ∧ (replay es s).params = s.params ∧
      (replay es s).requests = s.requests ∧ (replay es s).bufLen = s.bufLen ∧
      (replay es s).shiftCount = s.shiftCount := by
  induction es generalizing s with
  | nil => simp [replay]
  | cons e es ih =>
    rw [replay]
    have h : (replayEvent s e).trace = s.trace ++ [e] ∧ (replayEvent s e).pins = s.pins.after e ∧
        (replayEvent s e).glyphMem = s.glyphMem ∧ (replayEvent s e).params = s.params ∧
        (replayEvent s e).requests = s.requests ∧ (replayEvent s e).bufLen = s.bufLen ∧
        (replayEvent s e).shiftCount = s.shiftCount := by
      cases e <;> exact ⟨rfl, rfl, rfl, rfl, rfl, rfl, rfl⟩
    obtain ⟨a, b, c, d, f, g, i⟩ := h
    obtain ⟨h1, h2, h3, h4, h5, h6, h7⟩ := ih (replayEvent s e)
    rw [h1, h2, h3, h4, h5, h6, h7, a, b, c, d, f, g, i]
    simp

end Sys2Proof.Machine
end

