-- ==== Sys2Proof/Laws/Memory.lean ====
section
/-! SUPPORT. Glyph memory: a read after a write, and the canonical form kept by every memory operation. -/

namespace Sys2Proof.Machine

theorem Memory.wfAbove_mono {m : Memory} {low low' : Nat} (h : m.wfAbove low = true) (hl : low' ≤ low) :
    m.wfAbove low' = true := by
  cases m with
  | nil => rfl
  | cons c rest =>
    simp only [Memory.wfAbove, Bool.and_eq_true, decide_eq_true_eq] at h ⊢
    exact ⟨⟨by omega, h.1.2⟩, h.2⟩

/-- An address below every listed one is unlisted. -/
theorem Memory.read_below {m : Memory} {low addr : Nat} (h : m.wfAbove low = true) (ha : addr < low) :
    m.read addr = Config.unlistedByte := by
  induction m generalizing low with
  | nil => rfl
  | cons c rest ih =>
    obtain ⟨a, v⟩ := c
    simp only [Memory.wfAbove, Bool.and_eq_true, decide_eq_true_eq] at h
    rw [Memory.read, if_neg (by omega)]
    exact ih h.2 (by omega)

theorem Memory.read_erase {m : Memory} {low : Nat} (h : m.wfAbove low = true) (addr a : Nat) :
    (m.erase addr).read a = if a = addr then Config.unlistedByte else m.read a := by
  induction m generalizing low with
  | nil => simp [Memory.erase, Memory.read]
  | cons c rest ih =>
    obtain ⟨b, v⟩ := c
    simp only [Memory.wfAbove, Bool.and_eq_true, decide_eq_true_eq] at h
    by_cases hb : b = addr
    · subst hb
      rw [Memory.erase, if_pos rfl, Memory.read]
      by_cases ha : a = b
      · rw [if_pos ha, Memory.read_below h.2 (by omega)]
      · rw [if_neg ha, if_neg (fun h => ha h.symm)]
    · rw [Memory.erase, if_neg hb, Memory.read, Memory.read, ih h.2]
      by_cases ha : b = a
      · rw [if_pos ha, if_pos ha, if_neg (by omega)]
      · rw [if_neg ha, if_neg ha]

theorem Memory.read_insert {m : Memory} {low : Nat} (h : m.wfAbove low = true) (addr : Nat) (b : Byte) (a : Nat) :
    (m.insert addr b).read a = if a = addr then b else m.read a := by
  induction m generalizing low with
  | nil => simp [Memory.insert, Memory.read, eq_comm]
  | cons c rest ih =>
    obtain ⟨x, v⟩ := c
    simp only [Memory.wfAbove, Bool.and_eq_true, decide_eq_true_eq] at h
    rw [Memory.insert]
    split
    · rw [Memory.read]; simp only [eq_comm]
    · split
      · rename_i _ hx
        subst hx
        rw [Memory.read, Memory.read]
        by_cases ha : x = a
        · simp [ha]
        · rw [if_neg ha, if_neg ha, if_neg (fun h => ha h.symm)]
      · rw [Memory.read, Memory.read, ih h.2]
        by_cases ha : x = a
        · rw [if_pos ha, if_pos ha, if_neg (by omega)]
        · rw [if_neg ha, if_neg ha]

theorem Memory.erase_wfAbove {m : Memory} {low : Nat} (h : m.wfAbove low = true) (addr : Nat) :
    (m.erase addr).wfAbove low = true := by
  induction m generalizing low with
  | nil => rfl
  | cons c rest ih =>
    obtain ⟨b, v⟩ := c
    have h' := h
    simp only [Memory.wfAbove, Bool.and_eq_true, decide_eq_true_eq] at h
    rw [Memory.erase]
    split
    · exact Memory.wfAbove_mono h.2 (by omega)
    · simp only [Memory.wfAbove, Bool.and_eq_true, decide_eq_true_eq]
      exact ⟨h.1, ih h.2⟩

theorem Memory.insert_wfAbove {m : Memory} {low addr : Nat} {b : Byte} (h : m.wfAbove low = true)
    (ha : low ≤ addr) (hb : b ≠ Config.unlistedByte) : (m.insert addr b).wfAbove low = true := by
  induction m generalizing low with
  | nil => simp [Memory.insert, Memory.wfAbove, ha, hb]
  | cons c rest ih =>
    obtain ⟨x, v⟩ := c
    simp only [Memory.wfAbove, Bool.and_eq_true, decide_eq_true_eq] at h
    rw [Memory.insert]
    split
    · simp only [Memory.wfAbove, Bool.and_eq_true, decide_eq_true_eq]
      exact ⟨⟨ha, hb⟩, ⟨by omega, h.1.2⟩, h.2⟩
    · split
      · rename_i _ hx
        subst hx
        simp only [Memory.wfAbove, Bool.and_eq_true, decide_eq_true_eq]
        exact ⟨⟨h.1.1, hb⟩, h.2⟩
      · simp only [Memory.wfAbove, Bool.and_eq_true, decide_eq_true_eq]
        exact ⟨h.1, ih h.2 (by omega)⟩

/-- A write keeps the canonical form. -/
theorem Memory.write_wf {m : Memory} (h : m.wf = true) (addr : Nat) (b : Byte) : (m.write addr b).wf = true := by
  unfold Memory.write
  split
  · exact Memory.erase_wfAbove h addr
  · exact Memory.insert_wfAbove h (Nat.zero_le _) (by assumption)

/-- A read after a write: the byte written there, the earlier byte everywhere else. -/
theorem Memory.read_write {m : Memory} (h : m.wf = true) (addr : Nat) (b : Byte) (a : Nat) :
    (m.write addr b).read a = if a = addr then b else m.read a := by
  unfold Memory.write
  split
  · rename_i hb
    rw [Memory.read_erase h, hb]
  · exact Memory.read_insert h addr b a

theorem State.reset_memory_wf : State.reset.glyphMem.wf = true := rfl

end Sys2Proof.Machine
end

