-- ==== Sys2Proof/Laws/PerInstr.lean ====
section
/-! SUPPORT. Facts about every instruction as syntax, one lemma per constructor: its record opens with an operation id of
rule R71 or with the byte 0x00. -/

namespace Sys2Proof.Laws.RecordOpens

/-- The record's first byte is an id 0x01 to 0x1A, or 0x00. -/
def Statement (i : Instr) : Prop := ∃ b rest, encode i = b :: rest ∧ b.toNat ≤ 0x1A

theorem pinWrite (line : Line) (level : Bool) : Statement (.pinWrite line level) := ⟨_, _, rfl, by decide⟩

theorem emitBit (b : Bool) : Statement (.emitBit b) := ⟨_, _, rfl, by decide⟩

theorem shiftOut8 (v : Byte) : Statement (.shiftOut8 v) := ⟨_, _, rfl, by decide⟩

theorem emitColumns (p bitWidth : Nat) : Statement (.emitColumns p bitWidth) := ⟨_, _, rfl, by decide⟩

theorem emitRowscan (v : Byte) : Statement (.emitRowscan v) := ⟨_, _, rfl, by decide⟩

theorem latch : Statement .latch := ⟨_, _, rfl, by decide⟩

theorem setOe (level : Bool) : Statement (.setOe level) := ⟨_, _, rfl, by decide⟩

theorem clearRegs : Statement .clearRegs := ⟨_, _, rfl, by decide⟩

theorem winClear : Statement .winClear := ⟨_, _, rfl, by decide⟩

theorem winSetPixel (row col : Nat) (value : Bool) : Statement (.winSetPixel row col value) := ⟨_, _, rfl, by decide⟩

theorem winShiftLeft (n : Nat) : Statement (.winShiftLeft n) := ⟨_, _, rfl, by decide⟩

theorem winReadRow (row : Nat) : Statement (.winReadRow row) := ⟨_, _, rfl, by decide⟩

theorem scanRow (row : Nat) : Statement (.scanRow row) := ⟨_, _, rfl, by decide⟩

theorem scanFrame : Statement .scanFrame := ⟨_, _, rfl, by decide⟩

theorem glyphBit (i r c : Nat) : Statement (.glyphBit i r c) := ⟨_, _, rfl, by decide⟩

theorem reset : Statement .reset := ⟨_, _, rfl, by decide⟩

theorem start (glyphLen : Nat) : Statement (.start glyphLen) := ⟨_, _, rfl, by decide⟩

theorem tick : Statement .tick := ⟨_, _, rfl, by decide⟩

theorem poll : Statement .poll := ⟨_, _, rfl, by decide⟩

theorem fillWindow : Statement .fillWindow := ⟨_, _, rfl, by decide⟩

theorem tickFill : Statement .tickFill := ⟨_, _, rfl, by decide⟩

theorem tickDrain : Statement .tickDrain := ⟨_, _, rfl, by decide⟩

theorem dwellScan : Statement .dwellScan := ⟨_, _, rfl, by decide⟩

theorem advanceCursor : Statement .advanceCursor := ⟨_, _, rfl, by decide⟩

theorem abort : Statement .abort := ⟨_, _, rfl, by decide⟩

theorem runPass (glyphLen : Nat) : Statement (.runPass glyphLen) := ⟨_, _, rfl, by decide⟩

theorem winGetPixel (row col : Nat) : Statement (.winGetPixel row col) := ⟨_, _, rfl, by decide⟩

theorem rowsel0 : Statement .rowsel0 := ⟨_, _, rfl, by decide⟩

theorem rowsel1 : Statement .rowsel1 := ⟨_, _, rfl, by decide⟩

theorem rowsel2 : Statement .rowsel2 := ⟨_, _, rfl, by decide⟩

theorem rowsel3 : Statement .rowsel3 := ⟨_, _, rfl, by decide⟩

theorem rowsel4 : Statement .rowsel4 := ⟨_, _, rfl, by decide⟩

theorem rowsel5 : Statement .rowsel5 := ⟨_, _, rfl, by decide⟩

theorem rowsel6 : Statement .rowsel6 := ⟨_, _, rfl, by decide⟩

theorem rowsel7 : Statement .rowsel7 := ⟨_, _, rfl, by decide⟩

theorem chunk (v : Byte) : Statement (.chunk v) := ⟨_, _, rfl, by decide⟩

theorem colfield (c : Word) : Statement (.colfield c) := ⟨_, _, rfl, by decide⟩

theorem rowframe (c : Word) (r : Byte) : Statement (.rowframe c r) := ⟨_, _, rfl, by decide⟩

theorem bitcell (b : Bool) : Statement (.bitcell b) := ⟨_, _, rfl, by decide⟩

theorem latchpulse : Statement .latchpulse := ⟨_, _, rfl, by decide⟩

theorem frame : Statement .frame := ⟨_, _, rfl, by decide⟩

theorem clearseq : Statement .clearseq := ⟨_, _, rfl, by decide⟩

theorem phaseFilling : Statement .phaseFilling := ⟨_, _, rfl, by decide⟩

theorem phaseDraining : Statement .phaseDraining := ⟨_, _, rfl, by decide⟩

theorem phaseDone : Statement .phaseDone := ⟨_, _, rfl, by decide⟩

theorem glyphRowByte (i r : Nat) (v : Byte) : Statement (.glyphRowByte i r v) := ⟨_, _, rfl, by decide⟩

theorem windowRowWord (row : Nat) (c : Word) : Statement (.windowRowWord row c) := ⟨_, _, rfl, by decide⟩

theorem causeBufferOverflow : Statement .causeBufferOverflow := ⟨_, _, rfl, by decide⟩

end Sys2Proof.Laws.RecordOpens
end

