-- ==== Sys2Proof/Tests/Slice0.lean ====
section
/-! SUPPORT. Tests of single operations. Every expected value is one of the spec's: the vectors of 95_test_vectors.md
(named in each comment), the tables of 30_encoding.md, or the encoding of a record as log entries 2 and 3 give it. -/

namespace Sys2Proof.Tests

open Sys2Proof.Machine

/-- A condition on the next state; false where the machine stops. -/
def nextIs (o : Host.Outcome State Fault Refusal) (p : State → Bool) : Bool :=
  match o with
  | .next t => p t
  | .fault _ => false
  | .refused _ => false

/-- The reason of a refusal. -/
def refusedBy (o : Host.Outcome State Fault Refusal) : Option Refusal :=
  match o with
  | .next _ => none
  | .fault _ => none
  | .refused r => some r

/-- The reason of a fault. -/
def faultBy (o : Host.Outcome State Fault Refusal) : Option Fault :=
  match o with
  | .next _ => none
  | .fault f => some f
  | .refused _ => none

/-- After reset, with `MAX_GLYPHS = 4` and `FRAMES_PER_TICK = 1` (vector T-X1). -/
def idle : State := { State.reset with params := { maxGlyphs := 4, framesPerTick := 1 } }

/-- The glyph buffer `[T0, T1]` of 95_test_vectors.md, section 0. -/
def twoGlyphs : Memory :=
  [(0, 0x01), (1, 0x02), (2, 0x04), (3, 0x08), (4, 0x10), (5, 0x20), (6, 0x40), (7, 0x80)] ++
    [(8, 0xFF), (9, 0x01), (10, 0x01), (11, 0x01), (12, 0x01), (13, 0x01), (14, 0x01), (15, 0x03)]

/-- Two glyphs in memory, a pass begun at the given cursor, four polls answered 0. -/
def filling (g : Nat) (o : BitVec 3) : State :=
  { idle with glyphMem := twoGlyphs, phase := .filling, bufLen := 2, startGlyph := g, startOffset := o,
              pollAnswers := [false, false, false, false] }

/-- A drain at the given shift count, `W[0]` as given, four polls answered 0. -/
def draining (n : BitVec 6) (w : Word) : State :=
  { idle with phase := .draining, bufLen := 2, startGlyph := 2, shiftCount := n,
              window := { Window.zero with w0 := w }, pollAnswers := [false, false, false, false] }

/-- `W[0]` as given, after reset. -/
def withRow0 (w : Word) : State := { idle with window := { Window.zero with w0 := w } }

/-- The events an instruction adds. -/
def added (s t : State) : List Event := t.trace.drop s.trace.length

/-! Bus driver. -/

/-- T-B1 (b): writing the level already driven still records the event. -/
theorem test_pin_write_no_edge :
    nextIs (exec (.pinWrite .sck false) idle) (fun t => t.pins = idle.pins ∧ t.trace = [.pin .sck false]) = true := by
  decide

/-- T-B2, first row. -/
theorem test_emit_bit :
    nextIs (exec (.emitBit true) idle) (fun t =>
      t.trace = [.pin .sck false, .pin .data true, .pin .sck true] ∧ t.pins.sck ∧ t.pins.data) = true := by
  decide

/-- T-B3, 0xA5: bits 10100101. -/
theorem test_shift_out8_A5 :
    nextIs (exec (.shiftOut8 0xA5) idle) (fun t =>
      clockedBits idle.pins t.trace = [true, false, true, false, false, true, false, true] ∧ t.trace.length = 24)
      = true := by
  decide

/-- T-B4, 0x12345678, 32: read as one number, first bit most significant, it is 0x12345678 again (T-S7). -/
theorem test_emit_columns_32 :
    nextIs (exec (.emitColumns 0x12345678 32) idle) (fun t =>
      msbFirst (clockedBits idle.pins t.trace) = 0x12345678 ∧ t.trace.length = 96 ∧ t.pins.data = false) = true := by
  decide

/-- Rule R69 (a): a pattern of 40 bits is five chunks, the most significant first. -/
theorem test_chunks_40 : chunksOf 0x8012345601 (chunkCount 40) = [0x80, 0x12, 0x34, 0x56, 0x01] := by decide

/-- T-B4, 0x1ABC, 12: chunks 1A BC. -/
theorem test_emit_columns_12 :
    nextIs (exec (.emitColumns 0x1ABC 12) idle) (fun t =>
      msbFirst (clockedBits idle.pins t.trace) = 0x1ABC ∧ (clockedBits idle.pins t.trace).length = 16) = true := by
  decide

/-- T-B5, row 7: 00000001, DATA left at 1. -/
theorem test_emit_rowscan_row7 :
    nextIs (exec (.emitRowscan 0x01) idle) (fun t =>
      msbFirst (clockedBits idle.pins t.trace) = 1 ∧ t.pins.data) = true := by
  decide

/-- T-B6. -/
theorem test_latch : nextIs (exec .latch idle) (fun t => t.trace = [.pin .lck false, .pin .lck true]) = true := by
  decide

/-- T-B7. -/
theorem test_set_oe : nextIs (exec (.setOe true) idle) (fun t => t.pins.oeN ∧ t.trace = [.pin .oeN true]) = true := by
  decide

/-- T-B8: from `SR = 80FF000080`, `OUT = 01C0000001` everything is cleared and dark. -/
theorem test_clear_regs :
    nextIs (exec .clearRegs { idle with panel := { sr := 0x80FF000080, out := 0x01C0000001 } }) (fun t =>
      t.panel = { sr := 0, out := 0 } ∧
      t.trace = [.pin .oeN true, .pin .clrN false, .pin .clrN true, .pin .lck false, .pin .lck true, .pin .oeN false])
      = true := by
  decide

/-- T-B8, first line: row 7, columns 7, 8, 9 are lit before, and column 6 is not. -/
theorem test_lit_before_clear :
    let s := { idle with panel := { sr := 0x80FF000080, out := 0x01C0000001 } }
    (s.lit 7 7 && s.lit 7 8 && s.lit 7 9 && !s.lit 7 6 && !s.lit 6 7) = true := by
  decide

/-! Window. -/

/-- T-W1, two of its rows. -/
theorem test_win_clear :
    nextIs (exec .winClear { idle with window := ⟨0xDEADBEEF, 1, 0x80000000, 0xFFFFFFFF, 0, 0x12345678, 0x0F0F0F0F,
      0xF0F0F0F0⟩ }) (fun t => t.window = Window.zero) = true := by
  decide

/-- T-W2: `WIN_SET_PIXEL 2, 9, 1` gives `W[2] = 00400000`. -/
theorem test_set_pixel :
    nextIs (exec (.winSetPixel 2 9 true) idle) (fun t => t.window = { Window.zero with w2 := 0x00400000 }) = true := by
  decide

/-- T-W2: from `FFFFFFFF`, `WIN_SET_PIXEL 0, 8, 0` gives `FF7FFFFF`. -/
theorem test_set_pixel_clears :
    nextIs (exec (.winSetPixel 0 8 false) (withRow0 0xFFFFFFFF)) (fun t => t.window.w0 = 0xFF7FFFFF) = true := by
  decide

/-- T-W3: one place, and the full width. -/
theorem test_shift_left :
    nextIs (exec (.winShiftLeft 1) (withRow0 0x80FF0001)) (fun t => t.window.w0 = 0x01FE0002) = true ∧
    nextIs (exec (.winShiftLeft 32) (withRow0 0x00000001)) (fun t => t.window.w0 = 0) = true := by
  decide

/-- T-W4. -/
theorem test_read_row :
    nextIs (exec (.winReadRow 0) (withRow0 0x80FF0000)) (fun t => t.result = .row 0x80FF0000) = true := by
  decide

/-- T-W4: column 15 lit, column 16 dark. -/
theorem test_get_pixel :
    nextIs (exec (.winGetPixel 0 15) (withRow0 0x80FF0000)) (fun t => t.result = .bit true) = true ∧
    nextIs (exec (.winGetPixel 0 16) (withRow0 0x80FF0000)) (fun t => t.result = .bit false) = true := by
  decide

/-- T-W2, last row, and rule R104: refused. -/
theorem test_out_of_range :
    refusedBy (exec (.winSetPixel 8 0 true) idle) = some .operandRange ∧
    refusedBy (exec (.winSetPixel 0 32 true) idle) = some .operandRange ∧
    refusedBy (exec (.winReadRow 8) idle) = some .operandRange := by
  decide

/-! Scanner. -/

/-- T-C1, row 0: 80FF000080, then the latch pulse and the dwell. -/
theorem test_scan_row0 :
    nextIs (exec (.scanRow 0) (withRow0 0x80FF0000)) (fun t =>
      msbFirst (clockedBits idle.pins t.trace) = 0x80FF000080 ∧ t.trace.length = 123 ∧
      t.trace.drop 120 = [.pin .lck false, .pin .lck true, .dwellRow] ∧ t.panel.out = 0x80FF000080) = true := by
  decide +kernel

/-- T-C1, row 5 dark: the row-select byte alone, and row 7 ends with DATA 1. -/
theorem test_scan_row_dark :
    nextIs (exec (.scanRow 5) idle) (fun t => t.panel.out = 0x04 ∧ t.pins.data = false) = true ∧
    nextIs (exec (.scanRow 7) idle) (fun t => t.panel.out = 0x01 ∧ t.pins.data) = true := by
  decide +kernel

/-! Engine. -/

/-- T-E1: `GLYPH_BIT 1, 7, 1 = 1`, `GLYPH_BIT 1, 7, 2 = 0`. -/
theorem test_glyph_bit :
    nextIs (exec (.glyphBit 1 7 1) (filling 0 0)) (fun t => t.result = .bit true) = true ∧
    nextIs (exec (.glyphBit 1 7 2) (filling 0 0)) (fun t => t.result = .bit false) = true := by
  decide

/-- T-E1, last row. -/
theorem test_glyph_bit_beyond : refusedBy (exec (.glyphBit 2 0 0) (filling 0 0)) = some .glyphBeyondLength := by
  decide

/-- T-X1: `START 4`. -/
theorem test_start_at_capacity :
    nextIs (exec (.start 4) idle) (fun t =>
      t.phase = .filling ∧ t.bufLen = 4 ∧ t.overflow = false ∧ t.trace.length = 6) = true := by
  decide

/-- T-X1: `START 5` sets the flag and nothing else. -/
theorem test_start_overflow :
    nextIs (exec (.start 5) idle) (fun t => t = { idle with overflow := true }) = true := by
  decide

/-- T-E2, `[T0,T1]`, (0,0). -/
theorem test_fill_window :
    nextIs (exec .fillWindow (filling 0 0)) (fun t =>
      t.window = ⟨0x80FF0000, 0x40800000, 0x20800000, 0x10800000, 0x08800000, 0x04800000, 0x02800000, 0x01C00000⟩)
      = true := by
  decide

/-- T-E2, `[T0,T1]`, (1,7): one column. -/
theorem test_fill_window_last_column :
    nextIs (exec .fillWindow (filling 1 7)) (fun t => t.window = { Window.zero with w0 := 0x80000000 }) = true := by
  decide

/-- T-E3: (0,7) becomes (1,0) and stays FILLING. -/
theorem test_advance_cursor_wraps :
    nextIs (exec .advanceCursor (filling 0 7)) (fun t =>
      t.startGlyph = 1 ∧ t.startOffset = 0 ∧ t.phase = .filling) = true := by
  decide

/-- T-E3: (1,7) becomes (2,0), DRAINING. -/
theorem test_advance_cursor_drains :
    nextIs (exec .advanceCursor (filling 1 7)) (fun t =>
      t.startGlyph = 2 ∧ t.startOffset = 0 ∧ t.phase = .draining) = true := by
  decide

/-- Rule R129, Example: `FRAMES_PER_TICK = 2`, poll 1 first: `Poll(1) Pin(OE_n,1)`, aborted (T-E5, third row). -/
theorem test_dwell_aborted :
    nextIs (exec .dwellScan { draining 1 0 with pollAnswers := [true], params := ⟨4, 2⟩ }) (fun t =>
      t.trace = [.poll true, .pin .oeN true] ∧ t.result = .dwell .aborted ∧ t.phase = .done) = true := by
  decide

/-- T-S6: an abort at the start of a DRAINING tick. -/
theorem test_tick_drain_aborted :
    nextIs (exec .tickDrain { draining 3 0 with pollAnswers := [true] }) (fun t =>
      t.trace = [.poll true, .pin .oeN true] ∧ t.phase = .done ∧ t.shiftCount = 3) = true := by
  decide

/-- T-E4, the harness row 1, 00000003: the window is shifted in place and the count goes to 2. -/
theorem test_tick_drain :
    nextIs (exec .tickDrain (draining 1 3)) (fun t =>
      t.window.w0 = 6 ∧ t.shiftCount = 2 ∧ t.phase = .draining) = true := by
  decide +kernel

/-- T-E4, count 32: DONE, the count stays. -/
theorem test_tick_drain_ends :
    nextIs (exec .tickDrain (draining 32 0)) (fun t => t.shiftCount = 32 ∧ t.phase = .done) = true := by
  decide +kernel

/-- P2, tick 0: the window of the tick and the cursor after it. -/
theorem test_tick_fill :
    nextIs (exec .tickFill (filling 0 0)) (fun t =>
      t.window.w0 = 0x80FF0000 ∧ t.window.w7 = 0x01C00000 ∧ t.startOffset = 1 ∧ t.phase = .filling) = true := by
  decide +kernel

/-- P1, step 3: the empty pass ends in one tick whose trace is `Poll(0)`. -/
theorem test_tick_empty :
    nextIs (exec .tick { filling 0 0 with bufLen := 0 }) (fun t =>
      t.phase = .done ∧ t.window = Window.zero ∧ t.trace = [.poll false] ∧ t.pins.oeN = false) = true := by
  decide

/-- T-X5: the poll comes before the empty-buffer shortcut. -/
theorem test_tick_empty_aborted :
    nextIs (exec .tick { filling 0 0 with bufLen := 0, pollAnswers := [true] }) (fun t =>
      t.phase = .done ∧ t.trace = [.poll true, .pin .oeN true] ∧ t.pins.oeN) = true := by
  decide

/-- T-E7. -/
theorem test_tick_done : nextIs (exec .tick idle) (fun t => t = idle) = true := by decide

/-- Rule R123, Example. -/
theorem test_poll :
    nextIs (exec .poll (filling 0 0)) (fun t => t.trace = [.poll false] ∧ t.result = .bit false) = true := by
  decide

/-- T-E6. -/
theorem test_abort :
    nextIs (exec .abort (filling 0 3)) (fun t =>
      t = { filling 0 3 with phase := .done, pins := { idle.pins with oeN := true }, trace := [.pin .oeN true] })
      = true := by
  decide

/-- P1 as one composite: `RUN_PASS 0` with poll 0: CLEARSEQ and one poll. -/
theorem test_run_pass_empty :
    nextIs (exec (.runPass 0) { idle with pollAnswers := [false] }) (fun t =>
      t.phase = .done ∧ t.trace.length = 7 ∧ t.pins.oeN = false) = true := by
  decide

/-! Reset and the rst input. -/

/-- T-X3: RESET after an abort. -/
theorem test_reset :
    nextIs (exec .reset { filling 0 2 with pins := ⟨true, true, true, true, true⟩, phase := .done }) (fun t =>
      t = { idle with glyphMem := twoGlyphs, pollAnswers := t.pollAnswers, trace := t.trace } ∧ t.trace.length = 11)
      = true := by
  decide

/-- T-X7: `rst` after 13 bit cells of SCAN_ROW 0: 39 events, then RESET's 11; the 13 bits are never latched. -/
theorem test_rst_mid_row :
    nextIs (step { withRow0 0x80FF0000 with requests := [[0x0D, 0]], rst := some 39 }) (fun t =>
      t.trace.length = 50 ∧ msbFirst (clockedBits idle.pins (t.trace.take 39)) = 0x101F ∧
      t.panel = { sr := 0, out := 0 } ∧ t.window = Window.zero ∧ t.requests = [] ∧ t.rst = none) = true := by
  decide +kernel

/-! Formats, codes and the host's write. -/

/-- Rules R60, R61: BITCELL, LATCHPULSE, CHUNK, CLEARSEQ. -/
theorem test_formats :
    nextIs (exec (.bitcell false) idle) (fun t => t.trace = [.pin .sck false, .pin .data false, .pin .sck true]) = true ∧
    nextIs (exec .latchpulse idle) (fun t => t.trace = [.pin .lck false, .pin .lck true]) = true ∧
    nextIs (exec (.chunk 0x80) idle) (fun t => msbFirst (clockedBits idle.pins t.trace) = 0x80) = true ∧
    nextIs (exec .clearseq idle) (fun t => t.trace.length = 6) = true := by
  decide

/-- Rule R64, rows 0 and 5. -/
theorem test_rowsel :
    nextIs (exec .rowsel0 idle) (fun t => msbFirst (clockedBits idle.pins t.trace) = 0x80) = true ∧
    nextIs (exec .rowsel5 idle) (fun t => msbFirst (clockedBits idle.pins t.trace) = 0x04) = true := by
  decide

/-- Rules R63, R65: COLFIELD and ROWFRAME (T-C1, row 7). -/
theorem test_colfield_rowframe :
    nextIs (exec (.colfield 0x80FF0000) idle) (fun t => msbFirst (clockedBits idle.pins t.trace) = 0x80FF0000) = true ∧
    nextIs (exec (.rowframe 0x01C00000 0x01) idle) (fun t => t.panel.out = 0x01C0000001) = true := by
  decide +kernel

/-- Rules R12, R21, R70, R151: the codes and words that state holds. -/
theorem test_state_codes :
    nextIs (exec .phaseFilling idle) (fun t => t.phase = .filling) = true ∧
    nextIs (exec .phaseDraining idle) (fun t => t.phase = .draining) = true ∧
    nextIs (exec .phaseDone (filling 0 0)) (fun t => t.phase = .done) = true ∧
    nextIs (exec (.windowRowWord 3 0x00008000) idle) (fun t => t.pixel 3 16) = true ∧
    nextIs (exec .causeBufferOverflow idle) (fun t => t = { idle with overflow := true }) = true := by
  decide

/-- Rules R41, R42: the host's byte 0x03 for row 7 of glyph 1 goes to address 15, in address order; writing 0 removes
it. -/
theorem test_glyph_row_byte :
    nextIs (exec (.glyphRowByte 1 7 0x03) { idle with glyphMem := [(3, 0x08), (16, 0xFF)] }) (fun t =>
      t.glyphMem = [(3, 0x08), (15, 0x03), (16, 0xFF)]) = true ∧
    nextIs (exec (.glyphRowByte 0 3 0x00) { idle with glyphMem := [(3, 0x08), (16, 0xFF)] }) (fun t =>
      t.glyphMem = [(16, 0xFF)]) = true := by
  decide

/-- U4 and rule R40: below `bufLen` during a pass refused, beyond the capacity no such byte. -/
theorem test_glyph_row_byte_stops :
    refusedBy (exec (.glyphRowByte 1 0 0x01) (filling 0 0)) = some .hostWriteDuringPass ∧
    faultBy (exec (.glyphRowByte 4 0 0x01) idle) = some .glyphAddress := by
  decide

/-! Well-formedness: one ill-formed term for each check. -/

theorem test_ill_formed :
    [Instr.emitColumns 0 0, .winSetPixel 8 0 true, .winSetPixel 0 32 true, .winReadRow 8, .scanRow 8, .glyphBit 0 8 0,
      .glyphBit 0 0 8, .winGetPixel 8 0, .winGetPixel 0 32, .glyphRowByte 0 8 0, .windowRowWord 8 0].all
      (fun i => !i.wf) = true := by
  decide

/-! Decoding. The first byte of each record is the id of rule R71 in binary. -/

/-- Rules R71, R81 to R88: the bus driver. -/
theorem test_decode_bus :
    decode [0b00001, 0x02, 0x00] = .ok (.pinWrite .lck false) ∧ decode [0b00010, 1] = .ok (.emitBit true) ∧
    decode [0b00011, 0xA5] = .ok (.shiftOut8 0xA5) ∧
    decode [0b00100, 0x78, 32, 0x56, 0, 0x34, 0, 0x12] = .ok (.emitColumns 0x12345678 32) ∧
    decode [0b00101, 0x80] = .ok (.emitRowscan 0x80) ∧ decode [0b00110] = .ok .latch ∧
    decode [0b00111, 1] = .ok (.setOe true) ∧ decode [0b01000] = .ok .clearRegs := by
  decide

/-- Rules R71, R101 to R112: the window and the scanner. -/
theorem test_decode_window_scanner :
    decode [0b01001] = .ok .winClear ∧ decode [0b01010, 2, 9, 1] = .ok (.winSetPixel 2 9 true) ∧
    decode [0b01011, 32, 0, 0, 0] = .ok (.winShiftLeft 32) ∧ decode [0b01100, 7] = .ok (.winReadRow 7) ∧
    decode [0b01101, 5] = .ok (.scanRow 5) ∧ decode [0b01110] = .ok .scanFrame ∧
    decode [0, 12, 0, 31] = .ok (.winGetPixel 0 31) := by
  decide

/-- Rules R71, R121 to R132, R181: the engine and the system operations. -/
theorem test_decode_engine :
    decode [0b01111, 7, 2, 1] = .ok (.glyphBit 1 7 2) ∧ decode [0b10000] = .ok .reset ∧
    decode [0b10001, 2] = .ok (.start 2) ∧ decode [0b10010] = .ok .tick ∧ decode [0b10011] = .ok .poll ∧
    decode [0b10100] = .ok .fillWindow ∧ decode [0b10101] = .ok .tickFill ∧ decode [0b10110] = .ok .tickDrain ∧
    decode [0b10111] = .ok .dwellScan ∧ decode [0b11000] = .ok .advanceCursor ∧ decode [0b11001] = .ok .abort ∧
    decode [0b11010, 0, 1] = .ok (.runPass 256) := by
  decide

/-- Rules R61 to R68: the wire formats, under the format bytes of log entry 3. -/
theorem test_decode_formats :
    decode [0, 1, 0b10000000] = .ok .rowsel0 ∧ decode [0, 1, 0b01000000] = .ok .rowsel1 ∧
    decode [0, 1, 0b00100000] = .ok .rowsel2 ∧ decode [0, 1, 0b00010000] = .ok .rowsel3 ∧
    decode [0, 1, 0b00001000] = .ok .rowsel4 ∧ decode [0, 1, 0b00000100] = .ok .rowsel5 ∧
    decode [0, 1, 0b00000010] = .ok .rowsel6 ∧ decode [0, 1, 0b00000001] = .ok .rowsel7 ∧
    decode [0, 2, 0x80] = .ok (.chunk 0x80) ∧ decode [0, 3, 0, 0, 0xFF, 0x80] = .ok (.colfield 0x80FF0000) ∧
    decode [0, 4, 0x80, 0, 0, 0xFF, 0x80] = .ok (.rowframe 0x80FF0000 0x80) ∧ decode [0, 5, 1] = .ok (.bitcell true) ∧
    decode [0, 6] = .ok .latchpulse ∧ decode [0, 7] = .ok .frame ∧ decode [0, 8] = .ok .clearseq := by
  decide

/-- Rules R21, R42, R70, R151: the codes and words that state holds. -/
theorem test_decode_codes :
    decode [0, 0, 0b00] = .ok .phaseFilling ∧ decode [0, 0, 0b01] = .ok .phaseDraining ∧
    decode [0, 0, 0b10] = .ok .phaseDone ∧ decode [0, 9, 7, 0x03, 1] = .ok (.glyphRowByte 1 7 0x03) ∧
    decode [0, 10, 3, 0, 0x80, 0, 0] = .ok (.windowRowWord 3 0x00008000) ∧
    decode [0, 11, 1] = .ok .causeBufferOverflow := by
  decide

/-- What is no operation is rejected by name (rule R72, U5, U7). -/
theorem test_decode_rejects :
    decode [] = .error .truncated ∧ decode [0x11] = .error .truncated ∧ decode [0x1B] = .error .unassignedId ∧ decode [0, 13] = .error .unassignedFormat ∧
    decode [0, 0, 0b11] = .error .notAPhaseCode ∧ decode [0, 1, 0x03] = .error .notARowSelect ∧
    decode [0, 11, 2] = .error .notACause ∧ decode [1, 5, 0] = .error .notALine ∧ decode [2, 2] = .error .notABit ∧
    decode [0x0D, 8] = .error .operandRange ∧ decode [6, 1] = .error .trailing := by
  decide

/-- The table's words as the host numbers them: the ids, and the row-select byte that is no id (log entry 3). -/
theorem test_table_words :
    decodeTableWord 8 0x16 = some .tickDrain ∧ decodeTableWord 8 0x20 = some .rowsel2 ∧
    decodeTableWord 8 0x00 = some .phaseFilling ∧ decodeTableWord 40 0x80FF000080 = some (.rowframe 0x80FF0000 0x80) := by
  decide

/-- The first step after reset performs the word placed by `withFetchWord`. -/
theorem test_fetch_word :
    nextIs (step (State.reset.withFetchWord 8 0x06)) (fun t => t.trace = [.pin .lck false, .pin .lck true]) = true ∧
    nextIs (step (State.reset.withFetchWord 8 0x11)) (fun t => t.phase = .filling) = true := by
  decide

/-! Witnesses: for every statement with hypotheses, a state and operands that meet them all, at the ends of the ranges. -/

/-- A pass over one glyph with every poll of it answered 0: `8*1 + 32` ticks of two polls. -/
def quietPass : State :=
  { idle with glyphMem := twoGlyphs, phase := .filling, bufLen := 1, pollAnswers := List.replicate 80 false }

/-- The last FILLING tick of two glyphs. -/
def lastFilling : State := filling 1 7

/-- EmitColumnsSendsChunks. -/
theorem wit_emit_columns : 1 ≤ 1 ∧ 1 ≤ 32 ∧
    nextIs (exec (.emitColumns 0x1FF 1) idle) (fun t => (clockedBits idle.pins t.trace).length = 8) = true := by decide

/-- WireOperationsFrame, ScanRowSendsRowFrame, PixelRoundTripsToTheWire, WindowRowWordWrites: the last row. -/
theorem wit_row : 1 ≤ 32 ∧ 7 < 8 ∧ nextIs (exec (.windowRowWord 7 1) idle) (fun t => t.pixel 7 31) = true := by decide

/-- SetPixelThenGet, WindowReadsReturn: the last row and column. -/
theorem wit_pixel : 7 < 8 ∧ 31 < 32 ∧
    nextIs (exec (.winSetPixel 7 31 true) idle) (fun t => t.window.w7 = 1 ∧ t.pixel 7 31 ∧ !t.pixel 7 30) = true := by
  decide

/-- ShiftLeftMovesColumns: 31 keeps column 31, 32 keeps none. -/
theorem wit_shift : 32 ≤ 32 ∧ ¬(32 ≤ 31) ∧
    nextIs (exec (.winShiftLeft 31) (withRow0 1)) (fun t => t.pixel 0 0 ∧ !t.pixel 0 1) = true := by decide

/-- OutOfRangeCallsRefused: each clause at its first value. -/
theorem wit_out_of_range :
    refusedBy (exec (.emitColumns 0 0) idle) = some .operandRange ∧
    refusedBy (exec (.winGetPixel 7 32) idle) = some .operandRange ∧
    refusedBy (exec (.scanRow 8) idle) = some .operandRange ∧
    refusedBy (exec (.glyphBit 0 7 8) (filling 0 0)) = some .operandRange ∧
    refusedBy (exec (.glyphBit 0 8 7) (filling 0 0)) = some .operandRange ∧
    7 < 8 ∧ (filling 0 0).bufLen ≤ 2 := by decide

/-- ScanRowShowsItsRow, FrameLatchesEachRowOnce: the lines after reset. -/
theorem wit_scan_lines : idle.pins.clrN = true ∧ idle.pins.oeN = false ∧ 7 < 8 := by decide

/-- GlyphBitReadsMemory: the last glyph, row and column. -/
theorem wit_glyph_bit : 1 < (filling 0 0).bufLen ∧ 1 < (filling 0 0).params.maxGlyphs ∧ 7 < 8 ∧
    nextIs (exec (.glyphBit 1 0 7) (filling 0 0)) (fun t => t.result = .bit true) = true := by decide

/-- StartAccepted, BufferOverflowSetsOneFlag, RunPassEnds: the capacity and one more. -/
theorem wit_start : idle.phase = .done ∧ 4 ≤ idle.params.maxGlyphs ∧ 0 ≤ idle.params.maxGlyphs ∧
    idle.params.maxGlyphs < 5 ∧
    nextIs (exec (.runPass 5) idle) (fun t => t = { idle with overflow := true }) = true := by decide

/-- StartIgnoredDuringPass: both phases of a pass. -/
theorem wit_start_ignored : (filling 0 0).phase ≠ .done ∧ (draining 1 0).phase ≠ .done ∧
    nextIs (exec (.start 9) (draining 1 0)) (fun t => t = draining 1 0) = true := by decide

/-- PollSamplesInput: a scripted answer. -/
theorem wit_poll : ({ idle with pollAnswers := [true, false] } : State).pollAnswers = true :: [false] := by decide

/-- FillWindowShowsTheStream, AdvanceCursorByOne, FillingTick: the last position of the buffer, a tick that goes on and
one that ends FILLING. -/
theorem wit_filling : lastFilling.bufLen ≤ lastFilling.params.maxGlyphs ∧ 1 ≤ lastFilling.bufLen ∧
    lastFilling.startGlyph < lastFilling.bufLen ∧ lastFilling.phase = .filling ∧
    lastFilling.quietFor (1 + lastFilling.params.framesPerTick) ∧ (advanceCursor lastFilling).startGlyph = 2 ∧
    (advanceCursor (filling 0 0)).startGlyph ≠ 2 := by decide

/-- EmptyBufferEndsInOneTick. -/
theorem wit_empty : let s := { filling 0 0 with bufLen := 0 }
    s.phase = .filling ∧ s.bufLen = 0 ∧ s.quietFor 1 := by decide

/-- DrainingTick: the counts 1, 31 and 32. -/
theorem wit_draining : (draining 1 0).phase = .draining ∧
    (draining 1 0).quietFor (1 + (draining 1 0).params.framesPerTick) ∧ (draining 31 0).shiftCount.toNat < 32 ∧
    32 ≤ (draining 32 0).shiftCount.toNat := by decide

/-- AbortAtTickStart: each phase of a pass, and an empty buffer. -/
theorem wit_abort : ({ filling 0 0 with pollAnswers := [true] } : State).pollAnswers = true :: [] ∧
    (filling 0 0).phase ≠ .done ∧ (draining 1 0).phase ≠ .done ∧
    ({ filling 0 0 with bufLen := 0 } : State).bufLen ≤ (filling 0 0).params.maxGlyphs := by decide

/-- DwellCompletes, DwellAbortsBetweenFrames: three frames, a poll of 1 before the first, the second and the last. -/
theorem wit_dwell : let s := { idle with params := { maxGlyphs := 4, framesPerTick := 3 } }
    ({ s with pollAnswers := [false, false, false] } : State).quietFor 3 ∧ 0 < s.params.framesPerTick ∧
    2 < s.params.framesPerTick ∧ [true] = List.replicate 0 false ++ true :: [] ∧
    [false, true, false] = List.replicate 1 false ++ true :: [false] ∧
    [false, false, true] = List.replicate 2 false ++ true :: [] := by decide

/-- DwellAbortsBetweenFrames, in a tick: the last FILLING position and a DRAINING tick, abandoned before the first frame. -/
theorem wit_tick_dwell : [false, true] = false :: (List.replicate 0 false ++ true :: []) ∧
    0 < lastFilling.params.framesPerTick ∧ lastFilling.phase = .filling ∧ 1 ≤ lastFilling.bufLen ∧
    lastFilling.bufLen ≤ lastFilling.params.maxGlyphs ∧ lastFilling.startGlyph < lastFilling.bufLen ∧
    (draining 1 0).phase = .draining ∧ 0 < (draining 1 0).params.framesPerTick ∧
    (tick { lastFilling with pollAnswers := [false, true] }).trace = [.poll false, .poll true, .pin .oeN true] := by
  decide

/-- TickFollowsPhase: each phase. -/
theorem wit_tick : (filling 0 0).bufLen ≤ 4 ∧ (filling 0 0).phase = .filling ∧ (draining 1 0).phase = .draining ∧
    idle.phase = .done ∧ idle.bufLen ≤ idle.params.maxGlyphs := by decide

/-- FullPassCounts. -/
theorem wit_full_pass : let s := { quietPass with phase := .done }
    s.phase = .done ∧ 1 ≤ 1 ∧ 1 ≤ s.params.maxGlyphs ∧ s.quietFor ((8 * 1 + 32) * (1 + s.params.framesPerTick)) := by
  decide

/-- PassVisitsEveryTickState, PassScrollsTheStream: the first and last tick of each phase, and the end. -/
theorem wit_pass : quietPass.phase = .filling ∧ quietPass.startGlyph = 0 ∧ quietPass.startOffset = 0 ∧
    quietPass.shiftCount = 1 ∧ 1 ≤ quietPass.bufLen ∧ quietPass.bufLen ≤ quietPass.params.maxGlyphs ∧
    quietPass.requests = [] ∧ quietPass.rst = none ∧
    quietPass.quietFor ((8 * quietPass.bufLen + 32) * (1 + quietPass.params.framesPerTick)) ∧
    0 < 8 * quietPass.bufLen ∧ 7 < 8 * quietPass.bufLen ∧ 8 * quietPass.bufLen ≤ 8 ∧
    39 < 8 * quietPass.bufLen + 32 ∧ 40 = 8 * quietPass.bufLen + 32 := by decide

/-- HostWritesGlyphBytes: a DONE machine, a pass at `bufLen`, a pass below it, a row and a glyph just outside. -/
theorem wit_host_write : Memory.wf twoGlyphs = true ∧ 7 < 8 ∧ 3 < (filling 0 0).params.maxGlyphs ∧ idle.phase = .done ∧
    (filling 0 0).bufLen ≤ 2 ∧ (filling 0 0).phase ≠ .done ∧ 1 < (filling 0 0).bufLen ∧
    nextIs (exec (.glyphRowByte 2 0 0x05) (filling 0 0)) (fun t => t.glyphMem.read 16 = 0x05) = true ∧
    8 ≤ 8 ∧ (filling 0 0).params.maxGlyphs ≤ 4 := by decide

/-- CoreNeverWritesMemory, TraceExplainsTheLines, OverflowWrittenOnlyByStartAndReset, DataStableAtClockEdge: a tick that
completes. -/
theorem wit_tick_next : ∃ t, exec .tick (filling 0 0) = .next t ∧ Instr.tick ≠ .reset ∧
    (∀ g r v, Instr.tick ≠ .glyphRowByte g r v) ∧ (∀ n, Instr.tick ≠ .start n) ∧ (∀ n, Instr.tick ≠ .runPass n) ∧
    Instr.tick ≠ .causeBufferOverflow :=
  ⟨_, rfl, Instr.noConfusion, fun _ _ _ => Instr.noConfusion, fun _ => Instr.noConfusion, fun _ => Instr.noConfusion,
    Instr.noConfusion⟩

/-- The invariants hold in a FILLING state. -/
theorem wit_inv_filling : (filling 1 7).EngineInv where
  sound := ⟨by decide, by decide, by decide, by decide, by decide⟩
  cursor := by decide
  filling := by decide
  fillingShift := by decide
  draining := by decide
  drained := by decide
  lastColumn := by decide
  clearHigh := by decide
  latchHigh := by decide
  blanked := by decide

/-- The invariants hold in DRAINING before its first tick, with column 0 lit. -/
theorem wit_inv_draining_first : (draining 1 0x80000000).EngineInv where
  sound := ⟨by decide, by decide, by decide, by decide, by decide⟩
  cursor := by decide
  filling := by decide
  fillingShift := by decide
  draining := by decide
  drained := by decide
  lastColumn := by decide
  clearHigh := by decide
  latchHigh := by decide
  blanked := by decide

/-- The invariants hold in the last DRAINING state. -/
theorem wit_inv_draining_last : (draining 32 0).EngineInv where
  sound := ⟨by decide, by decide, by decide, by decide, by decide⟩
  cursor := by decide
  filling := by decide
  fillingShift := by decide
  draining := by decide
  drained := by decide
  lastColumn := by decide
  clearHigh := by decide
  latchHigh := by decide
  blanked := by decide

/-- StepKeepsSound: after an abort, blanked. -/
theorem wit_sound : (abortPass (filling 0 3)).Sound := ⟨by decide, by decide, by decide, by decide, by decide⟩

/-- StepKeepsEngineInv: blanked by an ABORT at the start of a FILLING tick. -/
theorem wit_blanked_by_abort : let s := tick { filling 0 3 with pollAnswers := [true] }
    s.pins.oeN = true ∧ s.blankedByAbort :=
  ⟨by decide, fun _ => ⟨[], by decide⟩⟩

/-- Only a host drives: a START and an `rst` due after two events of it. -/
def started : State := { idle with requests := [[0x11, 2]], rst := some 2 }

/-- The waiting record is a host action. -/
theorem wit_host_driven : started.hostDriven := by
  intro r hr i h
  have hr' : r = [0x11, 2] := by simpa [started] using hr
  have hd : decode [0x11, 2] = .ok (.start 2) := by decide
  rw [hr', hd, Except.ok.injEq] at h
  rw [← h]
  rfl

/-- NeverLatchMidShift, PhaseNeverGoesBack, StepKeepsEngineInv: a step of a host-driven machine in such a state, cut by
`rst`. -/
theorem wit_host_step : (filling 1 7).hostDriven ∧ (∃ t, step (filling 1 7) = .next t) ∧
    nextIs (step started) (fun t => t.trace.length = 13 ∧ t.requests = []) = true :=
  ⟨fun _ hr => absurd hr List.not_mem_nil, ⟨_, rfl⟩, by decide⟩

/-- BytesBeyondLengthDoNotMatter: another memory that differs at and beyond byte 16. -/
theorem wit_other_memory : (∀ addr, addr < 8 * (filling 0 0).bufLen →
      Memory.read (twoGlyphs ++ [(16, 0xFF)]) addr = (filling 0 0).glyphMem.read addr) ∧
    ∃ t, exec .tickFill (filling 0 0) = .next t :=
  ⟨by decide, ⟨_, rfl⟩⟩

/-- StepRunsDecoded. -/
theorem wit_step_request : let s := { idle with requests := [[0x06], [0x12]] }
    s.rst = none ∧ s.requests = [0x06] :: [[0x12]] ∧ decode [0x06] = .ok .latch := by decide

/-- EngineSequencesItself: a pass and the idle machine. -/
theorem wit_no_request : (filling 0 0).rst = none ∧ (filling 0 0).requests = [] ∧ (filling 0 0).phase ≠ .done ∧
    idle.rst = none ∧ idle.requests = [] ∧ idle.phase = .done := by decide

/-- RstCutsAtEventBoundary: START's six events, cut before the first and before the last, and `rst` due right after. -/
theorem wit_rst_cut : (∃ u, step { started with rst := none } = .next u ∧ u.trace = started.trace ++ clearseqEvents) ∧
    0 < clearseqEvents.length ∧ 5 < clearseqEvents.length ∧ 0 < 6 ∧ clearseqEvents.length ≤ 6 :=
  ⟨⟨_, rfl, rfl⟩, by decide, by decide, by decide, by decide⟩

/-- DecodeEncode: the ends of some ranges. -/
theorem wit_well_formed : ([Instr.emitColumns (2 ^ 40) 1, .emitColumns 1 300, .winSetPixel 7 31 true, .glyphBit (2 ^ 40) 7 7,
    .start (2 ^ 40), .windowRowWord 7 0xFFFFFFFF]).all Instr.wf = true := by decide

/-- UnassignedIdsRejected: the first and the last of them. -/
theorem wit_unassigned : 0x1B ≤ (0x1B#8).toNat ∧ (0x1F#8).toNat ≤ 0x1F ∧ decode [0x1F, 1] = .error .unassignedId := by
  decide

end Sys2Proof.Tests
end

/-! What an instruction that answers a next state does, said once for every constructor (`exec_effect`), and the statements
of 00_scope.md that follow from it. -/

namespace Sys2Proof.Machine

/-! Operations that leave glyph memory, `overflow` and `bufLen` alone. -/

/-- The legal range of `shiftCount` (rule R25). -/
def State.shiftLegal (s : State) : Prop := 1 ≤ s.shiftCount.toNat ∧ s.shiftCount.toNat ≤ 32

/-- `t` follows `s` by some events, with glyph memory, `overflow` and `bufLen` untouched and `shiftCount` legal if it was. -/
structure State.RunsTo (s t : State) : Prop where
  follows : ∃ es, s.Follows t es
  glyphMem : t.glyphMem = s.glyphMem
  overflow : t.overflow = s.overflow
  bufLen : t.bufLen = s.bufLen
  shiftLegal : s.shiftLegal → t.shiftLegal

theorem State.RunsTo.refl (s : State) : s.RunsTo s := ⟨⟨[], .refl s⟩, rfl, rfl, rfl, id⟩

theorem State.RunsTo.trans {s t u : State} (h : s.RunsTo t) (k : t.RunsTo u) : s.RunsTo u := by
  obtain ⟨es, hes⟩ := h.follows
  obtain ⟨fs, hfs⟩ := k.follows
  exact ⟨⟨es ++ fs, hes.trans hfs⟩, k.glyphMem.trans h.glyphMem, k.overflow.trans h.overflow, k.bufLen.trans h.bufLen,
    k.shiftLegal ∘ h.shiftLegal⟩

theorem State.RunsTo.emit (s : State) {es : List Event} (h : pollCountOf es = 0) : s.RunsTo (s.emit es) :=
  ⟨⟨es, .emit s es h⟩, by simp, by simp, by simp, by simp [State.shiftLegal]⟩

theorem State.RunsTo.polled (s : State) {es : List Event} {n : Nat} (h : pollCountOf es = n) :
    s.RunsTo (s.polled es n) :=
  ⟨⟨es, .polled s es n h⟩, by simp, by simp, by simp, by simp [State.shiftLegal]⟩

theorem State.RunsTo.setWindow (s : State) (w : Window) : s.RunsTo (s.setWindow w) :=
  ⟨⟨[], .right (.refl s) s.sameOutside_rfl⟩, rfl, rfl, rfl, id⟩

theorem State.RunsTo.setPhase (s : State) (p : Phase) : s.RunsTo (s.setPhase p) :=
  ⟨⟨[], .right (.refl s) s.sameOutside_rfl⟩, rfl, rfl, rfl, id⟩

theorem State.RunsTo.setCursor (s : State) (g : Nat) (o : BitVec 3) : s.RunsTo (s.setCursor g o) :=
  ⟨⟨[], .right (.refl s) s.sameOutside_rfl⟩, rfl, rfl, rfl, id⟩

theorem State.RunsTo.setResult (s : State) (r : Result) : s.RunsTo (s.setResult r) :=
  ⟨⟨[], .right (.refl s) s.sameOutside_rfl⟩, rfl, rfl, rfl, id⟩

theorem pollCountOf_chunkEvents (v : Byte) : pollCountOf (chunkEvents v) = 0 := pollCountOf_cells _

theorem pollCountOf_chunks (vs : List Byte) : pollCountOf (vs.flatMap chunkEvents) = 0 := by
  rw [flatMap_chunkEvents, pollCountOf_cells]

theorem pollCountOf_colfieldEvents (c : Word) : pollCountOf (colfieldEvents c) = 0 := by
  rw [colfieldEvents_cells, pollCountOf_cells]

theorem pollCountOf_rowframeEvents (c : Word) (v : Byte) : pollCountOf (rowframeEvents c v) = 0 := by
  rw [rowframeEvents_cells, pollCountOf_append, pollCountOf_cells]; rfl

theorem pollCountOf_frameEvents (w : Window) : pollCountOf (frameEvents w) = 0 := by
  obtain ⟨_, _, polls, _⟩ := rowframes_counts w Pins.afterReset rows
  exact polls

theorem pollCountOf_polledFrames (n : Nat) (w : Window) : pollCountOf (polledFrames n w) = n := by
  obtain ⟨_, polls, _⟩ := polledFrames_counts n w
  exact polls

theorem fillWindow_runs (s : State) : s.RunsTo (fillWindow s) := by
  rw [fillWindow_eq]; exact .setWindow s _

theorem advanceCursor_runs (s : State) : s.RunsTo (advanceCursor s) := by
  obtain ⟨g, o, p, h⟩ := advanceCursor_frame s
  rw [h]; exact (State.RunsTo.setCursor s g o).trans (.setPhase _ p)

theorem abortPass_runs (s : State) : s.RunsTo (abortPass s) := by
  rw [abortPass, pinWrite_eq]; exact (State.RunsTo.emit s rfl).trans (.setPhase _ _)

/-- DWELL_SCAN, completed or abandoned after `k` frames (rule R129). -/
theorem dwellScan_runs (s : State) : s.RunsTo (dwellScan s).2 := by
  rw [dwellScan]
  rcases dwellFrames_cases s.params.framesPerTick s with h | ⟨k, _, h⟩ <;> rw [h]
  · exact .polled s (pollCountOf_polledFrames _ _)
  · refine (State.RunsTo.polled s ?_).trans (.setPhase _ _)
    rw [pollCountOf_append, pollCountOf_polledFrames]; rfl

/-- The drain's increment stays in range, because it is made below `W_DISPLAY` only (rule R128). -/
theorem drainStep_shiftLegal {s : State} (h : s.shiftLegal) : (drainStep s).shiftLegal := by
  rw [drainStep]
  split
  · exact h
  · rename_i hend
    have hlt : s.shiftCount.toNat < 32 := by simpa [drainEnds] using hend
    have hone : (1 : BitVec 6).toNat = 1 := rfl
    simp only [State.shiftLegal, State.setShiftCount_shiftCount, BitVec.toNat_add, hone]
    omega

theorem tickFill_runs (s : State) : s.RunsTo (tickFill s) := by
  obtain ⟨es, hes, _, hmem, hover, hbuf, _, hshift⟩ := tickFill_follows s
  exact ⟨⟨es, hes⟩, hmem, hover, hbuf, by simp [State.shiftLegal, hshift]⟩

theorem tickDrain_shiftLegal {s : State} (h : s.shiftLegal) : (tickDrain s).shiftLegal := by
  rcases tickDrain_cases s with e | ⟨k, _, e⟩ | e <;> rw [e]
  · simpa [State.shiftLegal] using h
  · simpa [State.shiftLegal, State.shifted, winShiftLeft] using h
  · apply drainStep_shiftLegal
    simpa [State.shiftLegal, State.shifted, winShiftLeft] using h

theorem tickDrain_runs (s : State) : s.RunsTo (tickDrain s) := by
  obtain ⟨es, hes, _, hmem, hover, hbuf, _⟩ := tickDrain_follows s
  exact ⟨⟨es, hes⟩, hmem, hover, hbuf, tickDrain_shiftLegal⟩

theorem tick_runs (s : State) : s.RunsTo (tick s) := by
  rw [tick]
  split
  · exact tickFill_runs s
  · exact tickDrain_runs s
  · exact .refl s

theorem tickUntilDone_runs (fuel : Nat) (s : State) : s.RunsTo (tickUntilDone fuel s) := by
  induction fuel generalizing s with
  | zero => exact .refl s
  | succ fuel ih =>
    rw [tickUntilDone]
    split
    · exact .refl s
    · exact (tick_runs s).trans (ih (tick s))

/-! Every instruction. -/

/-- What an instruction that answers a next state has done. -/
inductive ExecEffect (s : State) : Instr → State → Prop
  | runs {i : Instr} {t : State} (h : s.RunsTo t) : ExecEffect s i t
  | start (n : Nat) : ExecEffect s (.start n) (start n s)
  | runPass {n : Nat} {t : State} (h : (start n s).RunsTo t) : ExecEffect s (.runPass n) t
  | reset : ExecEffect s .reset (resetOp s)
  | causeBufferOverflow : ExecEffect s .causeBufferOverflow (raiseBufferOverflow s)
  | glyphRowByte (i r : Nat) (v : Byte) (addr : Nat) :
      ExecEffect s (.glyphRowByte i r v) (s.setGlyphMem (s.glyphMem.write addr v))

/-- An instruction that answers `u` answers no other state. -/
theorem ExecEffect.of_runs {i : Instr} {s t u : State} (h : exec i s = .next t) (he : exec i s = .next u)
    (hu : s.RunsTo u) : ExecEffect s i t := by
  cases Host.Outcome.next.inj (he.symm.trans h)
  exact .runs hu

/-- An instruction that puts a fixed sequence of events without polls on the lines (rule R80). -/
theorem ExecEffect.of_emit {i : Instr} {s t : State} (es : List Event) (h : exec i s = .next t)
    (he : exec i s = .next (s.emit es)) (hp : pollCountOf es = 0) : ExecEffect s i t := .of_runs h he (.emit s hp)

/-- Every arm of `exec`: all but the five that `ExecEffect` names run by events and register writes alone. -/
theorem exec_effect {i : Instr} {s t : State} (h : exec i s = .next t) : ExecEffect s i t := by
  cases i with
  | pinWrite l v => exact .of_emit [.pin l v] h rfl rfl
  | emitBit b => exact .of_emit (bitcellEvents b) h rfl rfl
  | shiftOut8 v => exact .of_emit _ h (congrArg Host.Outcome.next (shiftOut8_eq v s)) (pollCountOf_chunkEvents v)
  | emitColumns p n =>
    rw [exec, execEmitColumns] at h
    split at h
    · cases h
    · cases h; rw [emitColumns_eq]; exact .runs (.emit s (pollCountOf_chunks _))
  | emitRowscan v => exact .of_emit _ h (congrArg Host.Outcome.next (shiftOut8_eq v s)) (pollCountOf_chunkEvents v)
  | latch => exact .of_emit latchpulseEvents h rfl rfl
  | setOe v => exact .of_emit [.pin .oeN v] h rfl rfl
  | clearRegs => exact .of_emit clearseqEvents h rfl rfl
  | winClear => exact .of_runs h rfl (.setWindow s _)
  | winSetPixel row col v =>
    rw [exec, execWinSetPixel] at h
    split at h
    · cases h; exact .runs (.setWindow s _)
    · cases h
  | winShiftLeft n => exact .of_runs h rfl (.setWindow s _)
  | winReadRow row =>
    rw [exec, execWinReadRow] at h
    split at h
    · cases h; exact .runs (.setResult s _)
    · cases h
  | scanRow row =>
    rw [exec, execScanRow] at h
    split at h
    · cases h; rw [scanRow_eq]; exact .runs (.emit s (pollCountOf_rowframeEvents _ _))
    · cases h
  | scanFrame => exact .of_emit _ h (congrArg Host.Outcome.next (scanFrame_eq s)) (pollCountOf_frameEvents s.window)
  | glyphBit g r c =>
    rw [exec, execGlyphBit] at h
    split at h
    · split at h
      · cases h
      · split at h
        · cases h
        · cases h; exact .runs (.setResult s _)
    · cases h
  | reset => cases h; exact .reset
  | start n => cases h; exact .start n
  | tick =>
    rw [exec, execTick] at h
    split at h
    · cases h
    · cases h; exact .runs (tick_runs s)
  | poll =>
    refine .of_runs h rfl ?_
    rw [State.takePoll_eq]
    exact (State.RunsTo.polled s rfl).trans (.setResult _ _)
  | fillWindow =>
    rw [exec, execFillWindow] at h
    split at h
    · cases h; exact .runs (fillWindow_runs s)
    · cases h
  | tickFill =>
    rw [exec, execTickFill] at h
    split at h
    · cases h; exact .runs (tickFill_runs s)
    · cases h
  | tickDrain => exact .of_runs h rfl (tickDrain_runs s)
  | dwellScan => exact .of_runs h rfl ((dwellScan_runs s).trans (.setResult _ _))
  | advanceCursor => exact .of_runs h rfl (advanceCursor_runs s)
  | abort => exact .of_runs h rfl (abortPass_runs s)
  | runPass n =>
    simp only [exec, execRunPass] at h
    split at h
    · cases h
    · split at h
      · cases h; exact .runPass (tickUntilDone_runs _ _)
      · cases h
  | winGetPixel row col =>
    rw [exec, execWinGetPixel] at h
    split at h
    · cases h; exact .runs (.setResult s _)
    · cases h
  | rowsel0 => exact .of_emit (chunkEvents (rowsel 0)) h rfl (pollCountOf_chunkEvents _)
  | rowsel1 => exact .of_emit (chunkEvents (rowsel 1)) h rfl (pollCountOf_chunkEvents _)
  | rowsel2 => exact .of_emit (chunkEvents (rowsel 2)) h rfl (pollCountOf_chunkEvents _)
  | rowsel3 => exact .of_emit (chunkEvents (rowsel 3)) h rfl (pollCountOf_chunkEvents _)
  | rowsel4 => exact .of_emit (chunkEvents (rowsel 4)) h rfl (pollCountOf_chunkEvents _)
  | rowsel5 => exact .of_emit (chunkEvents (rowsel 5)) h rfl (pollCountOf_chunkEvents _)
  | rowsel6 => exact .of_emit (chunkEvents (rowsel 6)) h rfl (pollCountOf_chunkEvents _)
  | rowsel7 => exact .of_emit (chunkEvents (rowsel 7)) h rfl (pollCountOf_chunkEvents _)
  | chunk v => exact .of_emit _ h rfl (pollCountOf_chunkEvents v)
  | colfield c => exact .of_emit _ h rfl (pollCountOf_colfieldEvents c)
  | rowframe c v => exact .of_emit _ h rfl (pollCountOf_rowframeEvents c v)
  | bitcell b => exact .of_emit (bitcellEvents b) h rfl rfl
  | latchpulse => exact .of_emit latchpulseEvents h rfl rfl
  | frame => exact .of_emit _ h rfl (pollCountOf_frameEvents s.window)
  | clearseq => exact .of_emit clearseqEvents h rfl rfl
  | phaseFilling => exact .of_runs h rfl (.setPhase s _)
  | phaseDraining => exact .of_runs h rfl (.setPhase s _)
  | phaseDone => exact .of_runs h rfl (.setPhase s _)
  | glyphRowByte g r v =>
    rw [exec, execGlyphRowByte] at h
    split at h
    · split at h
      · cases h
      · split at h
        · cases h
        · cases h; exact .glyphRowByte g r v _
    · cases h
  | windowRowWord row c =>
    rw [exec, execWindowRowWord] at h
    split at h
    · cases h; exact .runs (.setWindow s _)
    · cases h
  | causeBufferOverflow => cases h; exact .causeBufferOverflow

/-! START and RESET. -/

theorem start_follows (n : Nat) (s : State) : ∃ es, s.Follows (start n s) es := by
  rcases start_cases n s with h | h | ⟨_, _, h⟩ <;> rw [h]
  · exact ⟨[], .refl s⟩
  · exact ⟨[], .right (.refl s) s.sameOutside_rfl⟩
  · exact ⟨_, startPass_follows n s⟩

theorem start_glyphMem (n : Nat) (s : State) : (start n s).glyphMem = s.glyphMem := by
  rcases start_cases n s with h | h | ⟨_, _, h⟩ <;> rw [h]
  rfl

theorem resetOp_glyphMem (s : State) : (resetOp s).glyphMem = s.glyphMem := rfl

/-! What every instruction keeps. -/

/-- Only events move the lines, the panel and the polls, and no instruction writes parameters, requests or `rst`. -/
theorem ExecEffect.follows {i : Instr} {s t : State} (h : ExecEffect s i t) : ∃ es, s.Follows t es := by
  cases h with
  | runs h => exact h.follows
  | start n => exact start_follows n s
  | @runPass n _ h =>
    obtain ⟨es, hes⟩ := start_follows n s
    obtain ⟨fs, hfs⟩ := h.follows
    exact ⟨es ++ fs, hes.trans hfs⟩
  | reset => exact ⟨_, resetOp_follows s⟩
  | causeBufferOverflow => exact ⟨[], .right (.refl s) s.sameOutside_rfl⟩
  | glyphRowByte => exact ⟨[], .right (.refl s) s.sameOutside_rfl⟩

theorem ExecEffect.glyphMem {i : Instr} {s t : State} (h : ExecEffect s i t)
    (hi : ∀ g r v, i ≠ .glyphRowByte g r v) : t.glyphMem = s.glyphMem := by
  cases h with
  | runs h => exact h.glyphMem
  | start n => exact start_glyphMem n s
  | @runPass n _ h => exact h.glyphMem.trans (start_glyphMem n s)
  | reset => exact resetOp_glyphMem s
  | causeBufferOverflow => rfl
  | glyphRowByte g r v => exact absurd rfl (hi g r v)

theorem ExecEffect.overflow {i : Instr} {s t : State} (h : ExecEffect s i t) (hreset : i ≠ .reset)
    (hstart : ∀ n, i ≠ .start n) (hrun : ∀ n, i ≠ .runPass n) (hcause : i ≠ .causeBufferOverflow) :
    t.overflow = s.overflow := by
  cases h with
  | runs h => exact h.overflow
  | start n => exact absurd rfl (hstart n)
  | @runPass n _ _ => exact absurd rfl (hrun n)
  | reset => exact absurd rfl hreset
  | causeBufferOverflow => exact absurd rfl hcause
  | glyphRowByte => rfl

/-! Soundness (rules R6, R25, R26; log entry 7). -/

/-- Soundness speaks of glyph memory, `bufLen`, `shiftCount` and the parameters only. -/
theorem State.Sound.congr {s t : State} (h : s.Sound) (hmem : t.glyphMem = s.glyphMem) (hbuf : t.bufLen = s.bufLen)
    (hshift : t.shiftCount = s.shiftCount) (hparams : t.params = s.params) : t.Sound :=
  ⟨hmem ▸ h.memory, hbuf ▸ hparams ▸ h.capacity, hshift ▸ h.shiftLow, hshift ▸ h.shiftHigh, hparams ▸ h.params⟩

theorem State.RunsTo.sound {s t : State} (h : s.RunsTo t) (hs : s.Sound) : t.Sound := by
  obtain ⟨es, hes⟩ := h.follows
  obtain ⟨hlow, hhigh⟩ := h.shiftLegal ⟨hs.shiftLow, hs.shiftHigh⟩
  exact ⟨h.glyphMem ▸ hs.memory, h.bufLen ▸ hes.params ▸ hs.capacity, hlow, hhigh, hes.params ▸ hs.params⟩

/-- A new pass and RESET set `shiftCount` to 1 and `bufLen` to a length within the capacity. -/
theorem State.Sound.restart {s t : State} (h : s.Sound) (hmem : t.glyphMem = s.glyphMem)
    (hbuf : t.bufLen ≤ s.params.maxGlyphs) (hshift : t.shiftCount = 1) (hparams : t.params = s.params) : t.Sound :=
  ⟨hmem ▸ h.memory, hparams ▸ hbuf, hshift ▸ by decide, hshift ▸ by decide, hparams ▸ h.params⟩

/-- START begins a pass only over a text that fits (rule R121). -/
theorem start_sound (n : Nat) {s : State} (hs : s.Sound) : (start n s).Sound := by
  rcases start_cases n s with h | h | ⟨_, hn, h⟩ <;> rw [h]
  · exact hs
  · exact hs.congr rfl rfl rfl rfl
  · exact hs.restart rfl hn rfl rfl

theorem resetOp_sound {s : State} (hs : s.Sound) : (resetOp s).Sound :=
  hs.restart rfl (Nat.zero_le _) rfl rfl

theorem ExecEffect.sound {i : Instr} {s t : State} (h : ExecEffect s i t) (hs : s.Sound) : t.Sound := by
  cases h with
  | runs h => exact h.sound hs
  | start n => exact start_sound n hs
  | @runPass n _ h => exact h.sound (start_sound n hs)
  | reset => exact resetOp_sound hs
  | causeBufferOverflow => exact hs.congr rfl rfl rfl rfl
  | glyphRowByte g r v addr =>
    exact ⟨Memory.write_wf hs.memory addr v, hs.capacity, hs.shiftLow, hs.shiftHigh, hs.params⟩

/-- A request is performed in the state without it. -/
theorem fetch_request {s u : State} {i : Instr} (h : fetch s = .request i u) :
    ∃ rest, u = { s with requests := rest } := by
  unfold fetch at h
  split at h
  · split at h
    · cases h; exact ⟨_, rfl⟩
    · cases h
  · split at h <;> cases h

/-- A step without `rst` performs an instruction, the first request taken out, or does nothing. -/
theorem stepOperation_cases {s t : State} (h : stepOperation s = .next t) :
    (∃ i rest, exec i { s with requests := rest } = .next t) ∨ exec .tick s = .next t ∨ t = s := by
  unfold stepOperation at h
  split at h
  · rename_i i u hf
    obtain ⟨rest, rfl⟩ := fetch_request hf
    exact .inl ⟨i, rest, h⟩
  · exact .inr (.inl h)
  · cases h; exact .inr (.inr rfl)
  · cases h

theorem stepOperation_sound {s t : State} (hs : s.Sound) (h : stepOperation s = .next t) : t.Sound := by
  rcases stepOperation_cases h with ⟨i, rest, he⟩ | he | rfl
  · exact (exec_effect he).sound (hs.congr rfl rfl rfl rfl)
  · exact (exec_effect he).sound hs
  · exact hs

theorem takeRst_sound {s : State} (hs : s.Sound) : (takeRst s).Sound := (resetOp_sound hs).congr rfl rfl rfl rfl

/-- An operation cut short has written the lines only; RESET then brings its own values (rule R183). -/
theorem cutByRst_sound (n : Nat) {s t : State} (hs : s.Sound) (ht : t.Sound) : (cutByRst n s t).Sound := by
  simp only [cutByRst]
  split
  · exact ht.congr rfl rfl rfl rfl
  · obtain ⟨_, _, hmem, hparams, _, hbuf, hshift⟩ :=
      replay_frame ((t.trace.drop s.trace.length).take n) { s with requests := t.requests }
    exact takeRst_sound (hs.congr hmem hbuf hshift hparams)

/-- Settles O51: with no `rst` the step is one instruction; an `rst` due now is RESET, one due later cuts the operation. -/
theorem stepKeepsSound : Obligations.StepKeepsSound := by
  intro s t hs h
  unfold step at h
  split at h
  · exact stepOperation_sound hs h
  · cases h; exact takeRst_sound hs
  · rename_i n _
    split at h
    · rename_i u hu
      cases h
      exact cutByRst_sound (n + 1) hs (stepOperation_sound (hs.congr (t := { s with rst := none }) rfl rfl rfl rfl) hu)
    · cases h
    · cases h

/-! The whole-machine rules. -/

/-- Settles O45: the host's write is the one effect on glyph memory, and `Follows` keeps the inputs. -/
theorem coreNeverWritesMemory : Obligations.CoreNeverWritesMemory := by
  intro i s t h
  obtain ⟨es, hes⟩ := (exec_effect h).follows
  exact ⟨(exec_effect h).glyphMem, hes.params, hes.requests, hes.rst⟩

/-- Settles O46: the four instructions it leaves out are the only effects that write the flag. -/
theorem overflowWrittenOnlyByStartAndReset : Obligations.OverflowWrittenOnlyByStartAndReset :=
  fun _ _ _ h => (exec_effect h).overflow

/-- Settles O47: every effect follows some list of events. -/
theorem traceExplainsTheLines : Obligations.TraceExplainsTheLines := by
  intro i s t h
  obtain ⟨es, hes⟩ := (exec_effect h).follows
  exact ⟨es, hes.trace, hes.pins, hes.panel, hes.polls, hes.answers⟩

/-! The rows of the table that write one word, byte or code, and POLL. -/

theorem exec_windowRowWord (s : State) {row : Nat} (c : Word) (h : row < 8) :
    exec (.windowRowWord row c) s = .next (s.setWindow (s.window.set ⟨row, h⟩ c)) := by
  rw [exec, execWindowRowWord, rowOperand_lt h]

/-- Settles O16: the row reads the word back, and the state differs in its window only. -/
theorem windowRowWordWrites : Obligations.WindowRowWordWrites := by
  intro s row c h
  have hget : (s.window.set ⟨row, h⟩ c).get ⟨row, h⟩ = c := by simp
  refine ⟨_, exec_windowRowWord s c h, hget, fun k => ?_, fun r hr => by simp [hr], ⟨rfl, rfl, rfl, rfl, rfl, rfl⟩,
    fun _ => rfl, ⟨rfl, rfl, rfl, rfl, rfl⟩, ⟨rfl, rfl, rfl⟩, rfl⟩
  exact congrArg (fun v => pixelOf v k) hget

/-- GLYPH_ROW_BYTE on a row of a glyph (rules R13, R40, R45). -/
theorem exec_glyphRowByte (s : State) (i : Nat) {r : Nat} (v : Byte) (h : r < 8) :
    exec (.glyphRowByte i r v) s =
      if s.params.maxGlyphs ≤ i then .fault .glyphAddress
      else if s.phase ≠ .done ∧ i < s.bufLen then .refused .hostWriteDuringPass
      else .next (s.setGlyphMem (s.glyphMem.write (8 * i + r) v)) := by
  rw [exec, execGlyphRowByte, rowOperand_lt h]; rfl

/-- Settles O44, by the order of the write's checks: row, capacity, pass. -/
theorem hostWritesGlyphBytes : Obligations.HostWritesGlyphBytes := by
  intro s i r v hwf
  refine ⟨fun hr hi hfree => ?_, fun hr hi hp hb => ?_, fun hr => ?_, fun hr hi => ?_⟩
  · have hpass : ¬ (s.phase ≠ .done ∧ i < s.bufLen) := by
      rintro ⟨hp, hb⟩
      exact hfree.elim hp (Nat.not_le.mpr hb)
    refine ⟨s.glyphMem.write (8 * i + r) v, ?_, Memory.write_wf hwf _ v, Memory.read_write hwf _ v⟩
    rw [exec_glyphRowByte s i v hr, if_neg (Nat.not_le.mpr hi), if_neg hpass]
    rfl
  · rw [exec_glyphRowByte s i v hr, if_neg (Nat.not_le.mpr hi), if_pos ⟨hp, hb⟩]
  · rw [exec, execGlyphRowByte, rowOperand_ge hr]
  · rw [exec_glyphRowByte s i v hr, if_pos hi]

/-- Settles O27: the answer is `nextAnswer`, the first scripted one where there is one. -/
theorem pollSamplesInput : Obligations.PollSamplesInput := by
  intro s
  refine ⟨_, s.nextAnswer, rfl, rfl, rfl, fun b rest h => ⟨State.nextAnswer_cons h, ?_⟩, rfl,
    ⟨rfl, rfl, rfl, rfl, rfl, rfl⟩, fun _ => rfl, rfl, rfl, rfl, rfl, rfl⟩
  simp [h]

/-- Settles O43: each of the three arms is the one register write. -/
theorem phaseCodesWritePhase : Obligations.PhaseCodesWritePhase := fun _ => ⟨rfl, rfl, rfl⟩

end Sys2Proof.Machine

/-! What a step of a machine that only a host drives keeps (rules R29, R138), the start of a pass and the reset state. -/

namespace Sys2Proof.Machine

/-! The lines after a tick (rule R29 items 6 and 7). -/

/-- Rule R29 item 6: the clear line and the latch line stand high. -/
def Pins.restHigh (p : Pins) : Prop := p.clrN = true ∧ p.lck = true

theorem polledFrames_restHigh (n : Nat) (w : Window) {p : Pins} (h : p.restHigh) :
    (p.afterAll (polledFrames n w)).restHigh := by
  induction n generalizing p with
  | zero => exact h
  | succ n ih =>
    obtain ⟨hclr, _⟩ := h
    rw [polledFrames_succ, Pins.afterAll_append, Pins.afterAll_cons, frame_afterAll]
    exact ih ⟨hclr, rfl⟩

theorem TickEvents.restHigh {frames : Nat} {es : List Event} (h : TickEvents frames es) {p : Pins} (hp : p.restHigh) :
    (p.afterAll es).restHigh := by
  cases h with
  | aborted => exact hp
  | empty => exact hp
  | cut k w _ =>
    rw [Pins.afterAll_cons, Pins.afterAll_append]
    exact polledFrames_restHigh k w hp
  | full w =>
    rw [Pins.afterAll_cons, List.append_nil]
    exact polledFrames_restHigh frames w hp

theorem tick_restHigh {s : State} (h : s.pins.restHigh) : (tick s).pins.restHigh := by
  obtain ⟨es, hes, hev, _⟩ := tick_follows s
  rw [hes.pins]
  rcases hev with rfl | hev
  · exact h
  · exact hev.restHigh h

theorem filled_oeN (s : State) (k n : Nat) : (s.filled k [] n).pins.oeN = s.pins.oeN := by
  rw [State.filled, State.polled_pins, List.append_nil]
  exact polledFrames_afterAll_oeN k _ _

theorem filled_restHigh {s : State} (k n : Nat) (h : s.pins.restHigh) : (s.filled k [] n).pins.restHigh := by
  rw [State.filled, State.polled_pins, List.append_nil]
  exact polledFrames_restHigh k _ h

theorem shifted_oeN (s : State) (k n : Nat) : (s.shifted k [] n).pins.oeN = s.pins.oeN := by
  rw [State.shifted, State.polled_pins, List.append_nil]
  exact polledFrames_afterAll_oeN k _ _

/-! The invariants (rule R29), established and carried over. -/

/-- In DONE the invariants ask for soundness, the cursor and the lines only. -/
theorem State.EngineInv.of_done {s : State} (hs : s.Sound) (hp : s.phase = .done) (hg : s.startGlyph ≤ s.bufLen)
    (hpins : s.pins.restHigh) : s.EngineInv where
  sound := hs
  cursor := hg
  filling h := by simp [hp] at h
  fillingShift h := by simp [hp] at h
  draining h := by simp [hp] at h
  drained h := by simp [hp] at h
  lastColumn h := by simp [hp] at h
  clearHigh := hpins.1
  latchHigh := hpins.2
  blanked _ := hp

theorem State.EngineInv.restHigh {s : State} (h : s.EngineInv) : s.pins.restHigh := ⟨h.clearHigh, h.latchHigh⟩

/-- Rule R29 item 7: while a pass runs the display is enabled. -/
theorem State.EngineInv.enabled {s : State} (h : s.EngineInv) (hp : s.phase ≠ .done) : s.pins.oeN = false :=
  Bool.eq_false_iff.mpr fun hoe => hp (h.blanked hoe)

/-- With glyphs in the buffer, FILLING stands inside it (rule R29 item 2). -/
theorem State.EngineInv.inside {s : State} (h : s.EngineInv) (hp : s.phase = .filling) (h0 : s.bufLen ≠ 0) :
    s.startGlyph < s.bufLen :=
  (h.filling hp).resolve_right fun ⟨hempty, _⟩ => h0 hempty

/-! A tick of a running pass. -/

/-- TICK_FILL ends the pass with the cursor where it was, or advances the cursor after its dwell. -/
theorem tickFill_ends (s : State) :
    ((tickFill s).phase = .done ∧ (tickFill s).startGlyph = s.startGlyph) ∨
      (s.bufLen ≠ 0 ∧ tickFill s = advanceCursor (s.filled s.params.framesPerTick [] (s.params.framesPerTick + 1))) := by
  rcases tickFill_cases s with e | ⟨_, e⟩ | ⟨k, _, _, e⟩ | hfull
  · left; simp [e]
  · left; simp [e]
  · left; simp [e, State.filled]
  · exact .inr hfull

/-- TICK_DRAIN ends the pass with the cursor where it was, or ends its dwell at the next amount. -/
theorem tickDrain_ends (s : State) :
    ((tickDrain s).phase = .done ∧ (tickDrain s).startGlyph = s.startGlyph) ∨
      tickDrain s = (s.shifted s.params.framesPerTick [] (s.params.framesPerTick + 1)).setShiftCount
        (s.shiftCount + 1) := by
  rcases tickDrain_cases s with e | ⟨k, _, e⟩ | e
  · left; simp [e]
  · left; simp [e, State.shifted, winShiftLeft]
  · rw [e, drainStep]
    split
    · left; simp [State.shifted, winShiftLeft]
    · right; simp [State.shifted, winShiftLeft]

/-- The window a FILLING tick leaves shows the stream from its start position on (rule R134 a). -/
theorem filled_pixel (s : State) (k n : Nat) (es : List Event) (r : Fin 8) (c : Fin 32) :
    (s.filled k es n).pixel r c =
      (s.filled k es n).streamPixel r ((s.filled k es n).startPosition + c.val) := by
  have hstream : ∀ p, (s.filled k es n).streamPixel r p = s.streamPixel r p :=
    streamPixel_congr (by simp [State.filled]) (by simp [State.filled]) r
  have hpos : (s.filled k es n).startPosition = s.startPosition := by simp [State.startPosition, State.filled]
  rw [hstream, hpos, ← fillWindow_pixel]
  simp [State.pixel, State.filled]

/-- An advance that ends FILLING was made from the last position, so only window column 0 is still lit (rule R134 c). -/
theorem streamPixel_beyond_last {s : State} (hc : s.bufLen ≤ s.params.maxGlyphs) (hg : s.startGlyph < s.bufLen)
    (hend : (advanceStart s).startGlyph = s.bufLen) (r : Fin 8) {c : Nat} (h1 : 1 ≤ c) :
    s.streamPixel r (s.startPosition + c) = false := by
  obtain ⟨hpos, _, _, hzero⟩ := advanceStart_position hc hg
  have hoff := hzero hend
  rw [State.startPosition, hend, hoff] at hpos
  have hlast : s.startPosition + 1 = 8 * s.bufLen := by simpa using hpos.symm
  rw [State.streamPixel, if_neg (by omega)]

/-- ADVANCE_CURSOR from FILLING inside the buffer, with the stream in the window (rules R130, R134). -/
theorem advanceCursor_engineInv {s : State} (hs : (advanceCursor s).Sound) (hp : s.phase = .filling)
    (hc : s.bufLen ≤ s.params.maxGlyphs) (hg : s.startGlyph < s.bufLen) (h1 : s.shiftCount = 1)
    (hpins : s.pins.restHigh) (hoe : s.pins.oeN = false)
    (hw : ∀ r (c : Fin 32), s.pixel r c = s.streamPixel r (s.startPosition + c.val)) :
    (advanceCursor s).EngineInv := by
  obtain ⟨_, _, hle, hzero⟩ := advanceStart_position hc hg
  have hphase : (advanceStart s).phase = .filling := hp
  have hon : ¬ (advanceStart s).pins.oeN = true := by
    change ¬ s.pins.oeN = true
    simp [hoe]
  rw [advanceCursor_eq] at hs ⊢
  split
  · rename_i hend
    rw [if_pos hend] at hs
    have hshift : ((advanceStart s).setPhase .draining).shiftCount = 1 := h1
    exact {
      sound := hs
      cursor := hle
      filling := nofun
      fillingShift := nofun
      draining := fun _ => ⟨hend, hzero hend, Nat.one_le_of_lt hg⟩
      drained := fun _ h2 => by rw [hshift] at h2; exact absurd h2 (by decide)
      lastColumn := fun _ _ r c hcol => (hw r c).trans (streamPixel_beyond_last hc hg hend r hcol)
      clearHigh := hpins.1
      latchHigh := hpins.2
      blanked := fun hoe' => absurd hoe' hon }
  · rename_i hend
    rw [if_neg hend] at hs
    exact {
      sound := hs
      cursor := hle
      filling := fun _ => .inl (Nat.lt_of_le_of_ne hle hend)
      fillingShift := fun _ => h1
      draining := fun h => by simp [hphase] at h
      drained := fun h => by simp [hphase] at h
      lastColumn := fun h => by simp [hphase] at h
      clearHigh := hpins.1
      latchHigh := hpins.2
      blanked := fun hoe' => absurd hoe' hon }

theorem tickFill_engineInv {s : State} (h : s.EngineInv) (hp : s.phase = .filling) (hrest : (tickFill s).pins.restHigh) :
    (tickFill s).EngineInv := by
  have hs := (tickFill_runs s).sound h.sound
  rcases tickFill_ends s with ⟨hdone, hglyph⟩ | ⟨h0, e⟩
  · exact .of_done hs hdone (hglyph ▸ (tickFill_runs s).bufLen ▸ h.cursor) hrest
  · rw [e] at hs ⊢
    have hg := h.inside hp h0
    apply advanceCursor_engineInv hs
    · simpa [State.filled] using hp
    · simpa [State.filled] using h.sound.capacity
    · simpa [State.filled] using hg
    · simpa [State.filled] using h.fillingShift hp
    · exact filled_restHigh _ _ h.restHigh
    · rw [filled_oeN, h.enabled (by simp [hp])]
    · exact filled_pixel s _ _ []

/-- One DRAINING shift leaves nothing: the first shift moves the last lit column out, later ones find an empty window
(rule R29 item 5, rule R134 c). -/
theorem drain_window_zero {s : State} (h : s.EngineInv) (hp : s.phase = .draining) (r : Fin 8) :
    (winShiftLeft s.shiftCount.toNat s).window.get r = 0 := by
  rw [winShiftLeft_get]
  apply eq_zero_of_pixels
  intro c
  rw [pixelOf_shiftedLeft]
  split
  · rename_i hc
    by_cases h1 : s.shiftCount = 1
    · exact h.lastColumn hp h1 r ⟨c.val + s.shiftCount.toNat, hc⟩ (by simp [h1])
    · have h2 : 2 ≤ s.shiftCount.toNat := by
        have hne : s.shiftCount.toNat ≠ 1 := fun e => h1 (BitVec.eq_of_toNat_eq e)
        have hlow := h.sound.shiftLow
        omega
      rw [h.drained hp h2 r]
      exact pixelOf_zero _
  · rfl

theorem tickDrain_engineInv {s : State} (h : s.EngineInv) (hp : s.phase = .draining)
    (hrest : (tickDrain s).pins.restHigh) : (tickDrain s).EngineInv := by
  have hs := (tickDrain_runs s).sound h.sound
  rcases tickDrain_ends s with ⟨hdone, hglyph⟩ | e
  · exact .of_done hs hdone (hglyph ▸ (tickDrain_runs s).bufLen ▸ h.cursor) hrest
  · have hphase : (tickDrain s).phase = .draining := by simpa [e, State.shifted, winShiftLeft] using hp
    have hoe : (tickDrain s).pins.oeN = false := by
      rw [e, State.setShiftCount_pins, shifted_oeN, h.enabled (by simp [hp])]
    have hzero : ∀ r, (tickDrain s).window.get r = 0 := by
      intro r
      rw [e]
      simpa [State.shifted] using drain_window_zero h hp r
    obtain ⟨hglyph, hoff, hlen⟩ : (tickDrain s).startGlyph = (tickDrain s).bufLen ∧
        (tickDrain s).startOffset = 0 ∧ 1 ≤ (tickDrain s).bufLen := by
      rw [e]
      simpa [State.shifted, winShiftLeft] using h.draining hp
    exact {
      sound := hs
      cursor := hglyph.le
      filling := fun h => by simp [hphase] at h
      fillingShift := fun h => by simp [hphase] at h
      draining := fun _ => ⟨hglyph, hoff, hlen⟩
      drained := fun _ _ => hzero
      lastColumn := fun _ _ r c _ => by rw [State.pixel, Window.pixel, hzero r]; exact pixelOf_zero c
      clearHigh := hrest.1
      latchHigh := hrest.2
      blanked := fun hoe' => by simp [hoe] at hoe' }

theorem tick_engineInv {s : State} (h : s.EngineInv) : (tick s).EngineInv := by
  have hrest := tick_restHigh h.restHigh
  rw [tick] at hrest ⊢
  split at hrest
  · exact tickFill_engineInv h ‹_› hrest
  · exact tickDrain_engineInv h ‹_› hrest
  · exact h

/-- A tick that leaves the display blanked was abandoned, or had nothing to do (rule R29 item 7). -/
theorem tick_blankedByAbort {s : State} (h : s.EngineInv) (hb : s.blankedByAbort) : (tick s).blankedByAbort := by
  by_cases hp : s.phase = .done
  · rw [tick, hp]; exact hb
  · intro hoe
    obtain ⟨es, hes, hev, _⟩ := tick_follows s
    have hsame : ¬ (s.pins.afterAll es).oeN = s.pins.oeN := by
      rw [← hes.pins, hoe, h.enabled hp]; decide
    rcases hev with rfl | hev
    · exact absurd rfl hsame
    · obtain ⟨fs, rfl⟩ := (hev.oeN s.pins).resolve_right hsame
      exact ⟨s.trace ++ fs, by rw [hes.trace, List.append_assoc]⟩

/-! What the parts of a host-driven step keep. -/

/-- From `s` to `t`: the invariants hold, requests are only taken, and item 7 of rule R29 carries over. -/
structure State.Keeps (s t : State) : Prop where
  inv : t.EngineInv
  requests : t.requests <:+ s.requests
  blanked : s.blankedByAbort → t.blankedByAbort

theorem State.Keeps.trans {s t u : State} (h : s.Keeps t) (k : t.Keeps u) : s.Keeps u :=
  ⟨k.inv, k.requests.trans h.requests, k.blanked ∘ h.blanked⟩

theorem State.Keeps.of_enabled {s t : State} (h : t.EngineInv) (hreq : t.requests <:+ s.requests)
    (hoe : t.pins.oeN = false) : s.Keeps t :=
  ⟨h, hreq, fun _ hoe' => by simp [hoe] at hoe'⟩

/-- The invariants say nothing of `overflow`, the inputs and what glyph memory holds. -/
theorem State.EngineInv.keeps_update {s : State} (h : s.EngineInv) (o : Bool) (m : Memory) (q : List (List Byte))
    (k : Option Nat) (hm : m.wf = true) (hq : q <:+ s.requests) :
    s.Keeps { s with overflow := o, glyphMem := m, requests := q, rst := k } where
  inv := ⟨⟨hm, h.sound.capacity, h.sound.shiftLow, h.sound.shiftHigh, h.sound.params⟩, h.cursor, h.filling,
    h.fillingShift, h.draining, h.drained, h.lastColumn, h.clearHigh, h.latchHigh, h.blanked⟩
  requests := hq
  blanked := id

theorem State.EngineInv.keeps_self {s : State} (h : s.EngineInv) : s.Keeps s := ⟨h, List.suffix_rfl, id⟩

theorem State.EngineInv.keeps_rst {s : State} (h : s.EngineInv) (k : Option Nat) : s.Keeps { s with rst := k } :=
  h.keeps_update s.overflow s.glyphMem s.requests k h.sound.memory List.suffix_rfl

/-- A pass begins at the start of its text, or at both ends of an empty one (rules R121, R136). -/
theorem startPass_engineInv {n : Nat} {s : State} (hs : (startPass n s).Sound) : (startPass n s).EngineInv where
  sound := hs
  cursor := Nat.zero_le n
  filling _ := (Nat.eq_zero_or_pos n).symm.imp id fun h0 => ⟨h0, rfl, rfl⟩
  fillingShift _ := rfl
  draining := nofun
  drained := nofun
  lastColumn := nofun
  clearHigh := rfl
  latchHigh := rfl
  blanked := nofun

theorem State.EngineInv.keeps_start {s : State} (h : s.EngineInv) (n : Nat) : s.Keeps (start n s) := by
  have hs := start_sound n h.sound
  rcases start_cases n s with e | e | ⟨_, _, e⟩ <;> rw [e] at hs ⊢
  · exact h.keeps_self
  · exact h.keeps_update true s.glyphMem s.requests s.rst h.sound.memory List.suffix_rfl
  · exact .of_enabled (startPass_engineInv hs) List.suffix_rfl rfl

theorem resetOp_engineInv {s : State} (hs : (resetOp s).Sound) : (resetOp s).EngineInv :=
  .of_done hs rfl (Nat.zero_le 0) ⟨rfl, rfl⟩

theorem State.EngineInv.keeps_reset {s : State} (h : s.EngineInv) : s.Keeps (resetOp s) :=
  .of_enabled (resetOp_engineInv (resetOp_sound h.sound)) List.suffix_rfl rfl

theorem State.EngineInv.keeps_tick {s : State} (h : s.EngineInv) : s.Keeps (tick s) := by
  obtain ⟨es, hes, _⟩ := tick_follows s
  exact ⟨tick_engineInv h, hes.requests ▸ List.suffix_rfl, tick_blankedByAbort h⟩

/-- The three host actions (rules R8, R30, R74). -/
theorem hostAction_cases {i : Instr} {s t : State} (hi : isHostAction i = true) (h : exec i s = .next t) :
    t = resetOp s ∨ (∃ n, t = start n s) ∨ ∃ addr v, t = s.setGlyphMem (s.glyphMem.write addr v) := by
  cases i with
  | reset => cases h; exact .inl rfl
  | start n => cases h; exact .inr (.inl ⟨n, rfl⟩)
  | glyphRowByte g r v =>
    rw [exec, execGlyphRowByte] at h
    split at h
    · split at h
      · cases h
      · split at h
        · cases h
        · cases h; exact .inr (.inr ⟨_, v, rfl⟩)
    · cases h
  | _ => cases hi

theorem State.EngineInv.keeps_hostAction {i : Instr} {s t : State} (h : s.EngineInv) (hi : isHostAction i = true)
    (he : exec i s = .next t) : s.Keeps t := by
  rcases hostAction_cases hi he with rfl | ⟨n, rfl⟩ | ⟨addr, v, rfl⟩
  · exact h.keeps_reset
  · exact h.keeps_start n
  · exact h.keeps_update s.overflow _ s.requests s.rst (Memory.write_wf h.sound.memory addr v) List.suffix_rfl

/-- A host-driven step without `rst` performs a host action, the first request taken out, or the engine's own tick, or does
nothing. -/
theorem stepOperation_hostDriven {s t : State} (hd : s.hostDriven) (h : stepOperation s = .next t) :
    (∃ i rest, isHostAction i = true ∧ rest <:+ s.requests ∧ exec i { s with requests := rest } = .next t) ∨
      t = tick s ∨ t = s := by
  unfold stepOperation fetch at h
  cases hreq : s.requests with
  | cons record rest =>
    simp only [hreq] at h
    cases hdec : decode record with
    | ok i =>
      simp only [hdec] at h
      exact .inl ⟨i, rest, hd record (hreq ▸ List.mem_cons_self) i hdec, List.suffix_cons record rest, h⟩
    | error why => simp [hdec] at h
  | nil =>
    simp only [hreq] at h
    by_cases hp : s.phase = .done
    · rw [if_pos hp] at h; cases h; exact .inr (.inr rfl)
    · rw [if_neg hp] at h
      change execTick s = .next t at h
      rw [execTick] at h
      split at h
      · cases h
      · cases h; exact .inr (.inl rfl)

theorem State.EngineInv.keeps_stepOperation {s t : State} (h : s.EngineInv) (hd : s.hostDriven)
    (he : stepOperation s = .next t) : s.Keeps t := by
  rcases stepOperation_hostDriven hd he with ⟨i, rest, hi, hrest, hexec⟩ | rfl | rfl
  · have htaken := h.keeps_update s.overflow s.glyphMem rest s.rst h.sound.memory hrest
    exact htaken.trans (htaken.inv.keeps_hostAction hi hexec)
  · exact h.keeps_tick
  · exact h.keeps_self

/-! `rst` (rule R183). -/

theorem takeRst_engineInv {s : State} (hs : (takeRst s).Sound) : (takeRst s).EngineInv :=
  .of_done hs rfl (Nat.zero_le 0) ⟨rfl, rfl⟩

/-- An `rst` due in an operation waits on, or RESET follows what was left of the operation (rule R183). -/
theorem cutByRst_cases (n : Nat) (s t : State) :
    (∃ k, cutByRst n s t = { t with rst := k }) ∨ ∃ u, u.requests = t.requests ∧ cutByRst n s t = takeRst u := by
  simp only [cutByRst]
  split
  · exact .inl ⟨_, rfl⟩
  · obtain ⟨_, _, _, _, hreq, _⟩ :=
      replay_frame ((t.trace.drop s.trace.length).take n) { s with requests := t.requests }
    exact .inr ⟨_, hreq, rfl⟩

theorem State.Keeps.to_cutByRst {s t : State} (n : Nat) (hs : s.Sound) (h : s.Keeps t) : s.Keeps (cutByRst n s t) := by
  have hcut := cutByRst_sound n hs h.inv.sound
  rcases cutByRst_cases n s t with ⟨k, e⟩ | ⟨u, hreq, e⟩ <;> rw [e] at hcut ⊢
  · exact h.trans (h.inv.keeps_rst k)
  · refine .of_enabled (takeRst_engineInv hcut) ?_ rfl
    change u.requests <:+ s.requests
    exact hreq ▸ h.requests

theorem State.EngineInv.keeps_step {s t : State} (h : s.EngineInv) (hd : s.hostDriven) (he : step s = .next t) :
    s.Keeps t := by
  unfold step at he
  split at he
  · exact h.keeps_stepOperation hd he
  · cases he
    exact .of_enabled (takeRst_engineInv (takeRst_sound h.sound)) List.suffix_rfl rfl
  · rename_i n _
    split at he
    · rename_i u hu
      cases he
      have hwait := h.keeps_rst none
      exact (hwait.trans (hwait.inv.keeps_stepOperation hd hu)).to_cutByRst (n + 1) h.sound
    · cases he
    · cases he

/-- Settles O52: every part of a step keeps the invariants, and the requests it leaves are some of those that waited. -/
theorem stepKeepsEngineInv : Obligations.StepKeepsEngineInv := by
  intro s t h hd he
  have hkeeps := h.keeps_step hd he
  exact ⟨hkeeps.inv, fun r hr => hd r (hkeeps.requests.subset hr), hkeeps.blanked⟩

/-! The start of a pass and the reset state. -/

/-- START in DONE over a text that fits (rule R121). -/
theorem start_accepted {n : Nat} {s : State} (hp : s.phase = .done) (hn : n ≤ s.params.maxGlyphs) :
    start n s = startPass n s := by
  rw [start, if_neg (not_not.mpr hp), if_neg]
  simpa [exceedsCapacity] using hn

/-- With the output register clear nothing is lit (rule R165). -/
theorem lit_of_out_zero {s : State} (h : s.panel.out = 0) (r : Fin 8) (c : Fin 32) : s.lit r c = false := by
  simp [State.lit, h]

/-- Settles O24: START is then `startPass`, register writes and the events of CLEARSEQ. -/
theorem startAccepted : Obligations.StartAccepted := by
  intro s n hp hn
  have hpanel : (startPass n s).panel = { sr := 0, out := 0 } := rfl
  exact ⟨startPass n s, congrArg Host.Outcome.next (start_accepted hp hn), rfl, rfl, rfl, rfl, rfl, rfl, winClear_get s,
    (startPass_follows n s).trace, (startPass_follows n s).pins, hpanel, lit_of_out_zero (by rw [hpanel]), fun _ => rfl,
    ⟨rfl, rfl, rfl, rfl, rfl⟩, rfl⟩

theorem reset_sound : State.reset.Sound :=
  ⟨State.reset_memory_wf, Nat.zero_le _, by decide, by decide, ⟨Nat.le_add_left 1 _, Nat.le_add_left 1 _⟩⟩

/-- Settles O53: DONE with the cursor at 0, the lines at their idle levels, and no request. -/
theorem resetMeetsInvariants : Obligations.ResetMeetsInvariants :=
  ⟨.of_done reset_sound rfl (Nat.zero_le 0) ⟨rfl, rfl⟩, nofun, nofun⟩

end Sys2Proof.Machine

/-! Glyph memory as the engine reads it: no operation of a tick looks at a byte at or beyond `8*bufLen` (rules R42, R44,
R124). A lemma says that putting another memory in place before an operation or after it is the same. -/

namespace Sys2Proof.Machine

/-! Operations that read no glyph. -/

theorem State.setGlyphMem_emit (s : State) (m : Memory) (es : List Event) :
    (s.setGlyphMem m).emit es = (s.emit es).setGlyphMem m := by
  rw [State.emit_eq, State.emit_eq]; rfl

theorem State.setGlyphMem_polled (s : State) (m : Memory) (es : List Event) (n : Nat) :
    (s.setGlyphMem m).polled es n = (s.polled es n).setGlyphMem m := by
  rw [State.polled, State.setGlyphMem_emit]; rfl

theorem scanFrame_setGlyphMem (s : State) (m : Memory) :
    scanFrame (s.setGlyphMem m) = (scanFrame s).setGlyphMem m := by
  rw [scanFrame_eq, scanFrame_eq]
  exact s.setGlyphMem_emit m (frameEvents s.window)

theorem dwellFrames_setGlyphMem (n : Nat) (s : State) (m : Memory) :
    dwellFrames n (s.setGlyphMem m) = ((dwellFrames n s).1, (dwellFrames n s).2.setGlyphMem m) := by
  induction n generalizing s with
  | zero => rfl
  | succ n ih =>
    have hpoll : (s.setGlyphMem m).nextAnswer = s.nextAnswer := rfl
    rw [dwellFrames, dwellFrames, hpoll]
    split
    · rfl
    · exact (congrArg (dwellFrames n) (scanFrame_setGlyphMem s.takePoll m)).trans (ih (scanFrame s.takePoll))

theorem advanceCursor_setGlyphMem (s : State) (m : Memory) :
    advanceCursor (s.setGlyphMem m) = (advanceCursor s).setGlyphMem m := by
  have hstart : advanceStart (s.setGlyphMem m) = (advanceStart s).setGlyphMem m := rfl
  rw [advanceCursor_eq, advanceCursor_eq, hstart, State.setGlyphMem_startGlyph, State.setGlyphMem_bufLen]
  split <;> rfl

theorem drainStep_setGlyphMem (s : State) (m : Memory) :
    drainStep (s.setGlyphMem m) = (drainStep s).setGlyphMem m := by
  rw [drainStep, drainStep, State.setGlyphMem_shiftCount]
  split <;> rfl

theorem tickDrain_setGlyphMem (s : State) (m : Memory) :
    tickDrain (s.setGlyphMem m) = (tickDrain s).setGlyphMem m := by
  cases h : s.nextAnswer with
  | true =>
    rw [tickDrain_abort _ h, tickDrain_abort (s.setGlyphMem m) h, State.setGlyphMem_polled]; rfl
  | false =>
    have hdwell : (winShiftLeft (s.setGlyphMem m).shiftCount.toNat (s.setGlyphMem m)).polled [.poll false] 1 =
        ((winShiftLeft s.shiftCount.toNat s).polled [.poll false] 1).setGlyphMem m :=
      State.setGlyphMem_polled (winShiftLeft s.shiftCount.toNat s) m _ 1
    rw [tickDrain_dwell _ h, tickDrain_dwell (s.setGlyphMem m) h, hdwell, dwellFrames_setGlyphMem,
      State.setGlyphMem_params]
    rcases dwellFrames s.params.framesPerTick _ with ⟨_ | _, u⟩
    · exact drainStep_setGlyphMem u m
    · rfl

/-! Operations that read the glyphs below `bufLen`. -/

/-- Another memory that reads the same at every address below `8*bufLen`. -/
def State.agreesBelow (s : State) (m : Memory) : Prop :=
  ∀ addr, addr < 8 * s.bufLen → m.read addr = s.glyphMem.read addr

theorem fillWindow_setGlyphMem_window {s : State} {m : Memory} (hm : s.agreesBelow m) :
    (fillWindow (s.setGlyphMem m)).window = (fillWindow s).window :=
  fillWindow_congr rfl rfl rfl hm

theorem fillWindow_setGlyphMem {s : State} {m : Memory} (hm : s.agreesBelow m) :
    fillWindow (s.setGlyphMem m) = (fillWindow s).setGlyphMem m := by
  rw [fillWindow_eq (s.setGlyphMem m), fillWindow_setGlyphMem_window hm, fillWindow_eq s]; rfl

theorem tickFill_setGlyphMem {s : State} {m : Memory} (hm : s.agreesBelow m) :
    tickFill (s.setGlyphMem m) = (tickFill s).setGlyphMem m := by
  cases h : s.nextAnswer with
  | true =>
    rw [tickFill_abort _ h, tickFill_abort (s.setGlyphMem m) h, State.setGlyphMem_polled]; rfl
  | false =>
    by_cases h0 : s.bufLen = 0
    · rw [tickFill_empty _ h h0, tickFill_empty (s.setGlyphMem m) h h0]
      exact congrArg (State.setPhase · .done) (State.setGlyphMem_polled (s.setWindow Window.zero) m _ 1)
    · have hdwell : ((s.setGlyphMem m).setWindow (fillWindow s).window).polled [.poll false] 1 =
          ((s.setWindow (fillWindow s).window).polled [.poll false] 1).setGlyphMem m :=
        State.setGlyphMem_polled (s.setWindow (fillWindow s).window) m _ 1
      rw [tickFill_dwell _ h h0, tickFill_dwell (s.setGlyphMem m) h h0, fillWindow_setGlyphMem_window hm, hdwell,
        dwellFrames_setGlyphMem, State.setGlyphMem_params]
      rcases dwellFrames s.params.framesPerTick _ with ⟨_ | _, u⟩
      · exact advanceCursor_setGlyphMem u m
      · rfl

theorem tick_setGlyphMem {s : State} {m : Memory} (hm : s.agreesBelow m) :
    tick (s.setGlyphMem m) = (tick s).setGlyphMem m := by
  rw [tick, tick, State.setGlyphMem_phase]
  split
  · exact tickFill_setGlyphMem hm
  · exact tickDrain_setGlyphMem s m
  · rfl

/-- Settles O54: the checks of the three instructions read `phase`, `bufLen` and the capacity only, and each operation
does the same with a memory that agrees below. -/
theorem bytesBeyondLengthDoNotMatter : Obligations.BytesBeyondLengthDoNotMatter := by
  intro s t m hm i hi h
  change exec i (s.setGlyphMem m) = .next (t.setGlyphMem m)
  simp only [List.mem_cons, List.not_mem_nil, or_false] at hi
  rcases hi with rfl | rfl | rfl
  · rw [exec, execTick] at h
    split at h
    · cases h
    · rename_i hc
      cases h
      exact (if_neg hc).trans (congrArg Host.Outcome.next (tick_setGlyphMem hm))
  · rw [exec, execFillWindow] at h
    split at h
    · rename_i hc
      cases h
      exact (if_pos hc).trans (congrArg Host.Outcome.next (fillWindow_setGlyphMem hm))
    · cases h
  · rw [exec, execTickFill] at h
    split at h
    · rename_i hc
      cases h
      exact (if_pos hc).trans (congrArg Host.Outcome.next (tickFill_setGlyphMem hm))
    · cases h

/-! GLYPH_BIT. -/

/-- GLYPH_BIT on a row and a column of a glyph (rules R40, R124). -/
theorem exec_glyphBit (s : State) (i : Nat) {r c : Nat} (hr : r < 8) (hc : c < 8) :
    exec (.glyphBit i r c) s =
      if s.bufLen ≤ i then .refused .glyphBeyondLength
      else if s.params.maxGlyphs ≤ i then .fault .glyphAddress
      else .next (s.setResult (.bit ((s.glyphMem.read (8 * i + r)).getLsbD c))) := by
  rw [exec, execGlyphBit, rowOperand_lt hr, glyphColOperand_lt hc]; rfl

/-- Settles O23: inside the buffer and the capacity neither check stops the read. -/
theorem glyphBitReadsMemory : Obligations.GlyphBitReadsMemory := by
  intro s i r c hlen hcap hr hc
  rw [exec_glyphBit s i hr hc, if_neg (Nat.not_le.mpr hlen), if_neg (Nat.not_le.mpr hcap)]
  rfl

end Sys2Proof.Machine

/-! Request records: what the operand readers of the decoder answer on the bytes the encoder writes, followed by zeros, and
the round trip of a record (rule R71; log entries 2, 3). -/

namespace Sys2Proof

/-! Natural numbers as bytes. -/

theorem natOfBytes_append_zeros (bs : List Byte) (zeros : Nat) :
    natOfBytes (bs ++ List.replicate zeros 0) = natOfBytes bs := by
  induction bs with
  | nil =>
    induction zeros with
    | zero => rfl
    | succ n ih => simpa [List.replicate_succ, natOfBytes] using ih
  | cons b bs ih => rw [List.cons_append, natOfBytes, natOfBytes, ih]

theorem natOfBytes_bytesOfNat (count n : Nat) : natOfBytes (bytesOfNat count n) = n % 256 ^ count := by
  induction count generalizing n with
  | zero => simp [bytesOfNat, natOfBytes, Nat.mod_one]
  | succ count ih =>
    rw [bytesOfNat, natOfBytes, ih, BitVec.toNat_ofNat, Nat.pow_succ' (m := 256), Nat.mod_mul]

/-- So many bytes as the larger of some numbers needs hold each of them. -/
theorem lt_pow_byteCount {n m : Nat} (h : n ≤ m) : n < 256 ^ (Nat.log2 m / 8 + 1) :=
  calc n ≤ m := h
    _ < 2 ^ (Nat.log2 m + 1) := Nat.lt_log2_self
    _ ≤ 2 ^ (8 * (Nat.log2 m / 8 + 1)) := Nat.pow_le_pow_right (by decide) (by omega)
    _ = 256 ^ (Nat.log2 m / 8 + 1) := Nat.pow_mul 2 8 _

theorem natOfBytes_bytesOfNat_zeros {n m : Nat} (h : n ≤ m) (zeros : Nat) :
    natOfBytes (bytesOfNat (Nat.log2 m / 8 + 1) n ++ List.replicate zeros 0) = n := by
  rw [natOfBytes_append_zeros, natOfBytes_bytesOfNat, Nat.mod_eq_of_lt (lt_pow_byteCount h)]

theorem unpairBytes_pairBytes (count m n : Nat) (bs : List Byte) :
    unpairBytes (pairBytes count m n ++ bs) =
      (bytesOfNat count m ++ (unpairBytes bs).1, bytesOfNat count n ++ (unpairBytes bs).2) := by
  induction count generalizing m n with
  | zero => rfl
  | succ count ih => simp only [pairBytes, bytesOfNat, List.cons_append, unpairBytes, ih]

theorem unpairBytes_zeros (zeros : Nat) :
    unpairBytes (List.replicate zeros 0) = (List.replicate ((zeros + 1) / 2) 0, List.replicate (zeros / 2) 0) := by
  induction zeros with
  | zero => rfl
  | succ n ih =>
    rw [List.replicate_succ, unpairBytes, ih, ← List.replicate_succ, show n / 2 + 1 = (n + 1 + 1) / 2 by omega]

theorem wordOfBytes_wordBytes (w : Word) :
    wordOfBytes (BitVec.ofNat 8 w.toNat) (BitVec.ofNat 8 (w.toNat / 256)) (BitVec.ofNat 8 (w.toNat / 256 / 256))
      (BitVec.ofNat 8 (w.toNat / 256 / 256 / 256)) = w := by
  have hbytes : natOfBytes (wordBytes w) = w.toNat := by
    rw [wordBytes, natOfBytes_bytesOfNat]
    exact Nat.mod_eq_of_lt w.isLt
  exact (congrArg (BitVec.ofNat 32) hbytes).trans ((BitVec.ofNat_toNat 32 w).trans w.setWidth_eq)

/-! The operand readers: each answers `i` where what it builds from the operands is `i`. -/

theorem acceptRecord_zeros {i j : Instr} (h : i.wf = true) (e : j = i) (zeros : Nat) :
    acceptRecord j (List.replicate zeros 0) = .ok i := by
  subst e
  simp [acceptRecord, h]

theorem acceptBit_byteOfBool {i : Instr} (mk : Bool → Instr) {b : Bool} (h : i.wf = true) (e : mk b = i) (zeros : Nat) :
    acceptBit (byteOfBool b) (List.replicate zeros 0) mk = .ok i := by
  cases b
  · exact acceptRecord_zeros h e zeros
  · exact acceptRecord_zeros h e zeros

theorem acceptNat_natBytes {i : Instr} (mk : Nat → Instr) {n : Nat} (h : i.wf = true) (e : mk n = i) (zeros : Nat) :
    acceptNat (natBytes n ++ List.replicate zeros 0) mk = .ok i := by
  have hn : natOfBytes (natBytes n ++ List.replicate zeros 0) = n := natOfBytes_bytesOfNat_zeros le_rfl zeros
  exact acceptRecord_zeros h ((congrArg mk hn).trans e) 0

theorem acceptNats_pairBytes {i : Instr} (mk : Nat → Nat → Instr) {m n : Nat} (h : i.wf = true) (e : mk m n = i)
    (zeros : Nat) :
    acceptNats (pairBytes (Nat.log2 (max m n) / 8 + 1) m n ++ List.replicate zeros 0) mk = .ok i := by
  have hsplit := unpairBytes_pairBytes (Nat.log2 (max m n) / 8 + 1) m n (List.replicate zeros 0)
  rw [unpairBytes_zeros] at hsplit
  have hm := (congrArg (natOfBytes ·.1) hsplit).trans (natOfBytes_bytesOfNat_zeros (Nat.le_max_left m n) _)
  have hn := (congrArg (natOfBytes ·.2) hsplit).trans (natOfBytes_bytesOfNat_zeros (Nat.le_max_right m n) _)
  exact acceptRecord_zeros h ((congrArg₂ mk hm hn).trans e) 0

/-- A row or glyph column operand comes back from its byte (rules R102, R124). -/
theorem toNat_rowByte {row : Nat} (h : row < 8) : (BitVec.ofNat 8 row).toNat = row :=
  Nat.mod_eq_of_lt (h.trans (by decide))

/-- A window column operand comes back from its byte (rule R102). -/
theorem toNat_colByte {col : Nat} (h : col < 32) : (BitVec.ofNat 8 col).toNat = col :=
  Nat.mod_eq_of_lt (h.trans (by decide))

/-- The record of a well-formed instruction, with any zeros behind it, decodes to the instruction: its id or its format byte
leads to the reader of its last operand. -/
theorem decode_encode {i : Instr} (h : i.wf = true) (zeros : Nat) :
    decode (encode i ++ List.replicate zeros 0) = .ok i := by
  cases i with
  | pinWrite line level => cases line <;> exact acceptBit_byteOfBool (.pinWrite _) h rfl zeros
  | emitBit b => exact acceptBit_byteOfBool .emitBit h rfl zeros
  | setOe level => exact acceptBit_byteOfBool .setOe h rfl zeros
  | bitcell b => exact acceptBit_byteOfBool .bitcell h rfl zeros
  | emitColumns p bitWidth =>
    have hw : bitWidthOf bitWidth = bitWidth := if_neg (Nat.ne_of_gt (of_decide_eq_true h))
    exact acceptNats_pairBytes (fun p n => .emitColumns p (bitWidthOf n)) h (congrArg _ hw) zeros
  | winShiftLeft n => exact acceptNat_natBytes .winShiftLeft h rfl zeros
  | start n => exact acceptNat_natBytes .start h rfl zeros
  | runPass n => exact acceptNat_natBytes .runPass h rfl zeros
  | winSetPixel row col value =>
    obtain ⟨hr, hc⟩ : row < 8 ∧ col < 32 := by simpa [Instr.wf] using h
    exact acceptBit_byteOfBool (.winSetPixel _ _) h (by rw [toNat_rowByte hr, toNat_colByte hc]) zeros
  | winGetPixel row col =>
    obtain ⟨hr, hc⟩ : row < 8 ∧ col < 32 := by simpa [Instr.wf] using h
    exact acceptRecord_zeros h (congrArg₂ Instr.winGetPixel (toNat_rowByte hr) (toNat_colByte hc)) zeros
  | winReadRow row =>
    exact acceptRecord_zeros h (congrArg Instr.winReadRow (toNat_rowByte (of_decide_eq_true h))) zeros
  | scanRow row =>
    exact acceptRecord_zeros h (congrArg Instr.scanRow (toNat_rowByte (of_decide_eq_true h))) zeros
  | glyphBit i r c =>
    obtain ⟨hr, hc⟩ : r < 8 ∧ c < 8 := by simpa [Instr.wf] using h
    exact acceptNat_natBytes (.glyphBit · _ _) h
      (congrArg₂ (Instr.glyphBit i) (toNat_rowByte hr) (toNat_rowByte hc)) zeros
  | glyphRowByte i r v =>
    exact acceptNat_natBytes (.glyphRowByte · _ v) h
      (congrArg (Instr.glyphRowByte i · v) (toNat_rowByte (of_decide_eq_true h))) zeros
  | colfield c => exact acceptRecord_zeros h (congrArg Instr.colfield (wordOfBytes_wordBytes c)) zeros
  | rowframe c r => exact acceptRecord_zeros h (congrArg (Instr.rowframe · r) (wordOfBytes_wordBytes c)) zeros
  | windowRowWord row c =>
    exact acceptRecord_zeros h
      (congrArg₂ Instr.windowRowWord (toNat_rowByte (of_decide_eq_true h)) (wordOfBytes_wordBytes c)) zeros
  | shiftOut8 | emitRowscan | latch | clearRegs | winClear | scanFrame | reset | tick | poll | fillWindow | tickFill
  | tickDrain | dwellScan | advanceCursor | abort | rowsel0 | rowsel1 | rowsel2 | rowsel3 | rowsel4 | rowsel5 | rowsel6
  | rowsel7 | chunk | latchpulse | frame | clearseq | phaseFilling | phaseDraining | phaseDone | causeBufferOverflow =>
    exact acceptRecord_zeros h rfl zeros

/-- Settles O58: the round trip of every constructor's record. -/
theorem decodeEncode : Obligations.DecodeEncode := fun _ zeros h => decode_encode h zeros

/-- A record with an id in its first byte is read by its id. -/
theorem decode_of_id {b : Byte} (rest : List Byte) (h0 : 0 < b.toNat) (h : b.toNat < 32) :
    decode (b :: rest) = decodeOperation b.toNat rest := by
  have hb : b ≠ 0#8 := fun e => by simp [e] at h0
  exact (if_neg hb).trans (if_pos h)

theorem decodeOperation_unassigned {id : Nat} (operands : List Byte) (hlo : 0x1B ≤ id) (hhi : id ≤ 0x1F) :
    decodeOperation id operands = .error .unassignedId := by
  interval_cases id <;> rfl

/-- Settles O60: such a first byte is read as an id, and no operation has it. -/
theorem unassignedIdsRejected : Obligations.UnassignedIdsRejected := fun _ rest hlo hhi =>
  (decode_of_id rest (by omega) (by omega)).trans (decodeOperation_unassigned rest hlo hhi)

/-- Settles O59: ten words, each decoded by evaluation. -/
theorem tableWordsDecode : Obligations.TableWordsDecode := by
  unfold Obligations.TableWordsDecode
  decide

end Sys2Proof

/-! The wire operations and formats of 30_encoding.md and 40_bus_driver.md: what `exec` puts on the lines for each, and the
statements that read the bits, the edges and the levels off those events. -/

namespace Sys2Proof.Machine

/-! Which events each instruction emits. -/

theorem exec_eq_emit_bitcellEvents (b : Bool) (s : State) :
    ∀ i ∈ [Instr.emitBit b, Instr.bitcell b], exec i s = .next (s.emit (bitcellEvents b)) := by
  simp only [List.forall_mem_cons]
  exact ⟨rfl, rfl, nofun⟩

theorem exec_eq_emit_chunkEvents (v : Byte) (s : State) :
    ∀ i ∈ [Instr.shiftOut8 v, Instr.emitRowscan v, Instr.chunk v], exec i s = .next (s.emit (chunkEvents v)) := by
  simp only [List.forall_mem_cons]
  exact ⟨congrArg Host.Outcome.next (shiftOut8_eq v s), congrArg Host.Outcome.next (shiftOut8_eq v s), rfl, nofun⟩

theorem exec_eq_emit_latchpulseEvents (s : State) :
    ∀ i ∈ [Instr.latch, Instr.latchpulse], exec i s = .next (s.emit latchpulseEvents) := by
  simp only [List.forall_mem_cons]
  exact ⟨rfl, rfl, nofun⟩

theorem exec_eq_emit_clearseqEvents (s : State) :
    ∀ i ∈ [Instr.clearRegs, Instr.clearseq], exec i s = .next (s.emit clearseqEvents) := by
  simp only [List.forall_mem_cons]
  exact ⟨rfl, rfl, nofun⟩

/-- The bits of EMIT_COLUMNS in the order they are sent: those of the pattern's chunks (rules R69 a, R84). -/
def columnBits (p bitWidth : Nat) : List Bool := (chunksOf p (chunkCount bitWidth)).flatMap chunkBits

theorem exec_emitColumns (p : Nat) {bitWidth : Nat} (s : State) (h : 1 ≤ bitWidth) :
    exec (.emitColumns p bitWidth) s = .next (s.emit (cells (columnBits p bitWidth))) := by
  rw [exec, execEmitColumns, if_neg (Nat.ne_of_gt h), emitColumns_eq, flatMap_chunkEvents, columnBits]

theorem exec_scanRow (r : Fin 8) (s : State) :
    exec (.scanRow r.val) s = .next (s.emit (rowframeEvents (s.window.get r) (rowsel r))) := by
  rw [exec, execScanRow, rowOperand_fin]
  exact congrArg Host.Outcome.next (scanRow_eq r s)

/-- The eight row-select codes and their bytes (rule R64). -/
def rowselCodes : List (Instr × Byte) :=
  [(.rowsel0, 0x80), (.rowsel1, 0x40), (.rowsel2, 0x20), (.rowsel3, 0x10), (.rowsel4, 0x08), (.rowsel5, 0x04),
    (.rowsel6, 0x02), (.rowsel7, 0x01)]

theorem exec_rowselCodes (s : State) : ∀ p ∈ rowselCodes, exec p.1 s = .next (s.emit (chunkEvents p.2)) := by
  simp only [rowselCodes, List.forall_mem_cons]
  exact ⟨rfl, rfl, rfl, rfl, rfl, rfl, rfl, rfl, nofun⟩

theorem rowsel_eq_ofNat (r : Fin 8) : rowsel r = BitVec.ofNat 8 (128 / 2 ^ r.val) := by
  revert r; decide

/-! One bit, one byte, one pattern (rules R61 to R63, R82 to R85). -/

/-- Settles O2: the clock is low before the bit is set, so the last write is the edge. -/
theorem bitCellHasOneRisingEdge : Obligations.BitCellHasOneRisingEdge := fun b s i hi =>
  ⟨_, exec_eq_emit_bitcellEvents b s i hi, s.emit_trace _, risesIn_sck_cells s.pins [b],
    clockedBits_cells s.pins [b], s.emit_pins _⟩

/-- Settles O3: the byte's events are the cells of its eight bits. -/
theorem byteSentMsbFirst : Obligations.ByteSentMsbFirst := by
  intro v s i hi
  refine ⟨_, chunkEvents v, exec_eq_emit_chunkEvents v s i hi, s.emit_trace _, rfl, clockedBits_cells s.pins (chunkBits v),
    pinCount_cells (chunkBits v), length_cells (chunkBits v), ?_⟩
  rw [State.emit_afterAll, chunkEvents_cells, chunkBits_last, cells_afterAll]

theorem length_columnBits (p bitWidth : Nat) : (columnBits p bitWidth).length = 8 * chunkCount bitWidth := by
  rw [columnBits, length_flatMap_chunkBits, length_chunksOf]

/-- Three events a bit, so 24 a chunk. -/
theorem three_mul_length_columnBits (p bitWidth : Nat) :
    3 * (columnBits p bitWidth).length = 24 * chunkCount bitWidth := by
  rw [length_columnBits]; omega

theorem chunksOf_bits_last (p n : Nat) : ∃ bs, (chunksOf p (n + 1)).flatMap chunkBits = bs ++ [p.testBit 0] := by
  induction n with
  | zero =>
    have hbit : (chunkOf p 0).getLsbD 0 = p.testBit 0 := BitVec.getLsbD_ofNat 8 p 0
    exact ⟨_, by rw [← hbit, chunksOf, chunksOf, List.flatMap_singleton, chunkBits_last]⟩
  | succ n ih =>
    obtain ⟨bs, hbs⟩ := ih
    exact ⟨chunkBits (chunkOf p (n + 1)) ++ bs, by rw [chunksOf, List.flatMap_cons, hbs, List.append_assoc]⟩

/-- A pattern of width 1 or more ends on the wire with its bit 0. -/
theorem columnBits_last (p : Nat) {bitWidth : Nat} (h : 1 ≤ bitWidth) :
    ∃ bs, columnBits p bitWidth = bs ++ [p.testBit 0] := by
  obtain ⟨n, hn⟩ : ∃ n, chunkCount bitWidth = n + 1 := Nat.exists_eq_add_of_le' (by rw [chunkCount]; omega)
  rw [columnBits, hn]
  exact chunksOf_bits_last p n

/-- Settles O4: the bits clocked are those of the chunks, which read as one number are the pattern's low bits. -/
theorem emitColumnsSendsChunks : Obligations.EmitColumnsSendsChunks := by
  intro p bitWidth s h
  obtain ⟨bs, hbs⟩ := columnBits_last p h
  refine ⟨_, cells (columnBits p bitWidth), exec_emitColumns p s h, s.emit_trace _, ?_, ?_,
    (length_cells _).trans (three_mul_length_columnBits p bitWidth),
    (pinCount_cells _).trans (three_mul_length_columnBits p bitWidth), risesIn_lck_cells _ _, ?_⟩
  · rw [clockedBits_cells]; exact length_columnBits p bitWidth
  · rw [clockedBits_cells]; exact msbFirst_chunksOf p (chunkCount bitWidth)
  · rw [State.emit_afterAll, hbs, cells_afterAll]

/-! The latch pulse, the clear sequence (rules R66, R68, R86, R88). -/

/-- Settles O5: `LCK` is low before it rises, so the panel copies its shift register. -/
theorem latchPulsesOnce : Obligations.LatchPulsesOnce := fun s i hi =>
  ⟨_, exec_eq_emit_latchpulseEvents s i hi, s.emit_trace _, rfl, s.emit_pins _, s.emit_panel _⟩

/-- Settles O7: the shift register is cleared before the latch copies it, and the outputs show nothing. -/
theorem clearRegsIsClearseq : Obligations.ClearRegsIsClearseq := by
  intro s i hi
  have hpanel : (s.emit clearseqEvents).panel = { sr := 0, out := 0 } := s.emit_panel _
  refine ⟨_, _, exec_eq_emit_clearseqEvents s i hi, s.emit_trace _, rfl, s.emit_pins _, ?_, hpanel,
    lit_of_out_zero (by rw [hpanel])⟩
  simp [clearseqEvents, blankWhileClear, Pins.after]

/-! Row select, row frame, and the formats against the operations that produce them (rules R60, R64, R65). -/

/-- Settles O8: a code is a CHUNK of its byte, whose eight bits read as the byte. -/
theorem rowSelectCodes : Obligations.RowSelectCodes := by
  intro s p hp
  have hcode : (p.1, BitVec.ofNat 8 p.2) ∈ rowselCodes ∧ p.2 < 256 := by
    revert p; decide
  have hexec := exec_rowselCodes s _ hcode.1
  refine ⟨_, _, hexec, s.emit_trace _, ?_, ?_, hexec⟩
  · rw [chunkEvents_cells, clockedBits_cells, length_chunkBits]
  · rw [chunkEvents_cells, clockedBits_cells, msbFirst_chunkBits]
    exact Nat.mod_eq_of_lt hcode.2

/-- Settles O10: forty cells, then the latch pulse and the dwell. -/
theorem rowFrameLayout : Obligations.RowFrameLayout := by
  intro c v s
  have hlen : (patternBits c ++ chunkBits v).length = 40 := rfl
  refine ⟨_, cells (patternBits c ++ chunkBits v), rfl, ?_, ?_, ?_, risesIn_lck_cells _ _, pinCount_cells _,
    dwellCount_cells _, length_cells _⟩
  · rw [State.emit_trace, rowframeEvents_cells, List.append_assoc]
  · rw [clockedBits_cells, hlen]
  · rw [clockedBits_cells, msbFirst_append, msbFirst_patternBits, msbFirst_chunkBits, length_chunkBits]
    rfl

/-- Settles O9: format and operation emit the same events. -/
theorem formatsAreWhatOperationsProduce : Obligations.FormatsAreWhatOperationsProduce := by
  intro s
  refine ⟨fun p => ?_, fun b => rfl, fun p hp => ?_, fun v => ?_, fun r => ?_, ?_, rfl, rfl⟩
  · rw [exec_emitColumns p.toNat s (by decide), columnBits, ← flatMap_chunkEvents, colfieldEvents_eq]; rfl
  · exact (exec_rowselCodes s p hp).trans (exec_eq_emit_chunkEvents p.2 s _ (by simp)).symm
  · exact (exec_eq_emit_chunkEvents v s _ (by simp)).trans (exec_eq_emit_chunkEvents v s _ (by simp)).symm
  · rw [exec_scanRow, rowsel_eq_ofNat]; rfl
  · exact congrArg Host.Outcome.next (scanFrame_eq s).symm

/-! One step on a request. -/

theorem fetch_of_decode {s : State} {record : List Byte} {rest : List (List Byte)} {i : Instr}
    (hreq : s.requests = record :: rest) (hdec : decode record = .ok i) :
    fetch s = .request i { s with requests := rest } := by
  simp only [fetch, hreq, hdec]

/-- Settles O55: with no `rst` due the step performs what `fetch` finds. -/
theorem stepRunsDecoded : Obligations.StepRunsDecoded := by
  intro s record rest i hrst hreq hdec
  simp only [step, hrst, stepOperation, fetch_of_decode hreq hdec]

end Sys2Proof.Machine

/-! The bus properties of rule R89 over what the machine puts on the wire, and what the bus and scanner operations leave
unchanged (rules R80, R81, R87, R110 to R112). -/

namespace Sys2Proof.Machine

/-! Latching and clearing (rule R89 items 2 and 3), with `rst` at any event boundary (rule R183). -/

/-- From levels `p`, with `n` bits shifted since the last latch or clear, the events latch after 40 or 0 bits only, leave
`m` bits shifted, and hold `CLR_n` low only while blanked; and RESET may follow the first `k` of them, for every `k`,
without latching mid-shift. -/
structure WireSafe (n : Nat) (p : Pins) (es : List Event) (m : Nat) : Prop where
  latches : latchScan n p es = some m
  blanked : blankWhileClear p es = true
  cut : ∀ k, latchScan n p (es.take k ++ resetEvents) = some 0

theorem WireSafe.append {n m l : Nat} {p : Pins} {es fs : List Event} (h : WireSafe n p es m)
    (hf : WireSafe m (p.afterAll es) fs l) : WireSafe n p (es ++ fs) l where
  latches := by rw [latchScan_append, h.latches, Option.bind_some, hf.latches]
  blanked := by rw [blankWhileClear_append, h.blanked, hf.blanked, Bool.and_self]
  cut k := by
    rcases Nat.le_total k es.length with hk | hk
    · rw [List.take_append_of_le_length hk, h.cut]
    · rw [List.take_append, List.take_of_length_le hk, List.append_assoc, latchScan_append, h.latches,
        Option.bind_some, hf.cut]

/-- RESET brings `LCK` high before it clears; where the line was low that is a latch (rule R181). -/
theorem latchScan_resetEvents {n : Nat} {p : Pins} (h : p.lck = true ∨ n = 0 ∨ n = 40) :
    latchScan n p resetEvents = some 0 := by
  rcases h with h | rfl | rfl <;>
    simp [resetEvents, clearseqEvents, latchScan, isRise, Pins.after, Pins.level, Config.rowFrameBits, *]

theorem latchScan_append_resetEvents {n m : Nat} {p : Pins} {es : List Event} (hscan : latchScan n p es = some m)
    (h : (p.afterAll es).lck = true ∨ m = 0 ∨ m = 40) : latchScan n p (es ++ resetEvents) = some 0 := by
  rw [latchScan_append, hscan, Option.bind_some, latchScan_resetEvents h]

theorem blankWhileClear_resetEvents (p : Pins) : blankWhileClear p resetEvents = true := by
  simp [resetEvents, clearseqEvents, blankWhileClear, Pins.after]

/-- RESET blanks before it clears, and what goes before it is blanked as far as it goes. -/
theorem WireSafe.cut_blanked {n m : Nat} {p : Pins} {es : List Event} (h : WireSafe n p es m) (k : Nat) :
    blankWhileClear p (es.take k ++ resetEvents) = true := by
  have hall := h.blanked
  rw [← List.take_append_drop k es, blankWhileClear_append, Bool.and_eq_true] at hall
  rw [blankWhileClear_append, hall.1, blankWhileClear_resetEvents, Bool.and_self]

/-- Without a rising edge of `SCK` the count stays 0. -/
theorem latchScan_unclocked {es : List Event} (h : .pin .sck true ∉ es) (p : Pins) : latchScan 0 p es = some 0 := by
  induction es generalizing p with
  | nil => rfl
  | cons e es ih =>
    obtain ⟨he, hes⟩ := not_or.mp (mt List.mem_cons.mpr h)
    have hsck : isRise .sck p e = false := by simp [isRise, Ne.symm he]
    rw [latchScan, hsck]
    split
    · exact ih hes _
    · split <;> exact ih hes _

theorem WireSafe.of_unclocked {es : List Event} {p : Pins} (h : .pin .sck true ∉ es)
    (hblank : blankWhileClear p es = true) : WireSafe 0 p es 0 where
  latches := latchScan_unclocked h p
  blanked := hblank
  cut _ := latchScan_append_resetEvents (latchScan_unclocked (mt List.mem_of_mem_take h) p) (.inr (.inl rfl))

theorem resetEvents_wireSafe (p : Pins) : WireSafe 0 p resetEvents 0 :=
  .of_unclocked (by decide) (blankWhileClear_resetEvents p)

theorem clearseqEvents_wireSafe (p : Pins) : WireSafe 0 p clearseqEvents 0 :=
  .of_unclocked (by decide) (by simp [clearseqEvents, blankWhileClear, Pins.after])

/-- One bit: `LCK` stays high, so RESET does not latch the unfinished row. -/
theorem bitcell_wireSafe (n : Nat) (b : Bool) {p : Pins} (h : p.restHigh) :
    WireSafe n p (bitcellEvents b) (n + 1) where
  latches := latchScan_cells n p [b]
  blanked := blankWhileClear_cells p [b] (.inl h.1)
  cut k := by
    obtain ⟨m, hscan⟩ : ∃ m, latchScan n p ((bitcellEvents b).take k) = some m := by
      rcases k with _ | _ | _ | k <;> simp [bitcellEvents, latchScan, isRise]
    have hlck : (p.afterAll ((bitcellEvents b).take k)).lck = true := by
      rcases k with _ | _ | _ | k <;> simpa [bitcellEvents, Pins.after] using h.2
    exact latchScan_append_resetEvents hscan (.inl hlck)

theorem cells_wireSafe (n : Nat) (bs : List Bool) {p : Pins} (h : p.restHigh) :
    WireSafe n p (cells bs) (n + bs.length) := by
  induction bs generalizing n p with
  | nil =>
    refine ⟨rfl, rfl, fun k => ?_⟩
    rw [cells_nil, List.take_nil]
    exact latchScan_resetEvents (.inl h.2)
  | cons b bs ih =>
    rw [cells_cons, List.length_cons, Nat.add_comm bs.length, ← Nat.add_assoc]
    exact (bitcell_wireSafe n b h).append (ih (n + 1) h)

/-- The latch pulse after the 40th bit: an `rst` between its edges latches the whole row. -/
theorem rowLatch_wireSafe {p : Pins} (h : p.restHigh) :
    WireSafe 40 p [.pin .lck false, .pin .lck true, .dwellRow] 0 where
  latches := by simp [latchScan, isRise, Pins.after, Pins.level, Config.rowFrameBits]
  blanked := by simp [blankWhileClear, Pins.after, h.1]
  cut k := by
    obtain ⟨m, hscan, hrow⟩ : ∃ m, latchScan 40 p ([.pin .lck false, .pin .lck true, .dwellRow].take k) = some m ∧
        (m = 0 ∨ m = 40) := by
      rcases k with _ | _ | _ | k <;> simp [latchScan, isRise, Pins.after, Pins.level, Config.rowFrameBits]
    exact latchScan_append_resetEvents hscan (.inr hrow)

theorem rowframe_wireSafe (c : Word) (v : Byte) {p : Pins} (h : p.restHigh) :
    WireSafe 0 p (rowframeEvents c v) 0 := by
  have hrest : (p.afterAll (cells (patternBits c ++ chunkBits v))).restHigh :=
    ⟨(cells_afterAll_clrN p _).trans h.1, (cells_afterAll_lck p _).trans h.2⟩
  have hcells : WireSafe 0 p (cells (patternBits c ++ chunkBits v)) 40 := cells_wireSafe 0 _ h
  rw [rowframeEvents_cells]
  exact hcells.append (rowLatch_wireSafe hrest)

theorem rowframes_wireSafe (w : Window) (rs : List (Fin 8)) {p : Pins} (h : p.restHigh) :
    WireSafe 0 p (rs.flatMap fun r => rowframeEvents (w.get r) (rowsel r)) 0 := by
  induction rs generalizing p with
  | nil => exact .of_unclocked List.not_mem_nil rfl
  | cons r rs ih =>
    rw [List.flatMap_cons]
    refine (rowframe_wireSafe _ _ h).append (ih ?_)
    rw [rowframe_afterAll]
    exact ⟨h.1, rfl⟩

theorem poll_wireSafe (b : Bool) {p : Pins} (h : p.restHigh) : WireSafe 0 p [.poll b] 0 :=
  .of_unclocked (by simp) (by simp [blankWhileClear, Pins.after, h.1])

theorem abort_wireSafe {p : Pins} (h : p.restHigh) : WireSafe 0 p [.poll true, .pin .oeN true] 0 :=
  .of_unclocked (by decide) (by simp [blankWhileClear, Pins.after, h.1])

theorem polledFrames_wireSafe (n : Nat) (w : Window) {p : Pins} (h : p.restHigh) :
    WireSafe 0 p (polledFrames n w) 0 := by
  induction n generalizing p with
  | zero => exact .of_unclocked List.not_mem_nil rfl
  | succ n ih =>
    have hframe : WireSafe 0 p ([.poll false] ++ frameEvents w) 0 :=
      (poll_wireSafe false h).append (rowframes_wireSafe w rows h)
    rw [polledFrames_succ]
    refine hframe.append (ih ?_)
    rw [List.singleton_append, Pins.afterAll_cons, frame_afterAll]
    exact ⟨h.1, rfl⟩

theorem TickEvents.wireSafe {frames : Nat} {es : List Event} (h : TickEvents frames es) {p : Pins} (hp : p.restHigh) :
    WireSafe 0 p es 0 := by
  cases h with
  | aborted => exact abort_wireSafe hp
  | empty => exact poll_wireSafe false hp
  | cut k w _ =>
    exact (poll_wireSafe false hp).append
      ((polledFrames_wireSafe k w hp).append (abort_wireSafe (polledFrames_restHigh k w hp)))
  | full w =>
    rw [List.append_nil]
    exact (poll_wireSafe false hp).append (polledFrames_wireSafe frames w hp)

/-! A host-driven step. -/

/-- From `s` to `t` the trace grows by events that are safe from a count of 0 to a count of 0. -/
def State.wireSafeTo (s t : State) : Prop := ∃ es, t.trace = s.trace ++ es ∧ WireSafe 0 s.pins es 0

theorem State.wireSafeTo_of_silent {s t : State} (h : t.trace = s.trace) : s.wireSafeTo t :=
  ⟨[], by rw [h, List.append_nil], .of_unclocked List.not_mem_nil rfl⟩

theorem resetOp_wireSafeTo (s : State) : s.wireSafeTo (resetOp s) :=
  ⟨_, (resetOp_follows s).trace, resetEvents_wireSafe s.pins⟩

theorem start_wireSafeTo (n : Nat) (s : State) : s.wireSafeTo (start n s) := by
  rcases start_cases n s with h | h | ⟨_, _, h⟩ <;> rw [h]
  · exact State.wireSafeTo_of_silent rfl
  · exact State.wireSafeTo_of_silent rfl
  · exact ⟨_, (startPass_follows n s).trace, clearseqEvents_wireSafe s.pins⟩

theorem tick_wireSafeTo {s : State} (h : s.pins.restHigh) : s.wireSafeTo (tick s) := by
  obtain ⟨es, hes, hev, _⟩ := tick_follows s
  rcases hev with rfl | hev
  · exact State.wireSafeTo_of_silent (hes.trace.trans (List.append_nil _))
  · exact ⟨es, hes.trace, hev.wireSafe h⟩

theorem hostAction_wireSafeTo {i : Instr} {s t : State} (hi : isHostAction i = true) (h : exec i s = .next t) :
    s.wireSafeTo t := by
  rcases hostAction_cases hi h with rfl | ⟨n, rfl⟩ | ⟨addr, v, rfl⟩
  · exact resetOp_wireSafeTo s
  · exact start_wireSafeTo n s
  · exact State.wireSafeTo_of_silent rfl

theorem stepOperation_wireSafeTo {s t : State} (hrest : s.pins.restHigh) (hd : s.hostDriven)
    (h : stepOperation s = .next t) : s.wireSafeTo t := by
  rcases stepOperation_hostDriven hd h with ⟨i, rest, hi, _, hexec⟩ | rfl | rfl
  · exact hostAction_wireSafeTo (s := { s with requests := rest }) hi hexec
  · exact tick_wireSafeTo hrest
  · exact State.wireSafeTo_of_silent rfl

theorem takeRst_trace (s : State) : (takeRst s).trace = s.trace ++ resetEvents := (resetOp_follows s).trace

/-- The trace of an operation under an `rst` due after `n` of its events (rule R183). -/
theorem cutByRst_trace (n : Nat) {s t : State} {es : List Event} (h : t.trace = s.trace ++ es) :
    (cutByRst n s t).trace = s.trace ++ es ∨ (cutByRst n s t).trace = s.trace ++ (es.take n ++ resetEvents) := by
  have hes : t.trace.drop s.trace.length = es := by rw [h, List.drop_left]
  simp only [cutByRst, hes]
  split
  · exact .inl h
  · obtain ⟨htrace, _⟩ := replay_frame (es.take n) { s with requests := t.requests }
    right
    rw [takeRst_trace, htrace, List.append_assoc]

/-- Settles O49: the events of a step are safe, whole or cut short by RESET. -/
theorem neverLatchMidShift : Obligations.NeverLatchMidShift := by
  intro s t hinv hd h
  unfold step at h
  split at h
  · obtain ⟨es, hes, hsafe⟩ := stepOperation_wireSafeTo hinv.restHigh hd h
    exact ⟨es, hes, hsafe.latches, hsafe.blanked⟩
  · cases h
    exact ⟨_, takeRst_trace s, (resetEvents_wireSafe s.pins).latches, blankWhileClear_resetEvents s.pins⟩
  · rename_i n _
    split at h
    · rename_i u hu
      cases h
      obtain ⟨es, hes, hsafe⟩ := stepOperation_wireSafeTo (s := { s with rst := none }) hinv.restHigh hd hu
      rcases cutByRst_trace (s := s) (n + 1) hes with htrace | htrace
      · exact ⟨es, htrace, hsafe.latches, hsafe.blanked⟩
      · exact ⟨_, htrace, hsafe.cut (n + 1), hsafe.cut_blanked (n + 1)⟩
    · cases h
    · cases h

/-! `DATA` is written between `SCK` low and `SCK` high (rule R89 item 1). -/

/-- A framed sequence does not begin with a `DATA` write, so none comes to stand after a clock low that goes before it. -/
theorem dataFramed_cons {e : Event} {es : List Event} (he : ∀ v, e ≠ .pin .data v) (h : dataFramed es = true) :
    dataFramed (e :: es) = true := by
  unfold dataFramed
  split
  · cases ‹_ :: _ = []›
  · cases ‹_ :: _ = _›; cases h
  · cases ‹_ :: _ = _›; exact absurd rfl (he _)
  · cases ‹_ :: _ = _›; exact h

/-- Two framed sequences stay framed one after the other: a bit cell never lies across the join. -/
theorem dataFramed_append {es fs : List Event} (h : dataFramed es = true) (hf : dataFramed fs = true) :
    dataFramed (es ++ fs) = true := by
  fun_induction dataFramed es with
  | case1 => exact hf
  | case2 b es ih => exact ih h
  | case3 => cases h
  | case4 e es _ hdata ih => exact dataFramed_cons hdata (ih h)

theorem dataFramed_cells (bs : List Bool) : dataFramed (cells bs) = true := by
  induction bs with
  | nil => rfl
  | cons b bs ih => exact ih

theorem dataFramed_rowframeEvents (c : Word) (v : Byte) : dataFramed (rowframeEvents c v) = true := by
  rw [rowframeEvents_cells]
  exact dataFramed_append (dataFramed_cells _) rfl

theorem dataFramed_frameEvents (w : Window) : dataFramed (frameEvents w) = true := by
  rw [frameEvents]
  induction rows with
  | nil => rfl
  | cons r rs ih => exact dataFramed_append (dataFramed_rowframeEvents _ _) ih

theorem dataFramed_polledFrames (n : Nat) (w : Window) : dataFramed (polledFrames n w) = true := by
  induction n with
  | zero => rfl
  | succ n ih =>
    rw [polledFrames_succ]
    have hframe : dataFramed (.poll false :: frameEvents w) = true := dataFramed_cons nofun (dataFramed_frameEvents w)
    exact dataFramed_append hframe ih

theorem TickEvents.dataFramed {frames : Nat} {es : List Event} (h : TickEvents frames es) :
    dataFramed es = true := by
  cases h with
  | aborted => rfl
  | empty => rfl
  | cut k w _ => exact dataFramed_cons nofun (dataFramed_append (dataFramed_polledFrames k w) rfl)
  | full w => exact dataFramed_cons nofun (dataFramed_append (dataFramed_polledFrames frames w) rfl)

/-- From `s` to `t` the trace grows by events in which every bit is framed. -/
def State.framedTo (s t : State) : Prop := ∃ es, t.trace = s.trace ++ es ∧ dataFramed es = true

theorem State.framedTo.refl (s : State) : s.framedTo s := ⟨[], (List.append_nil _).symm, rfl⟩

theorem State.framedTo.trans {s t u : State} (h : s.framedTo t) (k : t.framedTo u) : s.framedTo u := by
  obtain ⟨es, hes, hframed⟩ := h
  obtain ⟨fs, hfs, kframed⟩ := k
  exact ⟨es ++ fs, by rw [hfs, hes, List.append_assoc], dataFramed_append hframed kframed⟩

theorem start_framedTo (n : Nat) (s : State) : s.framedTo (start n s) := by
  rcases start_cases n s with h | h | ⟨_, _, h⟩ <;> rw [h]
  · exact .refl s
  · exact State.framedTo.refl s
  · exact ⟨_, (startPass_follows n s).trace, rfl⟩

theorem tick_framedTo (s : State) : s.framedTo (tick s) := by
  obtain ⟨es, hes, hev, _⟩ := tick_follows s
  rcases hev with rfl | hev
  · exact ⟨[], hes.trace, rfl⟩
  · exact ⟨es, hes.trace, hev.dataFramed⟩

theorem tickUntilDone_framedTo (fuel : Nat) (s : State) : s.framedTo (tickUntilDone fuel s) := by
  induction fuel generalizing s with
  | zero => exact .refl s
  | succ fuel ih =>
    rw [tickUntilDone]
    split
    · exact .refl s
    · exact (tick_framedTo s).trans (ih (tick s))

theorem dwellScan_framedTo (s : State) : s.framedTo (dwellScan s).2 := by
  rw [dwellScan]
  rcases dwellFrames_cases s.params.framesPerTick s with h | ⟨k, _, h⟩ <;> rw [h]
  · exact ⟨_, s.polled_trace _ _, dataFramed_polledFrames _ _⟩
  · exact ⟨_, s.polled_trace _ (k + 1), dataFramed_append (dataFramed_polledFrames _ _) rfl⟩

/-- RUN_PASS that ends is START and its ticks (rule R132). -/
theorem exec_runPass_next {n : Nat} {s t : State} (h : exec (.runPass n) s = .next t) :
    t = tickUntilDone (passFuel (start n s)) (start n s) := by
  simp only [exec, execRunPass] at h
  split at h
  · cases h
  · split at h
    · cases h; rfl
    · cases h

/-- TICK that does not fault (rule R122). -/
theorem exec_tick_next {s t : State} (h : exec .tick s = .next t) : t = tick s := by
  rw [exec, execTick] at h
  split at h
  · cases h
  · cases h; rfl

/-- Settles O48: every event list is built of bit cells and of events that do not write `DATA`. -/
theorem dataStableAtClockEdge : Obligations.DataStableAtClockEdge := by
  intro s t n
  simp only [List.forall_mem_cons]
  refine ⟨fun h => ?_, fun h => ?_, fun h => ?_, fun h => ?_, fun h => ?_, nofun⟩
  · cases h; exact start_framedTo n s
  · rw [exec_tick_next h]; exact tick_framedTo s
  · rw [exec_runPass_next h]; exact (start_framedTo n s).trans (tickUntilDone_framedTo _ _)
  · rw [← Host.Outcome.next.inj h, scanFrame_eq]
    exact ⟨_, s.emit_trace _, dataFramed_frameEvents s.window⟩
  · cases h; exact dwellScan_framedTo s

/-! What the bus and scanner operations and the wire formats leave unchanged (rules R80, R110 to R112). -/

/-- The operations of 40_bus_driver.md and 42_scanner.md and the wire formats of 30_encoding.md. -/
def wireInstrs (l : Line) (b : Bool) (v : Byte) (p : Word) (q n row : Nat) : List Instr :=
  [.pinWrite l b, .emitBit b, .shiftOut8 v, .emitColumns q n, .emitRowscan v, .latch, .setOe b, .clearRegs, .scanRow row,
    .scanFrame, .chunk v, .colfield p, .rowframe p v, .bitcell b, .latchpulse, .frame, .clearseq, .rowsel0, .rowsel1,
    .rowsel2, .rowsel3, .rowsel4, .rowsel5, .rowsel6, .rowsel7]

/-- Each of them puts a sequence of events on the lines. -/
theorem wireInstrs_emit (s : State) (l : Line) (b : Bool) (v : Byte) (p : Word) (q : Nat) {n row : Nat} (hn : 1 ≤ n)
    (hrow : row < 8) : ∀ i ∈ wireInstrs l b v p q n row, ∃ es, exec i s = .next (s.emit es) := by
  have hbyte := exec_eq_emit_chunkEvents v s
  simp only [wireInstrs, List.forall_mem_cons] at hbyte ⊢
  obtain ⟨hshift, hrowscan, hchunk, _⟩ := hbyte
  exact ⟨⟨[.pin l b], rfl⟩, ⟨bitcellEvents b, rfl⟩, ⟨_, hshift⟩, ⟨_, exec_emitColumns q s hn⟩, ⟨_, hrowscan⟩,
    ⟨latchpulseEvents, rfl⟩, ⟨[.pin .oeN b], rfl⟩, ⟨clearseqEvents, rfl⟩, ⟨_, exec_scanRow ⟨row, hrow⟩ s⟩,
    ⟨_, congrArg Host.Outcome.next (scanFrame_eq s)⟩, ⟨_, hchunk⟩, ⟨_, rfl⟩, ⟨_, rfl⟩, ⟨_, rfl⟩, ⟨_, rfl⟩, ⟨_, rfl⟩,
    ⟨_, rfl⟩, ⟨_, rfl⟩, ⟨_, rfl⟩, ⟨_, rfl⟩, ⟨_, rfl⟩, ⟨_, rfl⟩, ⟨_, rfl⟩, ⟨_, rfl⟩, ⟨_, rfl⟩, nofun⟩

theorem State.emit_sameEngine (s : State) (es : List Event) : s.sameEngine (s.emit es) := by
  simp [State.sameEngine]

theorem State.emit_sameMemory (s : State) (es : List Event) : s.sameMemory (s.emit es) := by
  simp [State.sameMemory]

theorem State.emit_sameInputs (s : State) (es : List Event) : s.sameInputs (s.emit es) := by
  simp [State.sameInputs]

/-- Settles O11: emitting events moves the lines, the panel and the trace only. -/
theorem wireOperationsFrame : Obligations.WireOperationsFrame := by
  intro s l b v p q n row hn hrow i hi
  obtain ⟨es, hes⟩ := wireInstrs_emit s l b v p q hn hrow i hi
  exact ⟨_, es, hes, s.emit_window es, s.emit_sameEngine es, s.emit_sameMemory es, s.emit_sameInputs es, s.emit_result es,
    s.emit_trace es, s.emit_afterAll es, s.emit_panel es⟩

/-! One line (rules R81, R87). -/

theorem Pins.level_after_pin (p : Pins) (l l' : Line) (v : Bool) :
    (p.after (.pin l v)).level l' = if l' = l then v else p.level l' := by
  cases l <;> cases l' <;> rfl

/-- Settles O1: PIN_WRITE emits one event, which moves its own line only. -/
theorem pinWriteDrivesOneLine : Obligations.PinWriteDrivesOneLine := by
  intro l v s
  refine ⟨s.emit [.pin l v], rfl, ?_, fun l' hl => ?_, rfl, rfl, s.emit_sameEngine _, s.emit_sameMemory _,
    s.emit_sameInputs _, rfl⟩
  · exact (s.pins.level_after_pin l l v).trans (if_pos rfl)
  · exact (s.pins.level_after_pin l l' v).trans (if_neg hl)

theorem lit_of_blanked {s : State} (h : s.pins.oeN = true) (r : Fin 8) (c : Fin 32) : s.lit r c = false := by
  simp [State.lit, h]

/-- Settles O6: the panel's registers do not follow `OE_n`, and with it high nothing is lit. -/
theorem setOeBlanks : Obligations.SetOeBlanks := fun level s =>
  ⟨s.emit [.pin .oeN level], rfl, rfl, rfl, s.emit_panel _, fun h => lit_of_blanked h⟩

end Sys2Proof.Machine

/-! The window buffer (rules R100 to R106): what each of its operations leaves in the window, what it leaves alone, a
window row on the wire, and the calls outside the operand ranges (rule R159). -/

namespace Sys2Proof.Machine

/-! What a write of the window leaves alone (rule R12). -/

theorem State.setWindow_sameEngine (s : State) (w : Window) : s.sameEngine (s.setWindow w) :=
  ⟨rfl, rfl, rfl, rfl, rfl, rfl⟩

theorem State.setWindow_sameMemory (s : State) (w : Window) : s.sameMemory (s.setWindow w) := fun _ => rfl

theorem State.setWindow_sameInputs (s : State) (w : Window) : s.sameInputs (s.setWindow w) :=
  ⟨rfl, rfl, rfl, rfl, rfl⟩

theorem State.setWindow_sameWire (s : State) (w : Window) : s.sameWire (s.setWindow w) := ⟨rfl, rfl, rfl⟩

/-! WIN_CLEAR (rule R101). -/

theorem winClear_pixel (s : State) (r : Fin 8) (c : Fin 32) : (winClear s).pixel r c = false := by
  rw [State.pixel, Window.pixel, winClear_get]
  exact pixelOf_zero c

theorem winClear_winClear (s : State) : winClear (winClear s) = winClear s := rfl

/-- Settles O12: every row is 0, whatever it was, so clearing again finds the same window. -/
theorem winClearZeroes : Obligations.WinClearZeroes := fun s =>
  ⟨winClear s, rfl, winClear_get s, winClear_pixel s, congrArg Host.Outcome.next (winClear_winClear s),
    s.setWindow_sameEngine _, s.setWindow_sameMemory _, s.setWindow_sameInputs _, s.setWindow_sameWire _, rfl⟩

/-! WIN_SET_PIXEL (rule R102). -/

theorem exec_winSetPixel (s : State) {row col : Nat} (v : Bool) (hr : row < 8) (hc : col < 32) :
    exec (.winSetPixel row col v) s = .next (winSetPixel ⟨row, hr⟩ ⟨col, hc⟩ v s) := by
  rw [exec, execWinSetPixel, rowOperand_lt hr, colOperand_lt hc]

/-- Settles O13: one bit of one row is replaced. -/
theorem setPixelThenGet : Obligations.SetPixelThenGet := fun s _ _ v hr hc =>
  ⟨_, exec_winSetPixel s v hr hc, fun r c => winSetPixel_pixel s _ r _ c v, s.setWindow_sameEngine _,
    s.setWindow_sameMemory _, s.setWindow_sameInputs _, s.setWindow_sameWire _, rfl⟩

/-! WIN_SHIFT_LEFT (rules R11, R103). -/

theorem winShiftLeft_pixel (s : State) (n : Nat) (r : Fin 8) (c : Fin 32) :
    (winShiftLeft n s).pixel r c = if h : c.val + n < 32 then s.pixel r ⟨c.val + n, h⟩ else false := by
  rw [State.pixel, Window.pixel, winShiftLeft_get, pixelOf_shiftedLeft]
  rfl

/-- A shift by the width of a row or more leaves nothing of it. -/
theorem winShiftLeft_get_of_width_le (s : State) {n : Nat} (h : 32 ≤ n) (r : Fin 8) :
    (winShiftLeft n s).window.get r = 0 := by
  rw [winShiftLeft_get]
  exact BitVec.shiftLeft_eq_zero h

theorem winShiftLeft_winShiftLeft (s : State) (n m : Nat) :
    winShiftLeft m (winShiftLeft n s) = winShiftLeft (n + m) s := by
  have hwindow : (winShiftLeft m (winShiftLeft n s)).window = (winShiftLeft (n + m) s).window := by
    apply Window.ext_get
    intro r
    simp only [winShiftLeft_get]
    exact (BitVec.shiftLeft_add _ n m).symm
  exact congrArg s.setWindow hwindow

/-- Settles O14: every row is shifted by the same amount, and a row's shifts add up. -/
theorem shiftLeftMovesColumns : Obligations.ShiftLeftMovesColumns := fun s n =>
  ⟨winShiftLeft n s, rfl, winShiftLeft_pixel s n, winShiftLeft_get_of_width_le s,
    fun m => congrArg Host.Outcome.next (winShiftLeft_winShiftLeft s n m), s.setWindow_sameEngine _,
    s.setWindow_sameMemory _, s.setWindow_sameInputs _, s.setWindow_sameWire _, rfl⟩

/-! WIN_READ_ROW and WIN_GET_PIXEL (rules R104, R105). -/

theorem exec_winReadRow (s : State) {row : Nat} (hr : row < 8) :
    exec (.winReadRow row) s = .next (s.setResult (.row (s.window.get ⟨row, hr⟩))) := by
  rw [exec, execWinReadRow, rowOperand_lt hr]
  rfl

theorem exec_winGetPixel (s : State) {row col : Nat} (hr : row < 8) (hc : col < 32) :
    exec (.winGetPixel row col) s = .next (s.setResult (.bit (s.pixel ⟨row, hr⟩ ⟨col, hc⟩))) := by
  rw [exec, execWinGetPixel, rowOperand_lt hr, colOperand_lt hc]
  rfl

/-- Settles O15: window column `col` is bit `31 - col` of the row read. -/
theorem windowReadsReturn : Obligations.WindowReadsReturn := fun s _ _ hr hc =>
  ⟨exec_winReadRow s hr, exec_winGetPixel s hr hc⟩

/-! SCAN_ROW (rules R106, R111). -/

/-- A row frame clocks its forty bits; the latch pulse and the dwell clock none. -/
theorem clockedBits_rowframeEvents (p : Pins) (c : Word) (v : Byte) :
    clockedBits p (rowframeEvents c v) = patternBits c ++ chunkBits v := by
  rw [rowframeEvents_cells, clockedBits_append, clockedBits_cells]
  exact List.append_nil _

theorem getElem?_patternBits (v : Word) (c : Fin 32) : (patternBits v)[c.val]? = some (pixelOf v c) := by
  simp [patternBits_eq]

/-- Settles O19: the pattern of the row goes out first, in the order of the window's columns. -/
theorem pixelRoundTripsToTheWire : Obligations.PixelRoundTripsToTheWire := by
  intro s row hr
  refine ⟨_, _, exec_scanRow ⟨row, hr⟩ s, s.emit_trace _, fun c => ?_⟩
  have hcol : c.val < (patternBits (s.window.get ⟨row, hr⟩)).length := c.isLt
  rw [clockedBits_rowframeEvents, List.getElem?_append_left hcol, getElem?_patternBits]
  rfl

/-! Calls outside the operand ranges (rules R124, R159). -/

theorem exec_emitColumns_zero (s : State) (p : Nat) : exec (.emitColumns p 0) s = .refused .operandRange := by
  rw [exec, execEmitColumns, if_pos rfl]

/-- WIN_SET_PIXEL and WIN_GET_PIXEL check their operands alike. -/
theorem exec_winPixel_outOfRange (s : State) {row col : Nat} (v : Bool) (h : 8 ≤ row ∨ 32 ≤ col) :
    exec (.winSetPixel row col v) s = .refused .operandRange ∧
      exec (.winGetPixel row col) s = .refused .operandRange := by
  rw [exec, exec, execWinSetPixel, execWinGetPixel]
  rcases h with hrow | hcol
  · rw [rowOperand_ge hrow]
    exact ⟨rfl, rfl⟩
  · rw [colOperand_ge hcol]
    cases rowOperand row <;> exact ⟨rfl, rfl⟩

theorem exec_rowRead_outOfRange (s : State) {row : Nat} (h : 8 ≤ row) :
    exec (.winReadRow row) s = .refused .operandRange ∧ exec (.scanRow row) s = .refused .operandRange := by
  rw [exec, exec, execWinReadRow, execScanRow, rowOperand_ge h]
  exact ⟨rfl, rfl⟩

theorem exec_glyphBit_outOfRange (s : State) (i : Nat) {r c : Nat} (h : 8 ≤ r ∨ 8 ≤ c) :
    exec (.glyphBit i r c) s = .refused .operandRange := by
  rw [exec, execGlyphBit]
  rcases h with hr | hc
  · rw [rowOperand_ge hr]
  · rw [glyphColOperand_ge hc]
    cases rowOperand r <;> rfl

theorem exec_glyphBit_beyondLength (s : State) {i r c : Nat} (hr : r < 8) (hc : c < 8) (h : s.bufLen ≤ i) :
    exec (.glyphBit i r c) s = .refused .glyphBeyondLength := by
  rw [exec_glyphBit s i hr hc, if_pos h]

/-- Settles O17: each call checks its operands before it does anything else. -/
theorem outOfRangeCallsRefused : Obligations.OutOfRangeCallsRefused := fun s _ _ i _ _ v =>
  ⟨exec_emitColumns_zero s _, exec_winPixel_outOfRange s v, exec_rowRead_outOfRange s, exec_glyphBit_outOfRange s i,
    exec_glyphBit_beyondLength s⟩

end Sys2Proof.Machine

/-! The scanner (rules R111 to R113): a row and a frame on the wire, and what the panel latches of them. -/

namespace Sys2Proof.Machine

/-! The row-select byte (rule R64). -/

theorem rowsel_toNat (r : Fin 8) : (rowsel r).toNat = 128 / 2 ^ r.val := by
  revert r; decide

theorem rowsel_getLsbD_zero (r : Fin 8) : (rowsel r).getLsbD 0 = decide (r.val = 7) := by
  revert r; decide

/-! SCAN_ROW (rule R111). -/

/-- Settles O18: SCAN_ROW is the row frame of its row's pattern, whose last bit is that of the row-select byte. -/
theorem scanRowSendsRowFrame : Obligations.ScanRowSendsRowFrame := by
  intro s row hr
  obtain ⟨t, es, hframe, htrace, hlen, hbits, hlck, hpins, hdwell, _⟩ :=
    rowFrameLayout (s.window.get ⟨row, hr⟩) (rowsel ⟨row, hr⟩) s
  have hscan : exec (.scanRow row) s = .next t := (exec_scanRow ⟨row, hr⟩ s).trans hframe
  obtain rfl : s.emit (rowframeEvents (s.window.get ⟨row, hr⟩) (rowsel ⟨row, hr⟩)) = t := Host.Outcome.next.inj hframe
  refine ⟨_, es, hscan, htrace, hlen, ?_, hlck, hpins, hdwell, s.emit_window _, ?_⟩
  · rw [hbits, rowsel_toNat]
  · rw [State.emit_afterAll, rowframe_afterAll, rowsel_getLsbD_zero]

/-! SCAN_FRAME (rules R112, R113). -/

theorem exec_eq_emit_frameEvents (s : State) :
    ∀ i ∈ [Instr.scanFrame, Instr.frame], exec i s = .next (s.emit (frameEvents s.window)) := by
  simp only [List.forall_mem_cons]
  exact ⟨congrArg Host.Outcome.next (scanFrame_eq s), rfl, nofun⟩

/-- Settles O21: eight row frames, each of 122 line writes, one dwell, 40 bits and one latch pulse. -/
theorem scanFrameCounts : Obligations.ScanFrameCounts := by
  intro s i hi
  obtain ⟨hpins, hdwells, hpolls, hsck, hlck⟩ := rowframes_counts s.window s.pins rows
  exact ⟨_, frameEvents s.window, exec_eq_emit_frameEvents s i hi, s.emit_trace _, hpins, hdwells, hpolls, hsck, hlck,
    s.emit_window _, (s.emit_afterAll _).trans (frame_afterAll s.window s.pins)⟩

/-- With `CLR_n` high a list of row frames latches each row's pattern with its row-select byte, in order. -/
theorem rowframes_latched (w : Window) (rs : List (Fin 8)) (q : Panel) {p : Pins} (h : p.clrN = true) :
    latchedValues q p (rs.flatMap fun r => rowframeEvents (w.get r) (rowsel r)) = rs.map fun r => w.get r ++ rowsel r := by
  induction rs generalizing q p with
  | nil => rfl
  | cons r rs ih =>
    have hclr : (p.afterAll (rowframeEvents (w.get r) (rowsel r))).clrN = true := by rw [rowframe_afterAll, h]
    rw [List.flatMap_cons, latchedValues_append, rowframe_latched q p _ _ h, ih _ hclr]
    rfl

/-- A latched row as a number: `W[r] * 256 + (0x80 >> r)` (rule R65). -/
theorem append_rowsel_toNat (c : Word) (r : Fin 8) : (c ++ rowsel r).toNat = c.toNat * 256 + 128 / 2 ^ r.val := by
  rw [BitVec.toNat_append, ← Nat.shiftLeft_add_eq_or_of_lt (rowsel r).isLt, Nat.shiftLeft_eq, rowsel_toNat]

/-- Settles O22: the frame's eight row frames latch their rows one after the other. -/
theorem frameLatchesEachRowOnce : Obligations.FrameLatchesEachRowOnce := by
  intro s hclr
  refine ⟨_, frameEvents s.window, exec_eq_emit_frameEvents s _ (by simp), s.emit_trace _, ?_⟩
  rw [frameEvents, rowframes_latched s.window rows s.panel hclr, List.map_map]
  exact List.map_congr_left fun r _ => append_rowsel_toNat (s.window.get r) r

end Sys2Proof.Machine

/-! The scroll engine's operations (rules R120 to R131, R151): the exceptions, FILL_WINDOW, the dwell, the cursor and
one tick of a pass. -/

namespace Sys2Proof.Machine

/-! START and the two exceptions (rules R121, R131, R151). -/

theorem start_ignored (n : Nat) {s : State} (hp : s.phase ≠ .done) : start n s = s := by
  rw [start, if_pos hp]

theorem start_aboveCapacity {n : Nat} {s : State} (hp : s.phase = .done) (hn : s.params.maxGlyphs < n) :
    start n s = { s with overflow := true } := by
  rw [start, if_neg (not_not.mpr hp), if_pos]
  · rfl
  · simpa [exceedsCapacity] using hn

theorem tickUntilDone_of_done (fuel : Nat) {s : State} (hp : s.phase = .done) : tickUntilDone fuel s = s := by
  cases fuel with
  | zero => rfl
  | succ fuel => rw [tickUntilDone, if_pos hp]

/-- With `bufLen` in its legal range no glyph of FILLING lies outside the memory (rules R26, R40). -/
theorem glyphs_inMemory {s : State} (h : s.phase = .filling → s.bufLen ≤ s.params.maxGlyphs) :
    ¬ (s.phase = .filling ∧ s.glyphsExist = false) := by
  rintro ⟨hp, hno⟩
  simp [State.glyphsExist, h hp] at hno

/-- RUN_PASS answers the end of its loop where the glyphs exist and the loop reaches DONE (rule R132). -/
theorem exec_runPass_of_done {n : Nat} {s : State}
    (hc : (start n s).phase = .filling → (start n s).bufLen ≤ (start n s).params.maxGlyphs)
    (hdone : (tickUntilDone (passFuel (start n s)) (start n s)).phase = .done) :
    exec (.runPass n) s = .next (tickUntilDone (passFuel (start n s)) (start n s)) := by
  simp only [exec, execRunPass, if_neg (glyphs_inMemory hc), if_pos hdone]

/-- Settles O25: START raises the exception and stays in DONE, where the loop of RUN_PASS has nothing to do. -/
theorem bufferOverflowSetsOneFlag : Obligations.BufferOverflowSetsOneFlag := by
  intro s n
  refine ⟨rfl, fun hp hn => ?_⟩
  have hstart := start_aboveCapacity hp hn
  have hdone : (start n s).phase = .done := by rw [hstart]; exact hp
  refine ⟨congrArg Host.Outcome.next hstart, ?_⟩
  rw [exec_runPass_of_done (by simp [hdone]) (by rw [tickUntilDone_of_done _ hdone]; exact hdone),
    tickUntilDone_of_done _ hdone, hstart]

/-- Settles O26: START looks at the phase first. -/
theorem startIgnoredDuringPass : Obligations.StartIgnoredDuringPass := fun _ n hp =>
  congrArg Host.Outcome.next (start_ignored n hp)

/-- Settles O33: ABORT is one event and one register write, and the panel does not follow `OE_n`. -/
theorem abortBlanksAndEnds : Obligations.AbortBlanksAndEnds := fun _ => rfl

/-! FILL_WINDOW (rules R125, R134 a). -/

/-- Settles O28: FILL_WINDOW is a write of the window, and the window it writes shows the stream. -/
theorem fillWindowShowsTheStream : Obligations.FillWindowShowsTheStream := by
  intro s hc _ _
  have hexec : exec .fillWindow s = .next (fillWindow s) := if_pos (decide_eq_true hc)
  refine ⟨_, hexec, fillWindow_pixel s, ?_⟩
  rw [fillWindow_eq]
  exact ⟨s.setWindow_sameEngine _, s.setWindow_sameMemory _, s.setWindow_sameInputs _, s.setWindow_sameWire _, rfl⟩

/-! DWELL_SCAN (rule R129). -/

theorem dwellScan_quiet {s : State} (h : s.quietFor s.params.framesPerTick) :
    dwellScan s = (.completed, s.polled (polledFrames s.params.framesPerTick s.window) s.params.framesPerTick) :=
  dwellFrames_quiet _ s h

theorem exec_dwellScan {s t : State} {d : Dwell} (h : dwellScan s = (d, t)) :
    exec .dwellScan s = .next (t.setResult (.dwell d)) := by
  rw [exec, execDwellScan, h]

/-- Settles O34: the quiet dwell is its polled frames and nothing else. -/
theorem dwellCompletes : Obligations.DwellCompletes := by
  intro s h
  refine ⟨_, exec_dwellScan (dwellScan_quiet h), rfl, s.emit_trace _, ?_, s.emit_sameEngine _, s.emit_sameMemory _,
    rfl, ?_, ?_, ?_⟩ <;> simp

/-! ADVANCE_CURSOR (rule R130). -/

theorem advanceCursor_startGlyph (s : State) : (advanceCursor s).startGlyph = (advanceStart s).startGlyph := by
  rw [advanceCursor_eq]; split <;> rfl

theorem advanceCursor_startOffset (s : State) : (advanceCursor s).startOffset = s.startOffset + 1 := by
  rw [advanceCursor_eq]; split <;> rfl

theorem advanceCursor_phase (s : State) :
    (advanceCursor s).phase = if (advanceCursor s).startGlyph = s.bufLen then .draining else s.phase := by
  rw [advanceCursor_startGlyph, advanceCursor_eq]; split <;> rfl

theorem advanceCursor_position {s : State} (hc : s.bufLen ≤ s.params.maxGlyphs) (hg : s.startGlyph < s.bufLen) :
    (advanceCursor s).startPosition = s.startPosition + 1 := by
  obtain ⟨hpos, _⟩ := advanceStart_position hc hg
  rw [← hpos, State.startPosition, State.startPosition, advanceCursor_startGlyph, advanceCursor_startOffset]
  rfl

/-- The advanced cursor stands inside the buffer or at its end, and at the end with offset 0 (rule R29 items 1, 4). -/
theorem advanceCursor_inside {s : State} (hc : s.bufLen ≤ s.params.maxGlyphs) (hg : s.startGlyph < s.bufLen) :
    (advanceCursor s).startGlyph ≤ s.bufLen ∧
      ((advanceCursor s).startGlyph = s.bufLen → (advanceCursor s).startOffset = 0) := by
  obtain ⟨_, _, hle, hzero⟩ := advanceStart_position hc hg
  rw [advanceCursor_startGlyph, advanceCursor_startOffset]
  exact ⟨hle, hzero⟩

/-- Settles O36: the phase follows the advanced cursor, and the rest is the frame of two register writes. -/
theorem advanceCursorByOne : Obligations.AdvanceCursorByOne := by
  intro s hc hg
  obtain ⟨hle, hzero⟩ := advanceCursor_inside hc hg
  have hphase := advanceCursor_phase s
  refine ⟨_, rfl, advanceCursor_position hc hg, advanceCursor_startOffset s, fun hend => ?_, fun hend => ?_, ?_⟩
  · exact ⟨hphase.trans (if_pos hend), hzero hend⟩
  · exact ⟨hphase.trans (if_neg hend), Nat.lt_of_le_of_ne hle hend⟩
  · obtain ⟨g, o, p, e⟩ := advanceCursor_frame s
    rw [e]
    exact ⟨rfl, rfl, rfl, rfl, fun _ => rfl, ⟨rfl, rfl, rfl, rfl, rfl⟩, ⟨rfl, rfl, rfl⟩, rfl⟩

/-! TICK (rule R122). -/

theorem exec_tick {s : State} (h : s.phase = .filling → s.bufLen ≤ s.params.maxGlyphs) :
    exec .tick s = .next (tick s) := if_neg (glyphs_inMemory h)

theorem exec_tickFill {s : State} (h : s.bufLen ≤ s.params.maxGlyphs) : exec .tickFill s = .next (tickFill s) :=
  if_pos (decide_eq_true h)

theorem tick_filling {s : State} (hp : s.phase = .filling) : tick s = tickFill s := by rw [tick, hp]

theorem tick_draining {s : State} (hp : s.phase = .draining) : tick s = tickDrain s := by rw [tick, hp]

theorem tick_done {s : State} (hp : s.phase = .done) : tick s = s := by rw [tick, hp]

/-- Settles O37: TICK calls the operation of its phase. -/
theorem tickFollowsPhase : Obligations.TickFollowsPhase := by
  intro s hc
  refine ⟨_, exec_tick fun _ => hc, fun hp => ?_, fun hp => ?_, tick_done⟩
  · rw [tick_filling hp]; exact exec_tickFill hc
  · rw [tick_draining hp]; rfl

/-- A tick abandoned at its first poll is the same in both phases of a pass (rule R131). -/
theorem tick_abort {s : State} (hp : s.phase ≠ .done) (h : s.nextAnswer = true) :
    tick s = (s.polled [.poll true, .pin .oeN true] 1).setPhase .done := by
  cases hphase : s.phase with
  | filling => rw [tick_filling hphase, tickFill_abort s h]
  | draining => rw [tick_draining hphase, tickDrain_abort s h]
  | done => exact absurd hphase hp

/-- Settles O32: the poll comes before anything else that a tick does. -/
theorem abortAtTickStart : Obligations.AbortAtTickStart := by
  intro s rest hp hc h
  have htick := tick_abort hp (State.nextAnswer_cons h)
  refine ⟨_, exec_tick fun _ => hc, ?_⟩
  rw [htick]
  exact ⟨rfl, rfl, rfl, rfl, rfl, rfl, rfl, s.polled_trace _ 1, rfl, fun _ => rfl, lit_of_blanked rfl⟩

/-- Settles O30: FILLING with an empty buffer takes the shortcut after its poll. -/
theorem emptyBufferEndsInOneTick : Obligations.EmptyBufferEndsInOneTick := by
  intro s hp h0 h
  have hanswer : s.nextAnswer = false := by
    cases ha : s.pollAnswers with
    | nil => simp [State.quietFor, ha] at h
    | cons b rest => rw [State.nextAnswer_cons ha]; simpa [State.quietFor, ha] using h
  refine ⟨_, exec_tick fun _ => h0 ▸ Nat.zero_le _, ?_⟩
  rw [tick_filling hp, tickFill_empty s hanswer h0]
  exact ⟨rfl, Window.get_zero, rfl, rfl, rfl, rfl, rfl, rfl, rfl, rfl, fun _ => rfl, rfl⟩

/-! A tick whose polls are all answered 0 (rules R126 to R129). -/

/-- What a tick with every poll answered 0 does whatever its phase: it scans its frames of the window it leaves, each
after a poll, and moves neither the buffer nor the inputs other than the answers. -/
structure State.QuietTick (s t : State) : Prop where
  trace : t.trace = s.trace ++ .poll false :: polledFrames s.params.framesPerTick t.window
  answers : t.pollAnswers = s.pollAnswers.drop (1 + s.params.framesPerTick)
  bufLen : t.bufLen = s.bufLen
  overflow : t.overflow = s.overflow
  memory : s.sameMemory t
  params : t.params = s.params
  rst : t.rst = s.rst
  requests : t.requests = s.requests
  result : t.result = s.result

/-- A window written, then a poll and the frames of a dwell. -/
theorem State.QuietTick.dwell (s : State) (w : Window) :
    s.QuietTick ((s.setWindow w).polled (.poll false :: (polledFrames s.params.framesPerTick w ++ []))
      (s.params.framesPerTick + 1)) := by
  constructor <;> simp [State.polled_trace, State.sameMemory, Nat.add_comm]

theorem State.QuietTick.advanceCursor {s t : State} (h : s.QuietTick t) : s.QuietTick (advanceCursor t) := by
  obtain ⟨g, o, p, e⟩ := advanceCursor_frame t
  rw [e]
  exact ⟨h.trace, h.answers, h.bufLen, h.overflow, h.memory, h.params, h.rst, h.requests, h.result⟩

theorem State.QuietTick.drainStep {s t : State} (h : s.QuietTick t) : s.QuietTick (drainStep t) := by
  rw [Machine.drainStep]
  split <;> exact ⟨h.trace, h.answers, h.bufLen, h.overflow, h.memory, h.params, h.rst, h.requests, h.result⟩

/-- A FILLING tick with every poll answered 0 and its start cursor inside the buffer (rules R126, R130, R134 a). -/
structure State.FillsTo (s t : State) : Prop where
  quiet : s.QuietTick t
  shows : ∀ r (c : Fin 32), t.pixel r c = s.streamPixel r (s.startPosition + c.val)
  position : t.startPosition = s.startPosition + 1
  offset : t.startOffset = s.startOffset + 1
  phase : t.phase = if t.startGlyph = s.bufLen then .draining else .filling
  shiftCount : t.shiftCount = s.shiftCount

theorem filled_shows (s : State) (k n : Nat) (es : List Event) (r : Fin 8) (c : Fin 32) :
    (s.filled k es n).pixel r c = s.streamPixel r (s.startPosition + c.val) := by
  rw [State.pixel, State.filled, State.polled_window]
  exact fillWindow_pixel s r c

theorem tickFill_fillsTo {s : State} (hc : s.bufLen ≤ s.params.maxGlyphs) (hp : s.phase = .filling)
    (hg : s.startGlyph < s.bufLen) (h : s.quietFor (1 + s.params.framesPerTick)) : s.FillsTo (tickFill s) := by
  rw [tickFill_quiet s (Nat.ne_of_gt (Nat.zero_lt_of_lt hg)) h]
  obtain ⟨g, o, p, e⟩ := advanceCursor_frame (s.filled s.params.framesPerTick [] (s.params.framesPerTick + 1))
  constructor
  case quiet => exact (State.QuietTick.dwell s (fillWindow s).window).advanceCursor
  case shows => intro r c; rw [e]; exact filled_shows s _ (s.params.framesPerTick + 1) [] r c
  case position =>
    rw [advanceCursor_position (by simpa [State.filled] using hc) (by simpa [State.filled] using hg)]
    simp [State.startPosition, State.filled]
  case offset => rw [advanceCursor_startOffset]; simp [State.filled]
  case phase => rw [advanceCursor_phase]; simp [State.filled, hp]
  case shiftCount => rw [e]; simp [State.filled]

/-- Settles O29: with glyphs in the buffer the quiet FILLING tick fills, dwells and advances. -/
theorem fillingTick : Obligations.FillingTick := by
  intro s hc hp hg h
  have ht := tickFill_fillsTo hc hp hg h
  exact ⟨_, exec_tickFill hc, ht.shows, ht.position, ht.offset, ht.phase, ht.shiftCount, ht.quiet.bufLen,
    ht.quiet.overflow, ht.quiet.trace, ht.quiet.answers, ht.quiet.memory, ht.quiet.params, ht.quiet.rst,
    ht.quiet.requests, ht.quiet.result⟩

theorem drainStep_of_width_le {s : State} (h : 32 ≤ s.shiftCount.toNat) : drainStep s = s.setPhase .done :=
  if_pos (decide_eq_true h)

theorem drainStep_of_lt_width {s : State} (h : s.shiftCount.toNat < 32) :
    drainStep s = s.setShiftCount (s.shiftCount + 1) := by
  rw [drainStep, if_neg]
  simpa [drainEnds] using h

/-- The end of a DRAINING tick writes `phase` or `shiftCount`. -/
theorem drainStep_frame (s : State) : ∃ p n, drainStep s = (s.setPhase p).setShiftCount n := by
  rw [drainStep]
  split
  · exact ⟨.done, s.shiftCount, rfl⟩
  · exact ⟨s.phase, s.shiftCount + 1, rfl⟩

/-- A DRAINING tick with every poll answered 0 (rules R127, R128). -/
structure State.DrainsTo (s t : State) : Prop where
  quiet : s.QuietTick t
  window : t.window = (winShiftLeft s.shiftCount.toNat s).window
  startGlyph : t.startGlyph = s.startGlyph
  startOffset : t.startOffset = s.startOffset
  ends : 32 ≤ s.shiftCount.toNat → t.phase = .done ∧ t.shiftCount = s.shiftCount
  counts : s.shiftCount.toNat < 32 → t.phase = .draining ∧ t.shiftCount = s.shiftCount + 1

theorem shifted_shiftCount (s : State) (k : Nat) (es : List Event) (n : Nat) :
    (s.shifted k es n).shiftCount = s.shiftCount := by simp [State.shifted, winShiftLeft]

theorem shifted_pixel (s : State) (k n : Nat) (es : List Event) (r : Fin 8) (c : Fin 32) :
    (s.shifted k es n).pixel r c =
      if h : c.val + s.shiftCount.toNat < 32 then s.pixel r ⟨c.val + s.shiftCount.toNat, h⟩ else false := by
  rw [State.pixel, State.shifted, State.polled_window]
  exact winShiftLeft_pixel s _ r c

theorem tickDrain_drainsTo {s : State} (hp : s.phase = .draining) (h : s.quietFor (1 + s.params.framesPerTick)) :
    s.DrainsTo (tickDrain s) := by
  rw [tickDrain_quiet s h]
  have hcount := shifted_shiftCount s s.params.framesPerTick [] (s.params.framesPerTick + 1)
  obtain ⟨p, n, e⟩ := drainStep_frame (s.shifted s.params.framesPerTick [] (s.params.framesPerTick + 1))
  constructor
  case quiet => exact (State.QuietTick.dwell s (winShiftLeft s.shiftCount.toNat s).window).drainStep
  case window => rw [e]; simp [State.shifted]
  case startGlyph => rw [e]; simp [State.shifted, winShiftLeft]
  case startOffset => rw [e]; simp [State.shifted, winShiftLeft]
  case ends => intro h32; rw [drainStep_of_width_le (hcount ▸ h32)]; exact ⟨rfl, hcount⟩
  case counts =>
    intro h32
    rw [drainStep_of_lt_width (hcount ▸ h32), hcount]
    exact ⟨by simpa [State.shifted, winShiftLeft] using hp, rfl⟩

/-- Settles O31: the quiet DRAINING tick shifts, dwells and counts. -/
theorem drainingTick : Obligations.DrainingTick := by
  intro s hp h
  have ht := tickDrain_drainsTo hp h
  refine ⟨_, rfl, fun r c => ?_, ht.ends, ht.counts, ht.quiet.trace, ht.quiet.answers, ht.startGlyph, ht.startOffset,
    ht.quiet.bufLen, ht.quiet.overflow, ht.quiet.memory, ht.quiet.params, ht.quiet.rst, ht.quiet.requests,
    ht.quiet.result⟩
  rw [State.pixel, ht.window]
  exact winShiftLeft_pixel s _ r c

/-! A dwell abandoned between two frames (rules R131, R156, R188). -/

/-- `k` polls answered 0 and one answered 1 take these answers. -/
theorem drop_stoppedAnswers (k : Nat) (rest : List Bool) :
    (List.replicate k false ++ true :: rest).drop (k + 1) = rest := by
  simp [List.drop_append]

/-- The event of ABORT comes last, so the display stays blanked (rule R131). -/
theorem polled_abort_oeN (s : State) (es : List Event) (n : Nat) :
    (s.polled (es ++ [.poll true, .pin .oeN true]) n).pins.oeN = true := by
  rw [State.polled_pins, Pins.afterAll_append]; rfl

/-- A window written, then a poll, `k` whole frames and the abort, with `k + 2` answers taken. -/
theorem abandonedInDwell_of_polled {s : State} {k : Nat} {rest : List Bool}
    (h : s.pollAnswers = false :: (List.replicate k false ++ true :: rest)) (w : Window) :
    s.abandonedInDwell (((s.setWindow w).polled (.poll false :: (polledFrames k w ++ [.poll true, .pin .oeN true]))
      (k + 2)).setPhase .done) k rest := by
  have hoe := polled_abort_oeN (s.setWindow w) (.poll false :: polledFrames k w) (k + 2)
  refine ⟨rfl, ?_, ?_, ?_, ?_, ?_, ?_, hoe, lit_of_blanked hoe, ?_, fun _ => ?_, ?_, ?_, ?_, ?_⟩ <;>
    simp [State.polled_trace, h, drop_stoppedAnswers]

theorem dwellScan_stopped {s : State} {k : Nat} {rest : List Bool} (hk : k < s.params.framesPerTick)
    (h : s.pollAnswers = List.replicate k false ++ true :: rest) :
    dwellScan s =
      (.aborted, (s.polled (polledFrames k s.window ++ [.poll true, .pin .oeN true]) (k + 1)).setPhase .done) :=
  dwellFrames_stopped _ k s rest hk h

/-- Settles O35: the answers lead every dwell to its poll of 1, by itself or inside a tick. -/
theorem dwellAbortsBetweenFrames : Obligations.DwellAbortsBetweenFrames := by
  intro s k rest hk
  refine ⟨fun h => ?_, fun h => ⟨fun hp h1 hc _ => ?_, fun hp => ?_⟩⟩
  · refine ⟨_, exec_dwellScan (dwellScan_stopped hk h), rfl, rfl, ?_, ?_, ?_, ?_, ?_, ?_, ?_, ?_, fun _ => ?_,
      polled_abort_oeN s _ (k + 1)⟩ <;> simp [State.polled_trace, h, drop_stoppedAnswers]
  · have ht := tickFill_stopped s k rest (Nat.ne_of_gt h1) hk h
    have hend : s.abandonedInDwell (tickFill s) k rest := ht ▸ abandonedInDwell_of_polled h _
    have hpix : ∀ r (c : Fin 32), (tickFill s).pixel r c = s.streamPixel r (s.startPosition + c.val) :=
      ht ▸ filled_shows s k (k + 2) _
    simp only [List.forall_mem_cons]
    exact ⟨⟨_, tick_filling hp ▸ exec_tick fun _ => hc, hend, hpix⟩, ⟨_, exec_tickFill hc, hend, hpix⟩, nofun⟩
  · have ht := tickDrain_stopped s k rest hk h
    have hend : s.abandonedInDwell (tickDrain s) k rest := ht ▸ abandonedInDwell_of_polled h _
    have hpix : ∀ r (c : Fin 32), (tickDrain s).pixel r c =
        if h : c.val + s.shiftCount.toNat < 32 then s.pixel r ⟨c.val + s.shiftCount.toNat, h⟩ else false :=
      ht ▸ shifted_pixel s k (k + 2) _
    have hexec : exec .tick s = .next (tickDrain s) := tick_draining hp ▸ exec_tick (by simp [hp])
    simp only [List.forall_mem_cons]
    exact ⟨⟨_, hexec, hend, hpix⟩, ⟨_, rfl, hend, hpix⟩, nofun⟩

end Sys2Proof.Machine

/-! A pass (rules R120, R132 to R135): that it ends whatever the polls, and what every tick of a quiet pass leaves. -/

namespace Sys2Proof.Machine

/-! The engine by itself (rules R120, R133, R167). -/

/-- Settles O56: with no request `fetch` looks at the phase only. -/
theorem engineSequencesItself : Obligations.EngineSequencesItself := by
  intro s hrst hreq
  refine ⟨fun hp => ?_, fun hp => ?_⟩ <;> simp only [step, stepOperation, fetch, hrst, hreq]
  · rw [if_neg hp]
  · rw [if_pos hp]

/-- The order FILLING, DRAINING, DONE of a pass, and FILLING again from DONE (rule R133). -/
def State.phaseForward (s t : State) : Prop :=
  ¬(s.phase = .draining ∧ t.phase = .filling) ∧ ¬(s.phase = .done ∧ t.phase = .draining)

theorem State.phaseForward_of_same {s t : State} (h : t.phase = s.phase) : s.phaseForward t := by
  constructor <;> rintro ⟨hs, ht⟩ <;> simp [h, hs] at ht

theorem State.phaseForward_of_done {s t : State} (h : t.phase = .done) : s.phaseForward t := by
  constructor <;> rintro ⟨_, ht⟩ <;> simp [h] at ht

theorem start_phaseForward (n : Nat) (s : State) : s.phaseForward (start n s) := by
  rcases start_cases n s with h | h | ⟨hp, _, h⟩ <;> rw [h]
  · exact State.phaseForward_of_same rfl
  · exact State.phaseForward_of_same rfl
  · exact ⟨fun ⟨hd, _⟩ => by simp [hp] at hd, nofun⟩

theorem tick_phaseForward (s : State) : s.phaseForward (tick s) := by
  cases hp : s.phase with
  | filling => exact ⟨fun ⟨hd, _⟩ => by simp [hp] at hd, fun ⟨hd, _⟩ => by simp [hp] at hd⟩
  | draining =>
    rw [tick_draining hp]
    rcases tickDrain_ends s with ⟨hdone, _⟩ | e
    · exact State.phaseForward_of_done hdone
    · exact State.phaseForward_of_same (by simp [e, State.shifted, winShiftLeft])
  | done => exact State.phaseForward_of_same (congrArg State.phase (tick_done hp))

theorem hostAction_phaseForward {i : Instr} {s t : State} (hi : isHostAction i = true) (h : exec i s = .next t) :
    s.phaseForward t := by
  rcases hostAction_cases hi h with rfl | ⟨n, rfl⟩ | ⟨addr, v, rfl⟩
  · exact State.phaseForward_of_done rfl
  · exact start_phaseForward n s
  · exact State.phaseForward_of_same rfl

theorem stepOperation_phaseForward {s t : State} (hd : s.hostDriven) (h : stepOperation s = .next t) :
    s.phaseForward t := by
  rcases stepOperation_hostDriven hd h with ⟨i, rest, hi, _, hexec⟩ | rfl | rfl
  · exact hostAction_phaseForward (s := { s with requests := rest }) hi hexec
  · exact tick_phaseForward s
  · exact State.phaseForward_of_same rfl

/-- Settles O50: a step without `rst` goes forward, and an `rst` leads to DONE or waits on. -/
theorem phaseNeverGoesBack : Obligations.PhaseNeverGoesBack := by
  intro s t hd h
  change s.phaseForward t
  unfold step at h
  split at h
  · exact stepOperation_phaseForward hd h
  · cases h; exact State.phaseForward_of_done rfl
  · rename_i n _
    split at h
    · rename_i u hu
      cases h
      have hforward : s.phaseForward u := stepOperation_phaseForward (s := { s with rst := none }) hd hu
      rcases cutByRst_cases (n + 1) s u with ⟨k, e⟩ | ⟨v, _, e⟩ <;> rw [e]
      · exact hforward
      · exact State.phaseForward_of_done rfl
    · cases h
    · cases h

/-! Every pass ends (rules R132, R195). -/

/-- What a pass keeps for its end: the legal ranges, and in FILLING the start cursor inside the buffer, or the buffer
empty, at `shiftCount` 1 (rules R25, R26, R29). -/
structure State.InPass (s : State) : Prop where
  capacity : s.bufLen ≤ s.params.maxGlyphs
  shiftLegal : s.shiftLegal
  inside : s.phase = .filling → s.bufLen ≠ 0 → s.startGlyph < s.bufLen
  firstShift : s.phase = .filling → s.shiftCount = 1

/-- How many ticks a pass may still take: the positions left to show, then the drain's 32 ticks (rule R135). -/
def State.ticksLeft (s : State) : Nat :=
  match s.phase with
  | .filling => 8 * s.bufLen - s.startPosition + 32
  | .draining => 33 - s.shiftCount.toNat
  | .done => 0

theorem ticksLeft_filling {s : State} (hp : s.phase = .filling) :
    s.ticksLeft = 8 * s.bufLen - s.startPosition + 32 := by rw [State.ticksLeft, hp]

theorem ticksLeft_draining {s : State} (hp : s.phase = .draining) : s.ticksLeft = 33 - s.shiftCount.toNat := by
  rw [State.ticksLeft, hp]

theorem ticksLeft_done {s : State} (hp : s.phase = .done) : s.ticksLeft = 0 := by rw [State.ticksLeft, hp]

theorem State.InPass.ticksLeft_pos {s : State} (h : s.InPass) (hp : s.phase ≠ .done) : 0 < s.ticksLeft := by
  cases hphase : s.phase with
  | filling => rw [ticksLeft_filling hphase]; omega
  | draining => rw [ticksLeft_draining hphase]; have := h.shiftLegal.2; omega
  | done => exact absurd hphase hp

/-- A cursor inside the buffer stands at a position below its end. -/
theorem startPosition_lt {s : State} (hg : s.startGlyph < s.bufLen) : s.startPosition < 8 * s.bufLen := by
  have := s.startOffset.isLt
  rw [State.startPosition]; omega

/-- Out of FILLING only the ranges are asked for. -/
theorem State.InPass.of_runs {s t : State} (h : s.InPass) (ht : s.RunsTo t) (hp : t.phase ≠ .filling) : t.InPass := by
  obtain ⟨es, hes⟩ := ht.follows
  exact ⟨ht.bufLen ▸ hes.params ▸ h.capacity, ht.shiftLegal h.shiftLegal, fun hf => absurd hf hp,
    fun hf => absurd hf hp⟩

/-- ADVANCE_CURSOR in FILLING leaves one position less to show, or the drain (rule R130). -/
theorem advanceCursor_ticksLeft {s : State} (h : s.InPass) (hp : s.phase = .filling) (hg : s.startGlyph < s.bufLen) :
    (advanceCursor s).InPass ∧ (advanceCursor s).ticksLeft < s.ticksLeft := by
  have hphase := advanceCursor_phase s
  have hlt := startPosition_lt hg
  obtain ⟨hle, _⟩ := advanceCursor_inside h.capacity hg
  have hruns := advanceCursor_runs s
  have hcount : (advanceCursor s).shiftCount = 1 := by
    obtain ⟨g, o, p, e⟩ := advanceCursor_frame s
    rw [e, ← h.firstShift hp]; rfl
  rw [ticksLeft_filling hp]
  by_cases hend : (advanceCursor s).startGlyph = s.bufLen
  · rw [if_pos hend] at hphase
    refine ⟨h.of_runs hruns (by simp [hphase]), ?_⟩
    rw [ticksLeft_draining hphase, hcount]
    simp; omega
  · rw [if_neg hend, hp] at hphase
    obtain ⟨es, hes⟩ := hruns.follows
    refine ⟨⟨hruns.bufLen ▸ hes.params ▸ h.capacity, hruns.shiftLegal h.shiftLegal, fun _ _ => ?_, fun _ => hcount⟩,
      ?_⟩
    · rw [hruns.bufLen]; omega
    · rw [ticksLeft_filling hphase, hruns.bufLen, advanceCursor_position h.capacity hg]; omega

theorem State.InPass.filled {s : State} (h : s.InPass) (k n : Nat) (es : List Event) : (s.filled k es n).InPass where
  capacity := by simpa [State.filled] using h.capacity
  shiftLegal := by simpa [State.filled, State.shiftLegal] using h.shiftLegal
  inside := by simpa [State.filled] using h.inside
  firstShift := by simpa [State.filled] using h.firstShift

theorem filled_ticksLeft (s : State) (k n : Nat) (es : List Event) : (s.filled k es n).ticksLeft = s.ticksLeft := by
  simp [State.ticksLeft, State.startPosition, State.filled]

theorem tickFill_ticksLeft {s : State} (h : s.InPass) (hp : s.phase = .filling) :
    (tickFill s).InPass ∧ (tickFill s).ticksLeft < s.ticksLeft := by
  rcases tickFill_ends s with ⟨hdone, _⟩ | ⟨h0, e⟩
  · refine ⟨h.of_runs (tickFill_runs s) (by simp [hdone]), ?_⟩
    rw [ticksLeft_done hdone]; exact h.ticksLeft_pos (by simp [hp])
  · rw [e]
    rw [← filled_ticksLeft s s.params.framesPerTick (s.params.framesPerTick + 1) []]
    apply advanceCursor_ticksLeft (h.filled _ _ [])
    · simpa [State.filled] using hp
    · simpa [State.filled] using h.inside hp h0

theorem tickDrain_ticksLeft {s : State} (h : s.InPass) (hp : s.phase = .draining) :
    (tickDrain s).InPass ∧ (tickDrain s).ticksLeft < s.ticksLeft := by
  rcases tickDrain_ends s with ⟨hdone, _⟩ | e
  · refine ⟨h.of_runs (tickDrain_runs s) (by simp [hdone]), ?_⟩
    rw [ticksLeft_done hdone]; exact h.ticksLeft_pos (by simp [hp])
  · have hphase : (tickDrain s).phase = .draining := by simpa [e, State.shifted, winShiftLeft] using hp
    refine ⟨h.of_runs (tickDrain_runs s) (by simp [hphase]), ?_⟩
    have hcount : (tickDrain s).shiftCount = s.shiftCount + 1 := by rw [e]; rfl
    obtain ⟨_, hhigh⟩ := h.shiftLegal
    rw [ticksLeft_draining hp, ticksLeft_draining hphase, hcount, BitVec.toNat_add]
    simp; omega

/-- Every tick of a pass, whatever its polls answer, brings the end nearer (rule R195). -/
theorem tick_ticksLeft {s : State} (h : s.InPass) (hp : s.phase ≠ .done) :
    (tick s).InPass ∧ (tick s).ticksLeft < s.ticksLeft := by
  cases hphase : s.phase with
  | filling => rw [tick_filling hphase]; exact tickFill_ticksLeft h hphase
  | draining => rw [tick_draining hphase]; exact tickDrain_ticksLeft h hphase
  | done => exact absurd hphase hp

theorem tickUntilDone_phase {fuel : Nat} {s : State} (h : s.InPass) (hfuel : s.ticksLeft ≤ fuel) :
    (tickUntilDone fuel s).phase = .done := by
  induction fuel generalizing s with
  | zero =>
    by_contra hp
    have := h.ticksLeft_pos hp
    omega
  | succ fuel ih =>
    rw [tickUntilDone]
    split
    · assumption
    · rename_i hp
      obtain ⟨hin, hlt⟩ := tick_ticksLeft h hp
      exact ih hin (by omega)

theorem startPass_inPass {n : Nat} {s : State} (hn : n ≤ s.params.maxGlyphs) : (startPass n s).InPass where
  capacity := hn
  shiftLegal := (by decide : 1 ≤ (1 : BitVec 6).toNat ∧ (1 : BitVec 6).toNat ≤ 32)
  inside _ h0 := Nat.pos_of_ne_zero h0
  firstShift _ := rfl

/-- Settles O38: START stays in DONE or begins a pass, which has no more than the loop's fuel of ticks left. -/
theorem runPassEnds : Obligations.RunPassEnds := by
  intro s n hp
  by_cases hn : n ≤ s.params.maxGlyphs
  · have hstart := start_accepted hp hn
    have hfuel : (startPass n s).ticksLeft ≤ passFuel (startPass n s) := by
      change 8 * n - 0 + 32 ≤ 8 * n + 33 + s.pollAnswers.length
      omega
    have hdone := tickUntilDone_phase (startPass_inPass hn) hfuel
    rw [← hstart] at hdone
    exact ⟨_, exec_runPass_of_done (fun _ => hstart ▸ hn) hdone, hdone⟩
  · obtain ⟨_, hoverflow⟩ := bufferOverflowSetsOneFlag s n
    exact ⟨_, (hoverflow hp (Nat.lt_of_not_le hn)).2, hp⟩

/-! A quiet pass (rules R134, R135). -/

/-- The polls of the `k`-th tick of a stretch of quiet polls are quiet. -/
theorem take_drop_replicate_false {answers : List Bool} {total k m : Nat}
    (h : answers.take total = List.replicate total false) (hk : k + m ≤ total) :
    (answers.drop k).take m = List.replicate m false := by
  have hfirst : answers.take (k + m) = List.replicate (k + m) false := by
    rw [← Nat.min_eq_left hk, ← List.take_take, h, List.take_replicate]
  rw [List.take_drop, hfirst, List.drop_replicate, Nat.add_sub_cancel_left]

/-- What `k` ticks with every poll answered 0 have done whatever their phases: counts of events and answers, and what
stays (rule R135). -/
structure State.QuietTicks (s t : State) (k : Nat) : Prop where
  counts : ∃ es, t.trace = s.trace ++ es ∧ pinCount es = k * s.params.framesPerTick * 976 ∧
    pollCountOf es = k * (1 + s.params.framesPerTick) ∧ dwellCount es = k * s.params.framesPerTick * 8
  answers : t.pollAnswers = s.pollAnswers.drop (k * (1 + s.params.framesPerTick))
  bufLen : t.bufLen = s.bufLen
  overflow : t.overflow = s.overflow
  memory : s.sameMemory t
  params : t.params = s.params
  rst : t.rst = s.rst
  requests : t.requests = s.requests

theorem State.QuietTicks.zero (s : State) : s.QuietTicks s 0 :=
  ⟨⟨[], by simp [pinCount, pollCountOf, dwellCount]⟩, by simp, rfl, rfl, fun _ => rfl, rfl, rfl, rfl⟩

theorem State.QuietTicks.succ {s t u : State} {k : Nat} (h : s.QuietTicks t k) (hu : t.QuietTick u) :
    s.QuietTicks u (k + 1) where
  counts := by
    obtain ⟨es, hes, hpins, hpolls, hdwells⟩ := h.counts
    obtain ⟨fpins, fpolls, fdwells⟩ := polledFrames_counts s.params.framesPerTick u.window
    refine ⟨es ++ ([.poll false] ++ polledFrames s.params.framesPerTick u.window), ?_, ?_, ?_, ?_⟩
    · rw [hu.trace, hes, h.params, List.append_assoc]; rfl
    · rw [pinCount_append, pinCount_append, hpins, fpins, show pinCount [.poll false] = 0 from rfl]; ring
    · rw [pollCountOf_append, pollCountOf_append, hpolls, fpolls, show pollCountOf [.poll false] = 1 from rfl]; ring
    · rw [dwellCount_append, dwellCount_append, hdwells, fdwells, show dwellCount [.poll false] = 0 from rfl]; ring
  answers := by rw [hu.answers, h.answers, h.params, List.drop_drop, Nat.succ_mul]
  bufLen := hu.bufLen.trans h.bufLen
  overflow := hu.overflow.trans h.overflow
  memory addr := (hu.memory addr).trans (h.memory addr)
  params := hu.params.trans h.params
  rst := hu.rst.trans h.rst
  requests := hu.requests.trans h.requests

theorem State.QuietTicks.streamPixel {s t : State} {k : Nat} (h : s.QuietTicks t k) (r : Fin 8) (p : Nat) :
    t.streamPixel r p = s.streamPixel r p :=
  streamPixel_congr h.bufLen (fun addr _ => h.memory addr) r p

/-- A state in which a pass over glyphs begins whose polls are all answered 0 (rule R135). -/
structure State.BeginsQuietPass (s : State) : Prop where
  phase : s.phase = .filling
  startGlyph : s.startGlyph = 0
  startOffset : s.startOffset = 0
  shiftCount : s.shiftCount = 1
  glyphs : 1 ≤ s.bufLen
  capacity : s.bufLen ≤ s.params.maxGlyphs
  quiet : s.quietFor ((8 * s.bufLen + 32) * (1 + s.params.framesPerTick))

/-- Where a quiet pass that begins in `s` stands after `k` ticks (rules R134, R135): `8*L` FILLING ticks at the
positions 0, 1, ..., then 32 DRAINING ticks at the amounts 1, 2, ..., then DONE; the window as the last tick left it. -/
structure PassAt (s t : State) (k : Nat) : Prop where
  ticks : s.QuietTicks t k
  filling : k < 8 * s.bufLen → t.phase = .filling ∧ t.startPosition = k ∧ t.shiftCount = 1
  cursorAtEnd : 8 * s.bufLen ≤ k → t.startGlyph = s.bufLen ∧ t.startOffset = 0
  draining : 8 * s.bufLen ≤ k → k < 8 * s.bufLen + 32 →
    t.phase = .draining ∧ t.shiftCount.toNat = k - 8 * s.bufLen + 1
  ended : k = 8 * s.bufLen + 32 → t.phase = .done ∧ t.shiftCount = 32
  shows : ∀ j, k = j + 1 → j < 8 * s.bufLen → ∀ r (c : Fin 32), t.pixel r c = s.streamPixel r (j + c.val)
  emptied : 8 * s.bufLen < k → ∀ r, t.window.get r = 0

theorem PassAt.zero {s : State} (h : s.BeginsQuietPass) : PassAt s s 0 where
  ticks := .zero s
  filling _ := ⟨h.phase, by simp [State.startPosition, h.startGlyph, h.startOffset], h.shiftCount⟩
  cursorAtEnd h0 := absurd h.glyphs (by omega)
  draining h0 := absurd h.glyphs (by omega)
  ended h0 := absurd h0 (by omega)
  shows _ h0 := absurd h0 (by omega)
  emptied h0 := absurd h0 (by omega)

theorem PassAt.quietTick {s t : State} {k : Nat} (h : PassAt s t k) (hs : s.BeginsQuietPass)
    (hk : k < 8 * s.bufLen + 32) : t.quietFor (1 + t.params.framesPerTick) := by
  rw [State.quietFor, h.ticks.params, h.ticks.answers]
  apply take_drop_replicate_false hs.quiet
  rw [← Nat.succ_mul]
  exact Nat.mul_le_mul_right _ hk

/-- A cursor at a position inside the buffer stands at a glyph of the buffer. -/
theorem startGlyph_lt {s : State} {n : Nat} (h : s.startPosition < 8 * n) : s.startGlyph < n := by
  rw [State.startPosition] at h; omega

/-- The position `8*n` is that of column 0 of glyph `n`. -/
theorem cursor_of_startPosition {s : State} {n : Nat} (h : s.startPosition = 8 * n) :
    s.startGlyph = n ∧ s.startOffset = 0 := by
  have := s.startOffset.isLt
  rw [State.startPosition] at h
  exact ⟨by omega, BitVec.eq_of_toNat_eq (by simp; omega)⟩

/-- One more FILLING tick of the pass. -/
theorem PassAt.tick_filling {s t : State} {k : Nat} (h : PassAt s t k) (hs : s.BeginsQuietPass)
    (hk : k < 8 * s.bufLen) : PassAt s (tick t) (k + 1) := by
  obtain ⟨hp, hpos, hcount⟩ := h.filling hk
  have hlen := h.ticks.bufLen
  have ht : t.FillsTo (tickFill t) :=
    tickFill_fillsTo (by rw [hlen, h.ticks.params]; exact hs.capacity) hp
      (startGlyph_lt (by rw [hpos, hlen]; exact hk)) (h.quietTick hs (by omega))
  have hnext : (tickFill t).startPosition = k + 1 := by rw [ht.position, hpos]
  have hphase := ht.phase
  rw [hlen] at hphase
  rw [Machine.tick_filling hp]
  constructor
  case ticks => exact h.ticks.succ ht.quiet
  case filling =>
    intro hk'
    have hg : (tickFill t).startGlyph < s.bufLen := startGlyph_lt (hnext ▸ hk')
    exact ⟨hphase.trans (if_neg (Nat.ne_of_lt hg)), hnext, ht.shiftCount.trans hcount⟩
  case cursorAtEnd => intro hk'; exact cursor_of_startPosition (by omega)
  case draining =>
    intro hk' _
    obtain ⟨hg, _⟩ := cursor_of_startPosition (s := tickFill t) (n := s.bufLen) (by omega)
    refine ⟨hphase.trans (if_pos hg), ?_⟩
    rw [ht.shiftCount, hcount]
    simp; omega
  case ended => intro hk'; omega
  case shows =>
    intro j hj _ r c
    rw [ht.shows, h.ticks.streamPixel, hpos, Nat.succ.inj hj]
  case emptied => intro hk'; omega

/-- Once the last column of the stream stands at window column 0, every other window column is dark (rule R134 c). -/
theorem PassAt.pixel_dark {s t : State} {k : Nat} (h : PassAt s t k) (hs : s.BeginsQuietPass) (hk : 8 * s.bufLen ≤ k)
    (r : Fin 8) (c : Fin 32) (hc : 1 ≤ c.val) : t.pixel r c = false := by
  have hglyphs := hs.glyphs
  rcases Nat.eq_or_lt_of_le hk with hlast | hlast
  · rw [h.shows (k - 1) (by omega) (by omega), State.streamPixel, if_neg (by omega)]
  · rw [State.pixel, Window.pixel, h.emptied hlast]; exact pixelOf_zero c

/-- One more DRAINING tick of the pass. -/
theorem PassAt.tick_draining {s t : State} {k : Nat} (h : PassAt s t k) (hs : s.BeginsQuietPass)
    (hk : 8 * s.bufLen ≤ k) (hk' : k < 8 * s.bufLen + 32) : PassAt s (tick t) (k + 1) := by
  obtain ⟨hp, hcount⟩ := h.draining hk hk'
  obtain ⟨hg, ho⟩ := h.cursorAtEnd hk
  have ht : t.DrainsTo (tickDrain t) := tickDrain_drainsTo hp (h.quietTick hs hk')
  rw [Machine.tick_draining hp]
  constructor
  case ticks => exact h.ticks.succ ht.quiet
  case filling => intro _; omega
  case cursorAtEnd => intro _; exact ⟨ht.startGlyph.trans hg, ht.startOffset.trans ho⟩
  case draining =>
    intro _ hlt
    obtain ⟨hphase, hnext⟩ := ht.counts (by omega)
    refine ⟨hphase, ?_⟩
    rw [hnext, BitVec.toNat_add, hcount]
    simp; omega
  case ended =>
    intro hlast
    obtain ⟨hphase, hsame⟩ := ht.ends (by omega)
    exact ⟨hphase, hsame.trans (BitVec.eq_of_toNat_eq (by rw [hcount]; simp; omega))⟩
  case shows => intro j hj _; omega
  case emptied =>
    intro _ r
    apply eq_zero_of_pixels
    intro c
    rw [ht.window]
    refine (winShiftLeft_pixel t _ r c).trans ?_
    split
    · exact h.pixel_dark hs hk r _ (by simp; omega)
    · rfl

/-- One more tick of the pass (rule R135). -/
theorem PassAt.tick {s t : State} {k : Nat} (h : PassAt s t k) (hs : s.BeginsQuietPass) (hk : k < 8 * s.bufLen + 32) :
    PassAt s (tick t) (k + 1) :=
  (Nat.lt_or_ge k (8 * s.bufLen)).elim (h.tick_filling hs) fun hge => h.tick_draining hs hge hk

theorem PassAt.running {s t : State} {k : Nat} (h : PassAt s t k) (hk : k < 8 * s.bufLen + 32) : t.phase ≠ .done := by
  rcases Nat.lt_or_ge k (8 * s.bufLen) with hlt | hge
  · simp [(h.filling hlt).1]
  · simp [(h.draining hge hk).1]

/-- The loop of RUN_PASS carries a quiet pass to its end. -/
theorem PassAt.tickUntilDone {s t : State} {k fuel : Nat} (h : PassAt s t k) (hs : s.BeginsQuietPass)
    (hk : k ≤ 8 * s.bufLen + 32) (hfuel : 8 * s.bufLen + 32 ≤ k + fuel) :
    PassAt s (tickUntilDone fuel t) (8 * s.bufLen + 32) := by
  induction fuel generalizing t k with
  | zero =>
    obtain rfl : k = 8 * s.bufLen + 32 := by omega
    exact h
  | succ fuel ih =>
    rcases Nat.eq_or_lt_of_le hk with rfl | hlt
    · rw [tickUntilDone_of_done _ (h.ended rfl).1]; exact h
    · rw [Machine.tickUntilDone, if_neg (h.running hlt)]
      exact ih (h.tick hs hlt) hlt (by omega)

/-- Settles O39: START begins a quiet pass, the loop carries it to its end, and CLEARSEQ adds its six line writes. -/
theorem fullPassCounts : Obligations.FullPassCounts := by
  intro s n hp h1 hn hquiet
  have hstart := start_accepted hp hn
  have hbegin : (startPass n s).BeginsQuietPass := ⟨rfl, rfl, rfl, rfl, h1, hn, hquiet⟩
  have hfuel : 8 * n + 32 ≤ 0 + passFuel (startPass n s) := by
    change 8 * n + 32 ≤ 0 + (8 * n + 33 + s.pollAnswers.length)
    omega
  have hend := (PassAt.zero hbegin).tickUntilDone hbegin (Nat.zero_le _) hfuel
  obtain ⟨hdone, hcount⟩ := hend.ended rfl
  obtain ⟨hglyph, hoffset⟩ := hend.cursorAtEnd (Nat.le_add_right _ _)
  obtain ⟨es, hes, hpins, hpolls, hdwells⟩ := hend.ticks.counts
  have hexec := exec_runPass_of_done (n := n) (s := s) (fun _ => hstart ▸ hn) (hstart ▸ hdone)
  rw [hstart] at hexec
  refine ⟨_, clearseqEvents ++ es, hexec, ?_, ?_, ?_, ?_, hdone, hglyph, hoffset, hcount, hend.ticks.bufLen,
    hend.ticks.overflow, hend.emptied (by omega)⟩
  · rw [hes, (startPass_follows n s).trace, List.append_assoc]
  · rw [pinCount_append, hpins]; rfl
  · rw [pollCountOf_append, hpolls]; exact Nat.zero_add _
  · rw [dwellCount_append, hdwells]; exact Nat.zero_add _

/-! The pass as the machine's own steps. -/

/-- With no request and no `rst` due, a step of a quiet pass is one tick of it (rule R120). -/
theorem PassAt.step {s t : State} {k : Nat} (h : PassAt s t k) (hs : s.BeginsQuietPass) (hreq : s.requests = [])
    (hrst : s.rst = none) (hk : k < 8 * s.bufLen + 32) : Machine.step t = .next (Machine.tick t) := by
  obtain ⟨hown, _⟩ := engineSequencesItself t (h.ticks.rst.trans hrst) (h.ticks.requests.trans hreq)
  rw [hown (h.running hk)]
  exact exec_tick fun _ => by rw [h.ticks.bufLen, h.ticks.params]; exact hs.capacity

theorem run_of_step {M : Host.Core} {s t : M.State} (m : Nat) (h : M.step s = .next t) :
    M.run (m + 1) s = M.run m t := by rw [Host.Core.run, h]

theorem PassAt.run {s t : State} {k : Nat} (m : Nat) (h : PassAt s t k) (hs : s.BeginsQuietPass)
    (hreq : s.requests = []) (hrst : s.rst = none) (hk : k + m ≤ 8 * s.bufLen + 32) :
    ∃ u : State, Host.Core.run Sys2Proof.core m t = .next u ∧ PassAt s u (k + m) := by
  induction m generalizing t k with
  | zero => exact ⟨t, rfl, h⟩
  | succ m ih =>
    have hstep : Sys2Proof.core.step t = .next (Machine.tick t) := h.step hs hreq hrst (by omega)
    obtain ⟨u, hu, hpass⟩ := ih (h.tick hs (by omega)) (by omega)
    exact ⟨u, (run_of_step m hstep).trans hu, by rwa [Nat.add_right_comm] at hpass⟩

/-- Settles O40: `k` steps are `k` ticks of the quiet pass. -/
theorem passVisitsEveryTickState : Obligations.PassVisitsEveryTickState := by
  intro s k hp hg ho hc h1 hcap hreq hrst hquiet hk
  have hbegin : s.BeginsQuietPass := ⟨hp, hg, ho, hc, h1, hcap, hquiet⟩
  obtain ⟨t, hrun, ht⟩ := (PassAt.zero hbegin).run k hbegin hreq hrst (by omega)
  rw [Nat.zero_add] at ht
  refine ⟨t, hrun, ht.filling, fun hge hlt => ?_, fun hend => ?_⟩
  · obtain ⟨hphase, hcount⟩ := ht.draining hge hlt
    obtain ⟨hglyph, hoffset⟩ := ht.cursorAtEnd hge
    exact ⟨hphase, hglyph, hoffset, hcount⟩
  · obtain ⟨hphase, hcount⟩ := ht.ended hend
    obtain ⟨hglyph, hoffset⟩ := ht.cursorAtEnd (by omega)
    exact ⟨hphase, hglyph, hoffset, hcount⟩

/-- Settles O41: the window after tick `k` is the one after `k + 1` ticks. -/
theorem passScrollsTheStream : Obligations.PassScrollsTheStream := by
  intro s k hp hg ho hc h1 hcap hreq hrst hquiet hk
  have hbegin : s.BeginsQuietPass := ⟨hp, hg, ho, hc, h1, hcap, hquiet⟩
  obtain ⟨t, hrun, ht⟩ := (PassAt.zero hbegin).run (k + 1) hbegin hreq hrst (by omega)
  rw [Nat.zero_add] at ht
  exact ⟨t, hrun, ht.shows k rfl, fun hge => ht.emptied (by omega)⟩

end Sys2Proof.Machine

/-! The panel after SCAN_ROW (rule R166), and a step with `rst` due (rules R155 a, R183). -/

namespace Sys2Proof.Machine

/-! SCAN_ROW on the panel (rules R165, R166). -/

/-- After a row frame with `CLR_n` high and `OE_n` low the panel shows the frame's row, as its pattern has it. -/
theorem lit_emit_rowframeEvents {s : State} (hclr : s.pins.clrN = true) (hoe : s.pins.oeN = false) (v : Word)
    (row r : Fin 8) (c : Fin 32) :
    (s.emit (rowframeEvents v (rowsel row))).lit r c = (decide (r = row) && pixelOf v c) := by
  have henabled : (s.emit (rowframeEvents v (rowsel row))).pins.oeN = false := by
    rw [State.emit_afterAll, rowframe_afterAll, hoe]
  rw [State.lit, henabled, State.emit_panel, rowframe_panel _ _ _ _ hclr, Bool.not_false, Bool.true_and, rowframe_lit]

/-- Settles O20: SCAN_ROW latches the row's pattern above its one-hot select byte, and `OE_n` stays low. -/
theorem scanRowShowsItsRow : Obligations.ScanRowShowsItsRow := by
  intro s row hr hclr hoe
  refine ⟨_, exec_scanRow ⟨row, hr⟩ s, fun r c => ?_⟩
  rw [lit_emit_rowframeEvents hclr hoe]
  by_cases hrow : r = ⟨row, hr⟩
  · rw [hrow, State.pixel, Window.pixel]
  · rw [decide_eq_false hrow, Bool.false_and, Bool.false_and]

/-! A step with `rst` due (rules R155 a, R183). -/

/-- An `rst` that is not due at once lets the operation run, then cuts it. -/
theorem step_rst_pos {s u : State} {n : Nat} (hn : 0 < n) (h : step { s with rst := none } = .next u) :
    step { s with rst := some n } = .next (cutByRst n { s with rst := some n } u) := by
  obtain ⟨m, rfl⟩ := Nat.exists_eq_add_one.mpr hn
  have hop : stepOperation { s with rst := none } = .next u := h
  simp only [step, hop]

theorem cutByRst_of_length_le {s t : State} {n : Nat} {es : List Event} (h : t.trace = s.trace ++ es)
    (hn : es.length ≤ n) : cutByRst n s t = { t with rst := some (n - es.length) } := by
  simp only [cutByRst, h, List.drop_left, if_pos hn]

theorem cutByRst_of_lt_length {s t : State} {n : Nat} {es : List Event} (h : t.trace = s.trace ++ es)
    (hn : n < es.length) : cutByRst n s t = takeRst (replay (es.take n) { s with requests := t.requests }) := by
  simp only [cutByRst, h, List.drop_left, if_neg (Nat.not_le.mpr hn)]

/-- An `rst` due at once or within the step's events is taken right after the first `n` of them. -/
theorem step_rst_cuts {s u : State} {n : Nat} {es : List Event} (h : step { s with rst := none } = .next u)
    (htrace : u.trace = s.trace ++ es) (hn : n = 0 ∨ n < es.length) :
    ∃ v, step { s with rst := some n } = .next (takeRst v) ∧ v.trace = s.trace ++ es.take n ∧
      v.glyphMem = s.glyphMem := by
  rcases Nat.eq_zero_or_pos n with rfl | hpos
  · exact ⟨{ s with rst := some 0 }, rfl, (List.append_nil _).symm, rfl⟩
  · have hlt : n < es.length := hn.resolve_left (Nat.ne_of_gt hpos)
    obtain ⟨hreplay, _, hmem, _⟩ := replay_frame (es.take n) { s with rst := some n, requests := u.requests }
    exact ⟨_, (step_rst_pos hpos h).trans (congrArg _ (cutByRst_of_lt_length htrace hlt)), hreplay, hmem⟩

/-- A step with no more events than `rst` waits for is whole, and `rst` waits for the rest. -/
theorem step_rst_waits {s u : State} {n : Nat} {es : List Event} (h : step { s with rst := none } = .next u)
    (htrace : u.trace = s.trace ++ es) (hpos : 0 < n) (hn : es.length ≤ n) :
    step { s with rst := some n } = .next { u with rst := some (n - es.length) } :=
  (step_rst_pos hpos h).trans (congrArg _ (cutByRst_of_length_le htrace hn))

/-- RESET clears the shift register before its last latch copies it (rule R181, Example). -/
theorem takeRst_panel (s : State) : (takeRst s).panel = { sr := 0, out := 0 } := rfl

theorem takeRst_window_get (s : State) (r : Fin 8) : (takeRst s).window.get r = 0 := winClear_get s r

/-- Settles O57: a cut step is its first `n` events and then `takeRst`, which writes every register, line and panel bit
whatever they left; a step that ends first is whole. -/
theorem rstCutsAtEventBoundary : Obligations.RstCutsAtEventBoundary := by
  intro s u n es h htrace
  refine ⟨fun hn => ?_, fun hpos hle => step_rst_waits h htrace hpos hle⟩
  obtain ⟨v, hstep, hv, hmem⟩ := step_rst_cuts h htrace hn
  have hevents : (takeRst v).trace = s.trace ++ es.take n ++ resetEvents := by rw [takeRst_trace, hv]
  exact ⟨takeRst v, hstep, hevents, rfl, rfl, rfl, rfl, rfl, rfl, takeRst_window_get v, rfl, takeRst_panel v, rfl,
    (resetOp_glyphMem v).trans hmem⟩

end Sys2Proof.Machine

/-! RESET (rules R34, R181): its events fix every line and the panel's two registers, whatever they were. -/

namespace Sys2Proof.Machine

/-- Every line is driven by RESET's events. -/
theorem afterAll_resetEvents (p : Pins) : p.afterAll resetEvents = Pins.afterReset := rfl

/-- The pulse on `CLR_n` clears the shift register, and the latch after it copies the zeros (rule R181, Example). -/
theorem panel_afterAll_resetEvents (q : Panel) (p : Pins) : q.afterAll p resetEvents = { sr := 0, out := 0 } := rfl

theorem resetOp_pins (s : State) : (resetOp s).pins = Pins.afterReset :=
  (resetOp_follows s).pins.trans (afterAll_resetEvents s.pins)

theorem resetOp_panel (s : State) : (resetOp s).panel = { sr := 0, out := 0 } :=
  (resetOp_follows s).panel.trans (panel_afterAll_resetEvents s.panel s.pins)

theorem resetOp_window_get (s : State) (r : Fin 8) : (resetOp s).window.get r = 0 := winClear_get s r

theorem resetOp_lit (s : State) (r : Fin 8) (c : Fin 32) : (resetOp s).lit r c = false :=
  lit_of_out_zero (congrArg Panel.out (resetOp_panel s)) r c

theorem resetOp_sameMemory (s : State) : s.sameMemory (resetOp s) :=
  fun addr => congrArg (fun m : Memory => m.read addr) (resetOp_glyphMem s)

/-- RESET polls nothing, so no answer is used up. -/
theorem resetOp_sameInputs (s : State) : s.sameInputs (resetOp s) :=
  have h := resetOp_follows s
  ⟨h.params, h.answers, h.polls, h.rst, h.requests⟩

/-- Settles O42: the registers are written before the events, and no event touches them; the events bring the lines and
the panel to their reset values. -/
theorem resetEstablishesResetState : Obligations.ResetEstablishesResetState := fun s =>
  ⟨resetOp s, rfl, rfl, rfl, rfl, rfl, rfl, rfl, resetOp_window_get s, resetOp_pins s, resetOp_panel s, resetOp_lit s,
    (resetOp_follows s).trace, resetOp_sameMemory s, resetOp_sameInputs s⟩

end Sys2Proof.Machine
